-- ==== Sys2Proof/Word.lean ====
section
/-! DEFINITION. The plain words of the core: command words, bytes, limbs, immediates and register numbers
(`00_scope.md` R7, R9, R10; `30_encoding.md` R110 to R113). -/

namespace Sys2Proof

/-- One byte of operand memory (R80). -/
abbrev Byte := BitVec 8

/-- One 32-bit word: a command word (R110), an address register (R25) or a host datum (R45). -/
abbrev Word := BitVec 32

/-- One 64-bit limb or counter (R10, R33, R40). -/
abbrev Limb := BitVec 64

/-- The number 0 .. 15 of a big register or of an address register (R21, R25); in a curve command, the
first register of a triple (R111). -/
abbrev RegNum := Fin 16

/-- A 4-bit flag selector as the command word holds it, legal or not (R118). -/
abbrev FlagSel := Fin 16

/-- The 16-bit immediate of formats M and B (R112, R114). -/
abbrev Imm16 := BitVec 16

/-- The 20-bit immediate of format I (R113). -/
abbrev Imm20 := BitVec 20

/-- A word index into command memory, the width of `pc` (R26). -/
abbrev CmdIndex := BitVec 16

end Sys2Proof
end

