-- ==== Sys2Proof/Syntax.lean ====
section
/-! DEFINITION. The command set: one constructor per row of `spec/opcode_table.json`, with the fields that R119
lists under "Fields used". A field is held as the command word holds it, so a constructor can carry a flag
selector, a register pair or a triple that `WellFormed.lean` refuses (R118, R121). -/

namespace Sys2Proof

/-- The 41 commands (R119). `rd`, `ra`, `rb`, `rc` are register numbers, `sel` is a flag selector. -/
inductive Instr where
  /-- `NOP` (R250) -/
  | nop
  /-- `HALT` (R251) -/
  | halt
  /-- `JMP target` (R252) -/
  | jmp (imm : Imm16)
  /-- `BFS flag, target` (R253) -/
  | bfs (sel : FlagSel) (imm : Imm16)
  /-- `BFC flag, target` (R254) -/
  | bfc (sel : FlagSel) (imm : Imm16)
  /-- `DBNZ An, target` (R255) -/
  | dbnz (rs : RegNum) (imm : Imm16)
  /-- `ALI Ad, imm20` (R256) -/
  | ali (rd : RegNum) (imm : Imm20)
  /-- `AADDI Ad, Aa, simm16` (R257) -/
  | aaddi (rd ra : RegNum) (imm : Imm16)
  /-- `LD Bd, off(Aa)` (R259) -/
  | ld (rd ra : RegNum) (imm : Imm16)
  /-- `ST Bs, off(Aa)` (R260); `rd` is the source -/
  | st (rd ra : RegNum) (imm : Imm16)
  /-- `BADD Bd, Ba, Bb` (R141) -/
  | badd (rd ra rb : RegNum)
  /-- `BADC Bd, Ba, Bb` (R142) -/
  | badc (rd ra rb : RegNum)
  /-- `BSUB Bd, Ba, Bb` (R143) -/
  | bsub (rd ra rb : RegNum)
  /-- `BSBB Bd, Ba, Bb` (R144) -/
  | bsbb (rd ra rb : RegNum)
  /-- `BCMP Ba, Bb` (R145) -/
  | bcmp (ra rb : RegNum)
  /-- `BSHR1 Bd, Ba` (R146) -/
  | bshr1 (rd ra : RegNum)
  /-- `BMULW Bd, Ba, Bb` (R147) -/
  | bmulw (rd ra rb : RegNum)
  /-- `BTSTZ Ba` (R148) -/
  | btstz (ra : RegNum)
  /-- `BMOV Bd, Ba` (R149) -/
  | bmov (rd ra : RegNum)
  /-- `BLDI Bd, imm20` (R150) -/
  | bldi (rd : RegNum) (imm : Imm20)
  /-- `BCSEL Bd, Ba, Bb, flag` (R151) -/
  | bcsel (rd ra rb : RegNum) (sel : FlagSel)
  /-- `MODSET Ba` (R171) -/
  | modset (ra : RegNum)
  /-- `FADD Bd, Ba, Bb` (R178) -/
  | fadd (rd ra rb : RegNum)
  /-- `FSUB Bd, Ba, Bb` (R179) -/
  | fsub (rd ra rb : RegNum)
  /-- `FNEG Bd, Ba` (R180) -/
  | fneg (rd ra : RegNum)
  /-- `FMUL Bd, Ba, Bb` (R181) -/
  | fmul (rd ra rb : RegNum)
  /-- `FSQR Bd, Ba` (R182) -/
  | fsqr (rd ra : RegNum)
  /-- `FINV Bd, Ba` (R183) -/
  | finv (rd ra : RegNum)
  /-- `FSQRT Bd, Ba` (R184) -/
  | fsqrt (rd ra : RegNum)
  /-- `FEXP Bd, Ba, Bb` (R185) -/
  | fexp (rd ra rb : RegNum)
  /-- `FTOM Bd, Ba` (R186) -/
  | ftom (rd ra : RegNum)
  /-- `FFRM Bd, Ba` (R187) -/
  | ffrm (rd ra : RegNum)
  /-- `FONE Bd` (R188) -/
  | fone (rd : RegNum)
  /-- `CRVSET Ba, Bb, Bc` (R214) -/
  | crvset (ra rb rc : RegNum)
  /-- `PADD Pd, Pa, Pb` (R215) -/
  | padd (rd ra rb : RegNum)
  /-- `PDBL Pd, Pa` (R216) -/
  | pdbl (rd ra : RegNum)
  /-- `PMUL Pd, Pa, Bk` (R217) -/
  | pmul (rd ra rb : RegNum)
  /-- `PONC Pa` (R218) -/
  | ponc (ra : RegNum)
  /-- `PSGC Pa` (R219) -/
  | psgc (ra : RegNum)
  /-- `PAFF Pd, Pa` (R220) -/
  | paff (rd ra : RegNum)
  /-- `PEQ Pa, Pb` (R221) -/
  | peq (ra rb : RegNum)
deriving DecidableEq, Repr

end Sys2Proof
end

