-- ==== Sys2Proof/WellFormed.lean ====
section
/-! DEFINITION. Which terms of `Instr` are commands: a flag selector names a flag (R118), the pair of `BMULW` and
every triple lie within the register file (R22, R121). Every other field admits all its values. -/

namespace Sys2Proof

/-- Why a word or a term is no command (R120 to R122). -/
inductive DecodeError where
  /-- An opcode that R119 does not list (R122). -/
  | unassignedOpcode
  /-- A must-be-zero field that is not 0 (R120). -/
  | reservedField
  /-- A flag selector 9 .. 15 (R118). -/
  | flagSelector
  /-- `BMULW` with `rd` = 15 (R121). -/
  | pairRegister
  /-- A triple field 14 or 15 (R121). -/
  | tripleRegister
deriving DecidableEq, Repr

/-- A selector 0 .. 8 names a flag (R118). -/
def selectorError (sel : FlagSel) : Option DecodeError :=
  if sel.val ≤ 8 then none else some .flagSelector

/-- The pair (`B[d]`, `B[d+1]`) needs d ≤ 14 (R22). -/
def pairError (r : RegNum) : Option DecodeError :=
  if r.val ≤ 14 then none else some .pairRegister

/-- Each triple (`B[i]`, `B[i+1]`, `B[i+2]`) needs i ≤ 13 (R22). -/
def tripleError (rs : List RegNum) : Option DecodeError :=
  if rs.all (fun r => r.val ≤ 13) then none else some .tripleRegister

/-- What is wrong with the fields of a term, if anything: the checks of R118 and R121. -/
def Instr.fieldError : Instr → Option DecodeError
  | .bfs sel _ | .bfc sel _ | .bcsel _ _ _ sel => selectorError sel
  | .bmulw rd _ _ => pairError rd
  | .padd rd ra rb => tripleError [rd, ra, rb]
  | .pdbl rd ra | .pmul rd ra _ | .paff rd ra => tripleError [rd, ra]
  | .ponc ra | .psgc ra => tripleError [ra]
  | .peq ra rb => tripleError [ra, rb]
  | .nop | .halt | .jmp _ | .dbnz _ _ | .ali _ _ | .aaddi _ _ _ | .ld _ _ _ | .st _ _ _ | .badd _ _ _ | .badc _ _ _
  | .bsub _ _ _ | .bsbb _ _ _ | .bcmp _ _ | .bshr1 _ _ | .btstz _ | .bmov _ _ | .bldi _ _ | .modset _ | .fadd _ _ _
  | .fsub _ _ _ | .fneg _ _ | .fmul _ _ _ | .fsqr _ _ | .finv _ _ | .fsqrt _ _ | .fexp _ _ _ | .ftom _ _ | .ffrm _ _
  | .fone _ | .crvset _ _ _ => none

/-- A well-formed command. -/
abbrev Instr.wf (i : Instr) : Prop := i.fieldError = none

end Sys2Proof
end

