-- ==== Sys2Proof/Decode.lean ====
section
/-! DEFINITION. The decoder (total: a command or a named refusal) and, after it, the encoder, both written from the
formats of `30_encoding.md` R111 to R115 and the opcode map R119. -/

namespace Sys2Proof

/-- Bits `lo+3 : lo` of a command word, a register number or selector (R111). -/
def regField (w : Word) (lo : Nat) : Fin 16 := Fin.ofNat 16 (w.toNat / 2 ^ lo)

/-- `imm16`, bits 15:0 (R112, R114). -/
def immField16 (w : Word) : Imm16 := BitVec.ofNat 16 w.toNat

/-- `imm20`, bits 19:0 (R113). -/
def immField20 (w : Word) : Imm20 := BitVec.ofNat 20 w.toNat

/-- `opcode`, bits 31:24 (R110). -/
def opcodeField (w : Word) : Nat := w.toNat / 2 ^ 24

/-- `fn`, bits 7:0 of format R (R111). -/
def fnField (w : Word) : Nat := w.toNat % 2 ^ 8

/-- The row of the opcode map (R119) that a word's opcode selects: the command its fields make, and whether every
must-be-zero field of the row is 0 (R120). -/
def opcodeRow (w : Word) : Option (Instr × Bool) :=
  let rd := regField w 20
  let ra := regField w 16
  let rb := regField w 12
  let rc := regField w 8
  let fn := fnField w
  let imm16 := immField16 w
  let imm20 := immField20 w
  -- the must-be-zero fields of R120 by the fields a row uses
  let zNone := w.toNat % 2 ^ 24 == 0
  let zBranch := ra == 0
  let zDAB := rc == 0 && fn == 0
  let zDA := rb == 0 && rc == 0 && fn == 0
  let zD := ra == 0 && rb == 0 && rc == 0 && fn == 0
  let zAB := rd == 0 && rc == 0 && fn == 0
  let zA := rd == 0 && rb == 0 && rc == 0 && fn == 0
  match opcodeField w with
  | 0x01 => some (.nop, zNone)
  | 0x02 => some (.halt, zNone)
  | 0x08 => some (.jmp imm16, rd == 0 && zBranch)
  | 0x09 => some (.bfs rd imm16, zBranch)
  | 0x0A => some (.bfc rd imm16, zBranch)
  | 0x0B => some (.dbnz rd imm16, zBranch)
  | 0x10 => some (.ali rd imm20, true)
  | 0x11 => some (.aaddi rd ra imm16, true)
  | 0x18 => some (.ld rd ra imm16, true)
  | 0x19 => some (.st rd ra imm16, true)
  | 0x20 => some (.badd rd ra rb, zDAB)
  | 0x21 => some (.badc rd ra rb, zDAB)
  | 0x22 => some (.bsub rd ra rb, zDAB)
  | 0x23 => some (.bsbb rd ra rb, zDAB)
  | 0x24 => some (.bcmp ra rb, zAB)
  | 0x25 => some (.bshr1 rd ra, zDA)
  | 0x26 => some (.bmulw rd ra rb, zDAB)
  | 0x27 => some (.btstz ra, zA)
  | 0x28 => some (.bmov rd ra, zDA)
  | 0x29 => some (.bldi rd imm20, true)
  | 0x2A => some (.bcsel rd ra rb (regField w 0), rc == 0 && fn / 2 ^ 4 == 0)
  | 0x40 => some (.modset ra, zA)
  | 0x41 => some (.fadd rd ra rb, zDAB)
  | 0x42 => some (.fsub rd ra rb, zDAB)
  | 0x43 => some (.fneg rd ra, zDA)
  | 0x44 => some (.fmul rd ra rb, zDAB)
  | 0x45 => some (.fsqr rd ra, zDA)
  | 0x46 => some (.finv rd ra, zDA)
  | 0x47 => some (.fsqrt rd ra, zDA)
  | 0x48 => some (.fexp rd ra rb, zDAB)
  | 0x49 => some (.ftom rd ra, zDA)
  | 0x4A => some (.ffrm rd ra, zDA)
  | 0x4B => some (.fone rd, zD)
  | 0x60 => some (.crvset ra rb rc, rd == 0 && fn == 0)
  | 0x61 => some (.padd rd ra rb, zDAB)
  | 0x62 => some (.pdbl rd ra, zDA)
  | 0x63 => some (.pmul rd ra rb, zDAB)
  | 0x64 => some (.ponc ra, zA)
  | 0x65 => some (.psgc ra, zA)
  | 0x66 => some (.paff rd ra, zDA)
  | 0x67 => some (.peq ra rb, zAB)
  | _ => none

/-- The decoder: every 32-bit word is exactly one command or is illegal (R123). -/
def decode (w : Word) : Except DecodeError Instr :=
  match opcodeRow w with
  | none => .error .unassignedOpcode
  | some (i, mustBeZero) =>
    if mustBeZero then
      match i.fieldError with
      | some e => .error e
      | none => .ok i
    else .error .reservedField

/-- R127: `word = opcode·2^24 + f23_20·2^20 + f19_16·2^16 + low16`. -/
def assemble (opcode : Nat) (f23_20 f19_16 : Fin 16) (low16 : Nat) : Word :=
  BitVec.ofNat 32 (opcode * 2 ^ 24 + f23_20.val * 2 ^ 20 + f19_16.val * 2 ^ 16 + low16)

/-- Format R (R111, R127): `low16 = rb·2^12 + rc·2^8 + fn`. -/
def assembleR (opcode : Nat) (rd ra rb rc fn : Fin 16) : Word :=
  assemble opcode rd ra (rb.val * 2 ^ 12 + rc.val * 2 ^ 8 + fn.val)

/-- Formats M and B (R112, R114, R127): `low16 = imm16`. -/
def assembleM (opcode : Nat) (f23_20 f19_16 : Fin 16) (imm : Imm16) : Word :=
  assemble opcode f23_20 f19_16 imm.toNat

/-- Format I (R113, R127): `word = opcode·2^24 + rd·2^20 + imm20`. -/
def assembleI (opcode : Nat) (rd : Fin 16) (imm : Imm20) : Word :=
  assemble opcode rd 0 imm.toNat

/-- The encoder: the one word of a command, every unused field 0 (R119, R120, R127). -/
def encode : Instr → Word
  | .nop => assembleR 0x01 0 0 0 0 0
  | .halt => assembleR 0x02 0 0 0 0 0
  | .jmp imm => assembleM 0x08 0 0 imm
  | .bfs sel imm => assembleM 0x09 sel 0 imm
  | .bfc sel imm => assembleM 0x0A sel 0 imm
  | .dbnz rs imm => assembleM 0x0B rs 0 imm
  | .ali rd imm => assembleI 0x10 rd imm
  | .aaddi rd ra imm => assembleM 0x11 rd ra imm
  | .ld rd ra imm => assembleM 0x18 rd ra imm
  | .st rd ra imm => assembleM 0x19 rd ra imm
  | .badd rd ra rb => assembleR 0x20 rd ra rb 0 0
  | .badc rd ra rb => assembleR 0x21 rd ra rb 0 0
  | .bsub rd ra rb => assembleR 0x22 rd ra rb 0 0
  | .bsbb rd ra rb => assembleR 0x23 rd ra rb 0 0
  | .bcmp ra rb => assembleR 0x24 0 ra rb 0 0
  | .bshr1 rd ra => assembleR 0x25 rd ra 0 0 0
  | .bmulw rd ra rb => assembleR 0x26 rd ra rb 0 0
  | .btstz ra => assembleR 0x27 0 ra 0 0 0
  | .bmov rd ra => assembleR 0x28 rd ra 0 0 0
  | .bldi rd imm => assembleI 0x29 rd imm
  | .bcsel rd ra rb sel => assembleR 0x2A rd ra rb 0 sel
  | .modset ra => assembleR 0x40 0 ra 0 0 0
  | .fadd rd ra rb => assembleR 0x41 rd ra rb 0 0
  | .fsub rd ra rb => assembleR 0x42 rd ra rb 0 0
  | .fneg rd ra => assembleR 0x43 rd ra 0 0 0
  | .fmul rd ra rb => assembleR 0x44 rd ra rb 0 0
  | .fsqr rd ra => assembleR 0x45 rd ra 0 0 0
  | .finv rd ra => assembleR 0x46 rd ra 0 0 0
  | .fsqrt rd ra => assembleR 0x47 rd ra 0 0 0
  | .fexp rd ra rb => assembleR 0x48 rd ra rb 0 0
  | .ftom rd ra => assembleR 0x49 rd ra 0 0 0
  | .ffrm rd ra => assembleR 0x4A rd ra 0 0 0
  | .fone rd => assembleR 0x4B rd 0 0 0 0
  | .crvset ra rb rc => assembleR 0x60 0 ra rb rc 0
  | .padd rd ra rb => assembleR 0x61 rd ra rb 0 0
  | .pdbl rd ra => assembleR 0x62 rd ra 0 0 0
  | .pmul rd ra rb => assembleR 0x63 rd ra rb 0 0
  | .ponc ra => assembleR 0x64 0 ra 0 0 0
  | .psgc ra => assembleR 0x65 0 ra 0 0 0
  | .paff rd ra => assembleR 0x66 rd ra 0 0 0
  | .peq ra rb => assembleR 0x67 0 ra rb 0 0

/-- What the decoder reads from an opcode-table row's word: bit 0 is the least significant bit, the bits above
`nbits` are 0. Command memory holds whole 32-bit words, so no byte order enters (R85). -/
def decodeTableWord (nbits w : Nat) : Option Instr :=
  match decode (BitVec.ofNat 32 (w % 2 ^ nbits)) with
  | .ok i => some i
  | .error _ => none

end Sys2Proof
end

