-- ==== Sys2Proof/Config.lean ====
section
/-! DEFINITION. What one instance of the core fixes (its open parameters, `00_scope.md` R7) and the values the
spec leaves open (the contents of the memories after a hard reset, `10_state.md` R52). -/

namespace Sys2Proof.Config

/-- The open parameters of one instance (R7): N, IMEMW and DMEMB. They are plain numbers, so that every
statement about all states is a statement about all instances; `Params.wf` says which of them are legal. -/
structure Params where
  /-- `N`, the limbs of a big integer. -/
  n : Nat
  /-- `IMEMW`, the words of command memory. -/
  imemw : Nat
  /-- `DMEMB`, the bytes of operand memory. -/
  dmemb : Nat
deriving DecidableEq, Repr

/-- The legal parameters: 1 ≤ N ≤ 16, 1 ≤ IMEMW ≤ 65536, DMEMB a multiple of 8 with 8·N ≤ DMEMB ≤ 2^20 (R7). -/
abbrev Params.wf (p : Params) : Prop :=
  1 ≤ p.n ∧ p.n ≤ 16 ∧ 1 ≤ p.imemw ∧ p.imemw ≤ 65536 ∧ p.dmemb % 8 = 0 ∧ 8 * p.n ≤ p.dmemb ∧ p.dmemb ≤ 2 ^ 20

/-- `XLEN` = 64·N, the width of a big register in bits (R7). -/
def Params.xlen (p : Params) : Nat := 64 * p.n

/-- 8·N, the bytes of a big integer in operand memory (R83). -/
def Params.bigBytes (p : Params) : Nat := 8 * p.n

/-- The reference instance of R7: N = 4, IMEMW = 1024, DMEMB = 65536. -/
def reference : Params := { n := 4, imemw := 1024, dmemb := 65536 }

/-- `ID` = 0x4B535631, ASCII "KSV1" (R2, R41). -/
def idWord : Word := 0x4B535631#32

/-- FREE VALUE (log entry 2). The byte that operand memory holds at an address after the given hard reset and
before the first write: R52 leaves it unspecified, so nothing can be proved of it. -/
opaque dmemInit : Nat → Nat → Byte

/-- FREE VALUE (log entry 2). The word that command memory holds at an index after the given hard reset and
before the host writes it (R52). -/
opaque imemInit : Nat → Nat → Word

end Sys2Proof.Config
end

