-- ==== Sys2Proof/Machine/State.lean ====
section
/-! DEFINITION. The state of the core as plain data (`10_state.md` R20 to R43), the reasons a step can stop, and the
state right after a hard reset (R52). -/

namespace Sys2Proof.Machine

open Sys2Proof.Config

/-- The nine flags of `FLAGS`, in the order of their bits (R29). -/
inductive Flag where
  | cy | z | lt | eq | ninv | nsqr | rng | inf | ivp
deriving DecidableEq, Repr

/-- `STATE` (R37). -/
inductive RunState where
  | idle | running | done | faulted
deriving DecidableEq, Repr

/-- The fault codes 0 .. 10 (R281); the codes 11 .. 15 are reserved and never written. -/
inductive Cause where
  /-- code 0: no fault has occurred since reset -/
  | noFault
  /-- code 1 -/
  | illegalCommand
  /-- code 2 -/
  | ifetchRange
  /-- code 3 -/
  | memMisaligned
  /-- code 4 -/
  | memRange
  /-- code 5 -/
  | noModulus
  /-- code 6 -/
  | modulusLocked
  /-- code 7 -/
  | badModulus
  /-- code 8 -/
  | operandRange
  /-- code 9 -/
  | noCurve
  /-- code 10 -/
  | sqrtModulus
deriving DecidableEq, Repr

/-- One host access: its width in bytes, its byte offset from `HOST_BASE`, and the datum of a write (R44, R45). -/
inductive HostAccess where
  | read (width off : Nat)
  | write (width off : Nat) (data : Word)
deriving DecidableEq, Repr

/-- What the host bus returns: the bus error of a refused access, and the data word of a read (R45). -/
structure HostResponse where
  busError : Bool
  data : Word
deriving DecidableEq, Repr

/-- Whose turn the next step is (R20). The outside of the core is an input: the list of turns in `State` says in which
order the host's accesses and the reset input meet the commands of the sequencer. -/
inductive Turn where
  /-- the sequencer may take one step -/
  | sequencer
  /-- the host makes one access of the host window -/
  | host (a : HostAccess)
  /-- the reset input is asserted (R330) -/
  | assertReset
  /-- the reset input is released (R330) -/
  | releaseReset
deriving DecidableEq, Repr

/-- The whole state. The fields up to `dmem` are the complete state of R20; the fields after it are the model's own and
`INVENTORY.md` lists them so. -/
structure State where
  /-- The instance's parameters N, IMEMW, DMEMB (R7): no step changes them (log entry 1). -/
  params : Params
  /-- `B[0..15]`, each an integer; the register is its value modulo 2^XLEN (R21, log entry 3). -/
  b : Vector Nat 16
  /-- `A[0..15]` (R25). -/
  a : Vector Word 16
  /-- `pc` (R26). -/
  pc : CmdIndex
  /-- `FLAGS` (R29). -/
  flags : BitVec 9
  /-- `ERRS` (R31). -/
  errs : BitVec 5
  /-- `MODV` (R32). -/
  modv : Bool
  /-- `MOD` (R32). -/
  mod : Nat
  /-- `INV` (R33). -/
  inv : Limb
  /-- `RONE` (R34). -/
  rone : Nat
  /-- `RSQ` (R35). -/
  rsq : Nat
  /-- `CRVV` (R36). -/
  crvv : Bool
  /-- `CURVEA` (R36). -/
  curveA : Nat
  /-- `CURVEB` (R36). -/
  curveB : Nat
  /-- `ORDER` (R36). -/
  order : Nat
  /-- `STATE` (R37). -/
  run : RunState
  /-- `CAUSE` (R38, R281). -/
  cause : Cause
  /-- `EPC` (R38). -/
  epc : CmdIndex
  /-- `EINFO` (R38). -/
  einfo : Word
  /-- `IEN`: bit 0 `DONE_IE`, bit 1 `FAULT_IE` (R39). -/
  ien : BitVec 2
  /-- `IP`: bit 0 `DONE_IP`, bit 1 `FAULT_IP` (R39). -/
  ip : BitVec 2
  /-- `MULCNT` (R40). -/
  mulcnt : Limb
  /-- `INSTRET` (R40). -/
  instret : Limb
  /-- `IMEM`: the words written since the last hard reset, by index (R81). -/
  imem : List (Nat × Word)
  /-- `DMEM`: the bytes written since the last hard reset, by address (R80). -/
  dmem : List Host.Cell
  /-- MODEL'S OWN: how many hard resets there have been; selects the free values that unwritten memory holds
  (log entry 2). -/
  epoch : Nat
  /-- MODEL'S OWN: the level of the reset input, true while it is asserted (R330). -/
  resetInput : Bool
  /-- MODEL'S OWN: the turns to come; when it is empty every step is the sequencer's (R20, log entry 4). -/
  turns : List Turn
  /-- MODEL'S OWN: what the host bus returned for the last host access (R45). -/
  response : Option HostResponse
deriving DecidableEq, Repr

/-- Reasons for a step to end in the outcome `fault`. There is none: every fault of the core is a state of the core,
entered as R290 says (`State.raise`), so every step has a next state. -/
inductive Fault where
deriving DecidableEq, Repr

/-- Reasons for a step to end in the outcome `refused`. -/
inductive Refusal where
  /-- Raised only by an arm of `exec` whose command has no meaning yet; there is no such arm. It is safe: nothing is
  claimed of such a command. -/
  | notModelled (mnemonic : String)
deriving DecidableEq, Repr

/-- What a command or a step answers. -/
abbrev Result := Host.Outcome State Fault Refusal

/-- An instance right after a hard reset, with the reset input released and nothing waiting: every register, flag,
context value, fault-record field, interrupt register and counter is 0 and `STATE` is IDLE (R52, R330). No memory
word is listed: each holds its free value of this hard reset. -/
def State.hardResetState (p : Params) (epoch : Nat) : State where
  params := p
  b := Vector.replicate 16 0
  a := Vector.replicate 16 0
  pc := 0
  flags := 0
  errs := 0
  modv := false
  mod := 0
  inv := 0
  rone := 0
  rsq := 0
  crvv := false
  curveA := 0
  curveB := 0
  order := 0
  run := .idle
  cause := .noFault
  epc := 0
  einfo := 0
  ien := 0
  ip := 0
  mulcnt := 0
  instret := 0
  imem := []
  dmem := []
  epoch := epoch
  resetInput := false
  turns := []
  response := none

/-- The machine right after its first hard reset, as the reference instance of R7 (log entry 1). -/
def State.reset : State := State.hardResetState reference 0

end Sys2Proof.Machine
end

