-- ==== Sys2Proof/Machine/Memory.lean ====
section
/-! DEFINITION. A memory as a list of (address, content) pairs in one canonical form, and little-endian access to
several bytes (`20_memory.md` R80 to R84, R87). `IMEM` is such a list of 32-bit words, `DMEM` of bytes. -/

namespace Sys2Proof.Machine

/-- A memory: the contents written since the last hard reset. An address that is not listed holds no written content;
what it reads as is the free value that `State.readByte` and `State.fetchWord` supply. -/
abbrev Memory (w : Nat) := List (Nat × BitVec w)

/-- The canonical form: addresses strictly rising. An unlisted address has no written content, so no entry can repeat
it, and equal written contents are equal lists. -/
abbrev Memory.wf {w : Nat} (m : Memory w) : Prop := m.Pairwise (fun x y => x.1 < y.1)

/-- Every listed address lies below `size`. -/
abbrev Memory.below {w : Nat} (m : Memory w) (size : Nat) : Prop := ∀ x ∈ m, x.1 < size

/-- The content last written at an address since the last hard reset, if there is one (R80, R81). -/
def Memory.lookup {w : Nat} : Memory w → Nat → Option (BitVec w)
  | [], _ => none
  | (k, v) :: rest, a => if k = a then some v else Memory.lookup rest a

/-- Write one content, keeping the canonical form. -/
def Memory.store {w : Nat} : Memory w → Nat → BitVec w → Memory w
  | [], a, v => [(a, v)]
  | (k, x) :: rest, a, v =>
    if a < k then (a, v) :: (k, x) :: rest
    else if a = k then (a, v) :: rest
    else (k, x) :: Memory.store rest a v

/-- `MemRead(addr, n)` over a reading of single bytes: Σ byte(addr + k) · 2^(8k) for k < n (R82). -/
def readLE (byte : Nat → Byte) : Nat → Nat → Nat
  | _, 0 => 0
  | addr, n + 1 => (byte addr).toNat + 2 ^ 8 * readLE byte (addr + 1) n

/-- `MemWrite(addr, n, v)`: byte k of the little-endian image of v goes to addr + k, for k < n (R82). -/
def storeLE (m : Memory 8) : Nat → Nat → Nat → Memory 8
  | _, 0, _ => m
  | addr, n + 1, v => storeLE (m.store addr (BitVec.ofNat 8 v)) (addr + 1) n (v / 2 ^ 8)

end Sys2Proof.Machine
end

