-- ==== Sys2Proof/Machine/Ops.lean ====
section
/-! DEFINITION. The named operations over registers and memories, the end of a command, fault entry and the only way
out of a fault, reset (R11, R21, R27, R40, R82, R290, R293, R330, R331). -/

namespace Sys2Proof.Machine

open Sys2Proof.Config

/-- 2^XLEN, the Montgomery radix R and the bound of a big register (R7). -/
def State.radix (s : State) : Nat := 2 ^ s.params.xlen

/-- `B[i]` (R11): an integer in [0, 2^XLEN). -/
def State.getB (s : State) (i : RegNum) : Nat := s.b[i.val] % s.radix

/-- `B[i] <- v` (R11). A big register holds XLEN bits (R21). -/
def State.setB (s : State) (i : RegNum) (v : Nat) : State := { s with b := s.b.set i.val (v % s.radix) }

/-- `A[i]` (R11, R25). -/
def State.getA (s : State) (i : RegNum) : Word := s.a[i.val]

/-- `A[i] <- v` (R11, R25). -/
def State.setA (s : State) (i : RegNum) (v : Word) : State := { s with a := s.a.set i.val v }

/-- One byte of `DMEM`: the last byte written there, or the free value it has held since the hard reset (R80, R52). -/
def State.readByte (s : State) (addr : Nat) : Byte := (Memory.lookup s.dmem addr).getD (dmemInit s.epoch addr)

/-- One word of `IMEM`: the last word written there, or the free value it has held since the hard reset (R81, R52). -/
def State.fetchWord (s : State) (k : Nat) : Word := (Memory.lookup s.imem k).getD (imemInit s.epoch k)

/-- `MemRead(addr, n)` (R82). -/
def State.memRead (s : State) (addr n : Nat) : Nat := readLE s.readByte addr n

/-- `MemWrite(addr, n, v)` (R82). -/
def State.memWrite (s : State) (addr n v : Nat) : State := { s with dmem := storeLE s.dmem addr n v }

/-- Store one word of command memory; only the host does so (R48, R95). -/
def State.storeCommand (s : State) (k : Nat) (w : Word) : State := { s with imem := Memory.store s.imem k w }

/-- `MULCNT` grows by the `MontMul` calls of a completed command, modulo 2^64 (R40). -/
def State.addMul (s : State) (k : Nat) : State := { s with mulcnt := s.mulcnt + BitVec.ofNat 64 k }

/-- The end of a completed command: `INSTRET` grows by 1 and `pc` takes its next index (R27, R40, R248). -/
def State.completeAt (s : State) (next : CmdIndex) : State := { s with pc := next, instret := s.instret + 1 }

/-- The end of a command that is not a taken branch: `pc <- (pc + 1) mod 2^16` (R27). -/
def State.complete (s : State) : State := s.completeAt (s.pc + 1)

/-- A fault that a check has found: its code and the word for `EINFO` (R281). -/
structure Trap where
  cause : Cause
  info : Word
deriving DecidableEq, Repr

/-- Fault entry, the whole of it (R290): the record is written, `FAULT_IP` is set and the sequencer stops; nothing else
changes and `pc` keeps the index of the faulting command. -/
def State.raise (s : State) (t : Trap) : State :=
  { s with cause := t.cause, epc := s.pc, einfo := t.info, ip := s.ip ||| 0b10#2, run := .faulted }

/-- Soft reset (R331): every register, flag, context value, fault-record field, interrupt register and counter as after a
hard reset, both memories unchanged. It is the return from FAULTED: R293 knows no other. -/
def State.softReset (s : State) : State :=
  { State.hardResetState s.params s.epoch with
    imem := s.imem, dmem := s.dmem, resetInput := s.resetInput, turns := s.turns, response := s.response }

/-- The reset input is asserted (R330): every register takes its hard-reset value at once, and the memories hold
contents that nothing is known of (a new epoch of free values). -/
def State.assertReset (s : State) : State :=
  { State.hardResetState s.params (s.epoch + 1) with resetInput := true, turns := s.turns, response := s.response }

/-- The reset input is released (R330): what it held is what the registers hold. -/
def State.releaseReset (s : State) : State := { s with resetInput := false }

/-- The output line `irq` (R39, R286). -/
def State.irq (s : State) : Bool :=
  (s.ip.getLsbD 0 && s.ien.getLsbD 0) || (s.ip.getLsbD 1 && s.ien.getLsbD 1)

/-- The first fault of a list of checks in their fixed order (R288). -/
def firstTrap : List (Option Trap) → Option Trap
  | [] => none
  | some t :: _ => some t
  | none :: rest => firstTrap rest

/-- A command whose checks `t` come first: the fault they found is taken with no other effect, or the command completes in
the state `done` (R170, R288, R290). -/
def guarded (t : Option Trap) (s done : State) : Result :=
  match t with
  | some t => .next (s.raise t)
  | none => .next done

end Sys2Proof.Machine
end

