-- ==== Sys2Proof/Machine/Flags.lean ====
section
/-! DEFINITION. Reading and writing flags, with the sticky copies of `ERRS` (`10_state.md` R29 to R31). -/

namespace Sys2Proof.Machine

/-- The bit of `FLAGS` that holds a flag; the flag's selector has the same value (R29, R118). -/
def Flag.bit : Flag → Fin 9
  | .cy => 0 | .z => 1 | .lt => 2 | .eq => 3 | .ninv => 4 | .nsqr => 5 | .rng => 6 | .inf => 7 | .ivp => 8

/-- The sticky bit of `ERRS` that a flag's write of 1 also sets; only the four recoverable conditions have one (R31). -/
def Flag.sticky : Flag → BitVec 5
  | .ninv => 0b00001#5
  | .nsqr => 0b00010#5
  | .rng => 0b00100#5
  | .ivp => 0b01000#5
  | .cy | .z | .lt | .eq | .inf => 0#5

/-- `ERRS.HOSTERR`, bit 4 (R31). -/
def hostErrBit : BitVec 5 := 0b10000#5

/-- `F.x` (R11). -/
def State.flag (s : State) (f : Flag) : Bool := s.flags.getLsbD f.bit.val

/-- `FLAGS[sel]` for a selector 0 .. 8 (R118). -/
def State.flagAt (s : State) (sel : FlagSel) : Bool := s.flags.getLsbD sel.val

/-- `F.x <- b` (R11, R30): that one flag; the write of a 1 to NINV, NSQR, RNG or IVP also sets its sticky bit (R31). -/
def State.setFlag (s : State) (f : Flag) (v : Bool) : State :=
  { s with
    flags := (s.flags &&& ~~~(1#9 <<< f.bit.val)) ||| ((BitVec.ofBool v).setWidth 9 <<< f.bit.val)
    errs := if v then s.errs ||| f.sticky else s.errs }

/-- The flags of a big-integer addition, subtraction or shift: `CY` the bit lost, `Z` whether the XLEN bits delivered are
all 0 (R141 to R144, R146). -/
def State.setCarryZero (s : State) (carry : Bool) (delivered : Nat) : State :=
  (s.setFlag .cy carry).setFlag .z (delivered == 0)

end Sys2Proof.Machine
end

