-- ==== Sys2Proof/Machine/Operands.lean ====
section
/-! DEFINITION. Operand forms: immediates, the effective address, register groups, and the checks a command makes
before it has any effect (`30_encoding.md` R116 to R121, `41_field.md` R170, R172, `42_curve.md` R209, `43` R258). -/

namespace Sys2Proof.Machine

/-- `sext_32` of a 16-bit immediate (R11). -/
def sext32 (imm : Imm16) : Word := imm.signExtend 32

/-- `sext_16`: the identity on 16 bits (R11). -/
def sext16 (imm : Imm16) : CmdIndex := imm

/-- The target of a taken branch, relative to the branch's own index (R27, R116). -/
def State.branchTarget (s : State) (imm : Imm16) : CmdIndex := s.pc + sext16 imm

/-- The effective address `ea = (A[ra] + sext_32(imm16)) mod 2^32` (R258). -/
def State.effectiveAddress (s : State) (ra : RegNum) (imm : Imm16) : Word := s.getA ra + sext32 imm

/-- The three registers of the triple `P[i]`, in ascending register number (R22, R209). -/
def tripleRegs (i : RegNum) : List RegNum := [i, i + 1, i + 2]

/-- ILLEGAL_COMMAND for a flag selector, a pair or a triple that R118 or R121 refuses; `EINFO` is the command word. The
decoder refuses such a word before it reaches a meaning; the check stands here as in the command's own rule. -/
def illegalFields (i : Instr) : Option Trap :=
  match i.fieldError with
  | none => none
  | some _ => some { cause := .illegalCommand, info := encode i }

/-- NO_MODULUS while `MODV` = 0 (R170, R209). -/
def State.noModulus (s : State) : Option Trap :=
  if s.modv then none else some { cause := .noModulus, info := 0 }

/-- NO_CURVE while `CRVV` = 0 (R209). -/
def State.noCurve (s : State) : Option Trap :=
  if s.crvv then none else some { cause := .noCurve, info := 0 }

/-- OPERAND_RANGE for the first of the listed registers that holds a value ≥ `MOD`; `EINFO` is its number (R172). -/
def State.operandRange (s : State) (regs : List RegNum) : Option Trap :=
  match regs.find? (fun r => s.mod ≤ s.getB r) with
  | none => none
  | some r => some { cause := .operandRange, info := BitVec.ofNat 32 r.val }

/-- MEM_MISALIGNED, then MEM_RANGE, for an access of 8·N bytes at `ea` (R86, R89, R258). -/
def State.memoryAccess (s : State) (ea : Word) : Option Trap :=
  if ea.toNat % 8 ≠ 0 then some { cause := .memMisaligned, info := ea }
  else if s.params.dmemb < ea.toNat + s.params.bigBytes then some { cause := .memRange, info := ea }
  else none

/-- The checks of a field command with the given stored source registers, in their order (R170). -/
def State.fieldChecks (s : State) (stored : List RegNum) : Option Trap :=
  firstTrap [s.noModulus, s.operandRange stored]

/-- The checks of a curve command with the given stored source registers, in their order (R209). -/
def State.curveChecks (s : State) (i : Instr) (stored : List RegNum) : Option Trap :=
  firstTrap [illegalFields i, s.noModulus, s.noCurve, s.operandRange stored]

end Sys2Proof.Machine
end

