-- ==== Sys2Proof/Machine/BigInt.lean ====
section
/-! DEFINITION. The big-integer commands (`40_bigint.md` R140 to R151). None needs a modulus and none adds to `MULCNT`. -/

namespace Sys2Proof.Machine

/-- Addition with a carry in: the sum modulo 2^XLEN, the lost bit in `CY` (R140 to R142). -/
def State.addBig (s : State) (rd ra rb : RegNum) (carryIn : Bool) : State :=
  let t := s.getB ra + s.getB rb + carryIn.toNat
  (s.setB rd (t % s.radix)).setCarryZero (s.radix ≤ t) (t % s.radix)

/-- Subtraction with a borrow in: the difference modulo 2^XLEN, `CY` = 1 exactly when the true difference is negative
(R140, R143, R144). -/
def State.subBig (s : State) (rd ra rb : RegNum) (borrowIn : Bool) : State :=
  let t : Int := (s.getB ra : Int) - s.getB rb - borrowIn.toNat
  let v := (t % (s.radix : Int)).toNat
  (s.setB rd v).setCarryZero (t < 0) v

/-- R141. -/
def execBadd (rd ra rb : RegNum) (s : State) : Result := .next (s.addBig rd ra rb false).complete

/-- R142. -/
def execBadc (rd ra rb : RegNum) (s : State) : Result := .next (s.addBig rd ra rb (s.flag .cy)).complete

/-- R143. -/
def execBsub (rd ra rb : RegNum) (s : State) : Result := .next (s.subBig rd ra rb false).complete

/-- R144. -/
def execBsbb (rd ra rb : RegNum) (s : State) : Result := .next (s.subBig rd ra rb (s.flag .cy)).complete

/-- R145. -/
def execBcmp (ra rb : RegNum) (s : State) : Result :=
  .next ((s.setFlag .lt (s.getB ra < s.getB rb)).setFlag .eq (s.getB ra == s.getB rb)).complete

/-- R146. -/
def execBshr1 (rd ra : RegNum) (s : State) : Result :=
  let v := s.getB ra
  .next ((s.setB rd (v / 2)).setCarryZero (v % 2 == 1) (v / 2)).complete

/-- R147: low half to `B[rd]`, high half to `B[rd+1]`. -/
def execBmulw (rd ra rb : RegNum) (s : State) : Result :=
  let t := s.getB ra * s.getB rb
  guarded (illegalFields (.bmulw rd ra rb)) s ((s.setB rd (t % s.radix)).setB (rd + 1) (t / s.radix)).complete

/-- R148. -/
def execBtstz (ra : RegNum) (s : State) : Result := .next (s.setFlag .z (s.getB ra == 0)).complete

/-- R149. -/
def execBmov (rd ra : RegNum) (s : State) : Result := .next (s.setB rd (s.getB ra)).complete

/-- R150. -/
def execBldi (rd : RegNum) (imm : Imm20) (s : State) : Result := .next (s.setB rd imm.toNat).complete

/-- R151: a select, not a branch. -/
def execBcsel (rd ra rb : RegNum) (sel : FlagSel) (s : State) : Result :=
  guarded (illegalFields (.bcsel rd ra rb sel)) s
    (s.setB rd (if s.flagAt sel then s.getB ra else s.getB rb)).complete

end Sys2Proof.Machine
end

