-- ==== Sys2Proof/Machine/Control.lean ====
section
/-! DEFINITION. The control, address, load and store commands (`43_control_memory_system.md`). -/

namespace Sys2Proof.Machine

/-- A branch: to its target when taken, else to the next index (R27). -/
def State.branchIf (s : State) (taken : Bool) (imm : Imm16) : State :=
  s.completeAt (if taken then s.branchTarget imm else s.pc + 1)

/-- R250. -/
def execNop (s : State) : Result := .next s.complete

/-- R251: the run ends, `DONE_IP` is pending, `pc` moves on. -/
def execHalt (s : State) : Result := .next { s with run := .done, ip := s.ip ||| 0b01#2 }.complete

/-- R252. -/
def execJmp (imm : Imm16) (s : State) : Result := .next (s.branchIf true imm)

/-- R253. -/
def execBfs (sel : FlagSel) (imm : Imm16) (s : State) : Result :=
  guarded (illegalFields (.bfs sel imm)) s (s.branchIf (s.flagAt sel) imm)

/-- R254. -/
def execBfc (sel : FlagSel) (imm : Imm16) (s : State) : Result :=
  guarded (illegalFields (.bfc sel imm)) s (s.branchIf (!s.flagAt sel) imm)

/-- R255: the decrement is modulo 2^32, so a count of 0 wraps and branches. -/
def execDbnz (rs : RegNum) (imm : Imm16) (s : State) : Result :=
  let v := s.getA rs - 1
  .next ((s.setA rs v).branchIf (v != 0) imm)

/-- R256. -/
def execAli (rd : RegNum) (imm : Imm20) (s : State) : Result := .next (s.setA rd (imm.setWidth 32)).complete

/-- R257. -/
def execAaddi (rd ra : RegNum) (imm : Imm16) (s : State) : Result := .next (s.setA rd (s.effectiveAddress ra imm)).complete

/-- R259. -/
def execLd (rd ra : RegNum) (imm : Imm16) (s : State) : Result :=
  let ea := s.effectiveAddress ra imm
  guarded (s.memoryAccess ea) s (s.setB rd (s.memRead ea.toNat s.params.bigBytes)).complete

/-- R260. -/
def execSt (rd ra : RegNum) (imm : Imm16) (s : State) : Result :=
  let ea := s.effectiveAddress ra imm
  guarded (s.memoryAccess ea) s (s.memWrite ea.toNat s.params.bigBytes (s.getB rd)).complete

end Sys2Proof.Machine
end

