-- ==== Sys2Proof/Machine/Montgomery.lean ====
section
/-! DEFINITION. The Montgomery multiplier, the exponentiation engine and the field adder (`41_field.md` R171, R173 to
R176). A datapath answers its value and the number of `MontMul` calls it made, which `MULCNT` counts (R40). -/

namespace Sys2Proof.Machine

/-- A value computed by a datapath and the `MontMul` calls its pseudocode made (R11, R40). -/
structure Counted (α : Type) where
  val : α
  calls : Nat
deriving DecidableEq, Repr

/-- A value made without the multiplier. -/
def Counted.ret {α : Type} (x : α) : Counted α := { val := x, calls := 0 }

/-- One line of pseudocode after another: the calls add up. -/
def Counted.bind {α β : Type} (m : Counted α) (f : α → Counted β) : Counted β :=
  { val := (f m.val).val, calls := m.calls + (f m.val).calls }

/-- A value changed without the multiplier. -/
def Counted.map {α β : Type} (f : α → β) (m : Counted α) : Counted β := { val := f m.val, calls := m.calls }

/-- What the datapaths read of the field and curve context (R32 to R36). -/
structure Ctx where
  /-- N -/
  n : Nat
  /-- `p` = `MOD` -/
  p : Nat
  /-- `INV` -/
  inv : Nat
  /-- `RONE` -/
  rone : Nat
  /-- `CURVEA` -/
  a : Nat
  /-- `CURVEB` -/
  b : Nat
deriving DecidableEq, Repr

/-- The latched context (R32 to R36). -/
def State.ctx (s : State) : Ctx :=
  { n := s.params.n, p := s.mod, inv := s.inv.toNat, rone := s.rone, a := s.curveA, b := s.curveB }

/-- One step of Newton's iteration for an inverse modulo 2^64: x ← x·(2 − v·x). -/
def invStep (v x : Nat) : Nat := x * (2 + (2 ^ 64 - v * x % 2 ^ 64)) % 2 ^ 64

/-- `INV` for an odd v: the integer in [0, 2^64) with (v · INV) mod 2^64 = 2^64 − 1 (R33, R171). An odd v is its own
inverse modulo 8, and each step doubles the correct low bits. -/
def negInverse (v : Nat) : Nat :=
  let x := invStep v (invStep v (invStep v (invStep v (invStep v (v % 2 ^ 64)))))
  (2 ^ 64 - x) % 2 ^ 64

/-- `fadd` (R173). -/
def fadd (c : Ctx) (x y : Nat) : Nat := if c.p ≤ x + y then x + y - c.p else x + y

/-- `fsub` (R173). -/
def fsub (c : Ctx) (x y : Nat) : Nat := if y ≤ x then x - y else x + c.p - y

/-- `fneg` (R173). -/
def fneg (c : Ctx) (x : Nat) : Nat := if x = 0 then 0 else c.p - x

/-- The reduction loop of R174 for `k` more limbs, from limb `i`: add the multiple of p that makes limb i zero. -/
def reduceLimbs (c : Ctx) : Nat → Nat → Nat → Nat
  | 0, _, t => t
  | k + 1, i, t =>
    let m := (t / 2 ^ (64 * i) % 2 ^ 64) * c.inv % 2 ^ 64
    reduceLimbs c k (i + 1) (t + m * c.p * 2 ^ (64 * i))

/-- `MontMul(a, b)` as a value (R174): product, reduction over the N limbs, shift, one conditional subtraction. -/
def montMul (c : Ctx) (x y : Nat) : Nat :=
  let t := reduceLimbs c c.n 0 (x * y) / 2 ^ (64 * c.n)
  if c.p ≤ t then t - c.p else t

/-- `MontMul(a, b)` as a call of the multiplier, which `MULCNT` counts (R40, R174). -/
def mont (c : Ctx) (x y : Nat) : Counted Nat := { val := montMul c x y, calls := 1 }

/-- The loop of `ExpCore` for the exponent bits i−1 .. 0 (R175): both products at every bit, the second kept by a
select. -/
def expLoop (c : Ctx) (x e : Nat) : Nat → Nat → Counted Nat
  | 0, acc => .ret acc
  | i + 1, acc =>
    (mont c acc acc).bind fun sq =>
    (mont c sq x).bind fun t =>
    expLoop c x e i (if e.testBit i then t else sq)

/-- `ExpCore(a, e)` over all XLEN bits of the exponent, most significant first (R175). -/
def expCore (c : Ctx) (x e : Nat) : Counted Nat := expLoop c x e (64 * c.n) c.rone

end Sys2Proof.Machine
end

