-- ==== Sys2Proof/Machine/Point.lean ====
section
/-! DEFINITION. The point datapaths over Jacobian triples (`42_curve.md` R208, R210 to R213, R218, R220, R221). -/

namespace Sys2Proof.Machine

/-- A triple (X, Y, Z) of stored field values (R208). -/
structure Point where
  x : Nat
  y : Nat
  z : Nat
deriving DecidableEq, Repr

/-- `P[i]` (R11, R22). -/
def State.getP (s : State) (i : RegNum) : Point := { x := s.getB i, y := s.getB (i + 1), z := s.getB (i + 2) }

/-- `P[i] <- (X, Y, Z)` (R11). -/
def State.setP (s : State) (i : RegNum) (p : Point) : State := ((s.setB i p.x).setB (i + 1) p.y).setB (i + 2) p.z

/-- The canonical point at infinity (`RONE`, `RONE`, 0) (R210). -/
def infinity (c : Ctx) : Point := { x := c.rone, y := c.rone, z := 0 }

/-- `Canon` (R210). -/
def canon (c : Ctx) (p : Point) : Point := if p.z = 0 then infinity c else p

/-- `DblCore` (R211): ten calls of the multiplier. -/
def dblCore (c : Ctx) (p : Point) : Counted Point :=
  (mont c p.x p.x).bind fun xx =>
  (mont c p.y p.y).bind fun yy =>
  (mont c p.z p.z).bind fun zz =>
  (mont c p.x yy).bind fun t1 =>
  let s := fadd c (fadd c t1 t1) (fadd c t1 t1)
  (mont c zz zz).bind fun z4 =>
  (mont c c.a z4).bind fun az4 =>
  let m := fadd c (fadd c (fadd c xx xx) xx) az4
  (mont c m m).bind fun mm =>
  let x3 := fsub c mm (fadd c s s)
  (mont c yy yy).bind fun y4 =>
  let e2 := fadd c y4 y4
  let e4 := fadd c e2 e2
  let e8 := fadd c e4 e4
  (mont c m (fsub c s x3)).bind fun t2 =>
  let y3 := fsub c t2 e8
  (mont c p.y p.z).bind fun t3 =>
  .ret { x := x3, y := y3, z := fadd c t3 t3 }

/-- `AddCore` (R212): sixteen calls of its own and the ten of `DblCore`, always; the result is a five-way select on
values already computed, then `Canon`. -/
def addCore (c : Ctx) (p q : Point) : Counted Point :=
  (mont c p.z p.z).bind fun z1z1 =>
  (mont c q.z q.z).bind fun z2z2 =>
  (mont c p.x z2z2).bind fun u1 =>
  (mont c q.x z1z1).bind fun u2 =>
  (mont c q.z z2z2).bind fun t1 =>
  (mont c p.y t1).bind fun s1 =>
  (mont c p.z z1z1).bind fun t2 =>
  (mont c q.y t2).bind fun s2 =>
  let h := fsub c u2 u1
  let r := fsub c s2 s1
  (mont c h h).bind fun hh =>
  (mont c h hh).bind fun hhh =>
  (mont c u1 hh).bind fun v =>
  (mont c r r).bind fun rr =>
  let x3 := fsub c (fsub c rr hhh) (fadd c v v)
  (mont c r (fsub c v x3)).bind fun t3 =>
  (mont c s1 hhh).bind fun t4 =>
  let y3 := fsub c t3 t4
  (mont c p.z q.z).bind fun t5 =>
  (mont c t5 h).bind fun z3 =>
  (dblCore c p).bind fun d =>
  .ret (canon c
    (if p.z = 0 then q
     else if q.z = 0 then p
     else if h = 0 ∧ r = 0 then d
     else if h = 0 then infinity c
     else { x := x3, y := y3, z := z3 }))

/-- The entries T[j] of the table of R213 that follow the entry `prev`, `k` of them: each is its predecessor plus P. -/
def tableFrom (c : Ctx) (p : Point) : Nat → Point → Counted (List Point)
  | 0, _ => .ret []
  | k + 1, prev => (addCore c prev p).bind fun t => (tableFrom c p k t).map (t :: ·)

/-- The sixteen entries T[0] .. T[15], T[j] = j·P (R213). -/
def pointTable (c : Ctx) (p : Point) : Counted (List Point) :=
  (tableFrom c p 14 p).map fun rest => infinity c :: p :: rest

/-- The doubling step of R213. -/
def dblCanon (c : Ctx) (p : Point) : Counted Point := (dblCore c p).map (canon c)

/-- The loop of `MulCore` for the windows w−1 .. 0 (R213): four doublings, then the addition of the table's entry for the
window's digit. -/
def mulLoop (c : Ctx) (table : List Point) (k : Nat) : Nat → Point → Counted Point
  | 0, acc => .ret acc
  | w + 1, acc =>
    (dblCanon c acc).bind fun a1 =>
    (dblCanon c a1).bind fun a2 =>
    (dblCanon c a2).bind fun a3 =>
    (dblCanon c a3).bind fun a4 =>
    (addCore c a4 (table.getD (k / 2 ^ (4 * w) % 16) (infinity c))).bind fun sum =>
    mulLoop c table k w sum

/-- `MulCore(P, k)` over all 16·N windows of the scalar (R213). -/
def mulCore (c : Ctx) (p : Point) (k : Nat) : Counted Point :=
  (pointTable c p).bind fun table => mulLoop c table k (16 * c.n) (infinity c)

/-- The curve test of R218: Z = 0, or Y² = X³ + a·X·Z⁴ + b·Z⁶. -/
def onCurve (c : Ctx) (p : Point) : Counted Bool :=
  (mont c p.y p.y).bind fun yy =>
  (mont c p.x p.x).bind fun xx =>
  (mont c xx p.x).bind fun x3 =>
  (mont c p.z p.z).bind fun zz =>
  (mont c zz zz).bind fun z4 =>
  (mont c z4 zz).bind fun z6 =>
  (mont c c.a p.x).bind fun ax =>
  (mont c ax z4).bind fun axz =>
  (mont c c.b z6).bind fun bz6 =>
  let rhs := fadd c (fadd c x3 axz) bz6
  .ret (p.z == 0 || yy == rhs)

/-- The affine conversion of R220, the exponentiation always run. -/
def affine (c : Ctx) (p : Point) : Counted Point :=
  (expCore c p.z (c.p - 2)).bind fun zi =>
  (mont c zi zi).bind fun zi2 =>
  (mont c p.x zi2).bind fun x =>
  (mont c zi2 zi).bind fun zi3 =>
  (mont c p.y zi3).bind fun y =>
  .ret (if p.z = 0 then infinity c else { x := x, y := y, z := c.rone })

/-- Equality as group elements by cross-multiplied coordinates (R221). -/
def pointEq (c : Ctx) (p q : Point) : Counted Bool :=
  (mont c p.z p.z).bind fun z1z1 =>
  (mont c q.z q.z).bind fun z2z2 =>
  (mont c p.x z2z2).bind fun u1 =>
  (mont c q.x z1z1).bind fun u2 =>
  (mont c q.z z2z2).bind fun t1 =>
  (mont c p.y t1).bind fun s1 =>
  (mont c p.z z1z1).bind fun t2 =>
  (mont c q.y t2).bind fun s2 =>
  .ret ((p.z == 0 && q.z == 0) || (p.z != 0 && q.z != 0 && u1 == u2 && s1 == s2))

end Sys2Proof.Machine
end

