-- ==== Sys2Proof/Machine/Curve.lean ====
section
/-! DEFINITION. The curve-point commands (`42_curve.md` R208 to R223). -/

namespace Sys2Proof.Machine

/-- The end of a command that writes a point: the triple, `INF` and the calls (R40, R215 to R217, R220). -/
def State.completePoint (s : State) (rd : RegNum) (r : Counted Point) : State :=
  (((s.setP rd r.val).setFlag .inf (r.val.z == 0)).addMul r.calls).complete

/-- The end of a command that writes one flag from a datapath's test and no register (R218, R219, R221). -/
def State.completeTest (s : State) (f : Flag) (r : Counted Bool) : State :=
  ((s.setFlag f r.val).addMul r.calls).complete

/-- R214: it may be repeated and then replaces the three values; the order is raw. -/
def execCrvset (ra rb rc : RegNum) (s : State) : Result :=
  guarded (s.fieldChecks [ra, rb]) s
    { s with crvv := true, curveA := s.getB ra, curveB := s.getB rb, order := s.getB rc }.complete

/-- R215. -/
def execPadd (rd ra rb : RegNum) (s : State) : Result :=
  guarded (s.curveChecks (.padd rd ra rb) (tripleRegs ra ++ tripleRegs rb)) s
    (s.completePoint rd (addCore s.ctx (s.getP ra) (s.getP rb)))

/-- R216. -/
def execPdbl (rd ra : RegNum) (s : State) : Result :=
  guarded (s.curveChecks (.pdbl rd ra) (tripleRegs ra)) s (s.completePoint rd (dblCanon s.ctx (s.getP ra)))

/-- R217: the scalar is raw, and is read before any destination is written. -/
def execPmul (rd ra rb : RegNum) (s : State) : Result :=
  guarded (s.curveChecks (.pmul rd ra rb) (tripleRegs ra)) s
    (s.completePoint rd (mulCore s.ctx (s.getP ra) (s.getB rb)))

/-- R218: `IVP` is 1 when the point is not on the curve. -/
def execPonc (ra : RegNum) (s : State) : Result :=
  guarded (s.curveChecks (.ponc ra) (tripleRegs ra)) s
    (s.completeTest .ivp ((onCurve s.ctx (s.getP ra)).map (!·)))

/-- R219: `IVP` is 1 when ORDER·P is not infinity. -/
def execPsgc (ra : RegNum) (s : State) : Result :=
  guarded (s.curveChecks (.psgc ra) (tripleRegs ra)) s
    (s.completeTest .ivp ((mulCore s.ctx (s.getP ra) s.order).map (fun q => q.z != 0)))

/-- The end of `PAFF` (R220): `INF` tells whether the operand was infinity. -/
def State.completePaff (s : State) (rd : RegNum) (z : Nat) (r : Counted Point) : State :=
  (((s.setP rd r.val).setFlag .inf (z == 0)).addMul r.calls).complete

/-- R220. -/
def execPaff (rd ra : RegNum) (s : State) : Result :=
  guarded (s.curveChecks (.paff rd ra) (tripleRegs ra)) s
    (s.completePaff rd (s.getP ra).z (affine s.ctx (s.getP ra)))

/-- R221. -/
def execPeq (ra rb : RegNum) (s : State) : Result :=
  guarded (s.curveChecks (.peq ra rb) (tripleRegs ra ++ tripleRegs rb)) s
    (s.completeTest .eq (pointEq s.ctx (s.getP ra) (s.getP rb)))

end Sys2Proof.Machine
end

