-- ==== Sys2Proof/Machine/Field.lean ====
section
/-! DEFINITION. The prime-field commands (`41_field.md` R170 to R191). -/

namespace Sys2Proof.Machine

/-- A field command writes its destination and `Z` together (R177). -/
def State.putField (s : State) (rd : RegNum) (v : Nat) : State := (s.setB rd v).setFlag .z (v == 0)

/-- The end of a field command whose datapath made `r` (R40, R177). -/
def State.completeField (s : State) (rd : RegNum) (r : Counted Nat) : State :=
  ((s.putField rd r.val).addMul r.calls).complete

/-- The checks of `MODSET` (R170, R171). -/
def State.modsetChecks (s : State) (ra : RegNum) : Option Trap :=
  firstTrap [
    if s.modv then some { cause := .modulusLocked, info := 0 } else none,
    if s.getB ra % 2 = 0 ∨ s.getB ra < 3 then some { cause := .badModulus, info := BitVec.ofNat 32 ra.val } else none]

/-- The latched modulus and its derived constants (R32 to R35, R171). -/
def State.latchModulus (s : State) (v : Nat) : State :=
  { s with
    modv := true
    mod := v
    inv := BitVec.ofNat 64 (negInverse v)
    rone := s.radix % v
    rsq := (s.radix * s.radix) % v }

/-- R171. -/
def execModset (ra : RegNum) (s : State) : Result :=
  guarded (s.modsetChecks ra) s (s.latchModulus (s.getB ra)).complete

/-- R178. -/
def execFadd (rd ra rb : RegNum) (s : State) : Result :=
  guarded (s.fieldChecks [ra, rb]) s (s.completeField rd (.ret (fadd s.ctx (s.getB ra) (s.getB rb))))

/-- R179. -/
def execFsub (rd ra rb : RegNum) (s : State) : Result :=
  guarded (s.fieldChecks [ra, rb]) s (s.completeField rd (.ret (fsub s.ctx (s.getB ra) (s.getB rb))))

/-- R180. -/
def execFneg (rd ra : RegNum) (s : State) : Result :=
  guarded (s.fieldChecks [ra]) s (s.completeField rd (.ret (fneg s.ctx (s.getB ra))))

/-- R181. -/
def execFmul (rd ra rb : RegNum) (s : State) : Result :=
  guarded (s.fieldChecks [ra, rb]) s (s.completeField rd (mont s.ctx (s.getB ra) (s.getB rb)))

/-- R182. -/
def execFsqr (rd ra : RegNum) (s : State) : Result :=
  guarded (s.fieldChecks [ra]) s (s.completeField rd (mont s.ctx (s.getB ra) (s.getB ra)))

/-- The end of `FINV` (R183): the exponentiation is always run and counted; the inverse of zero is reported in `NINV` and
writes neither the destination nor `Z`. -/
def State.completeFinv (s : State) (rd : RegNum) (x : Nat) (r : Counted Nat) : State :=
  let reported := if x = 0 then s.setFlag .ninv true else (s.setFlag .ninv false).putField rd r.val
  (reported.addMul r.calls).complete

/-- R183: Fermat's exponent `MOD` − 2. -/
def execFinv (rd ra : RegNum) (s : State) : Result :=
  guarded (s.fieldChecks [ra]) s (s.completeFinv rd (s.getB ra) (expCore s.ctx (s.getB ra) (s.mod - 2)))

/-- The checks of `FSQRT` (R170, R184): the form of the modulus before the operand range. -/
def State.fsqrtChecks (s : State) (ra : RegNum) : Option Trap :=
  firstTrap [s.noModulus,
    if s.mod % 4 ≠ 3 then some { cause := .sqrtModulus, info := 0 } else none,
    s.operandRange [ra]]

/-- The candidate root of R184 and its square, both always computed. -/
def sqrtCandidate (c : Ctx) (x : Nat) : Counted (Nat × Nat) :=
  (expCore c x ((c.p + 1) / 4)).bind fun r => (mont c r r).bind fun sq => .ret (r, sq)

/-- The end of `FSQRT` (R184): the root is written when its square is the operand, else `NSQR` reports. -/
def State.completeFsqrt (s : State) (rd : RegNum) (x : Nat) (r : Counted (Nat × Nat)) : State :=
  let reported := if r.val.2 = x then (s.setFlag .nsqr false).putField rd r.val.1 else s.setFlag .nsqr true
  (reported.addMul r.calls).complete

/-- R184. -/
def execFsqrt (rd ra : RegNum) (s : State) : Result :=
  guarded (s.fsqrtChecks ra) s (s.completeFsqrt rd (s.getB ra) (sqrtCandidate s.ctx (s.getB ra)))

/-- R185: the exponent is a raw integer and is not range-checked. -/
def execFexp (rd ra rb : RegNum) (s : State) : Result :=
  guarded (s.fieldChecks [ra]) s (s.completeField rd (expCore s.ctx (s.getB ra) (s.getB rb)))

/-- The end of `FTOM` (R186): a value ≥ `MOD` is reported in `RNG` without a call of the multiplier, any other is
multiplied by `RSQ`. -/
def State.completeFtom (s : State) (rd : RegNum) (x : Nat) : State :=
  if s.mod ≤ x then (s.setFlag .rng true).complete
  else (s.setFlag .rng false).completeField rd (mont s.ctx x s.rsq)

/-- R186: the operand is raw. -/
def execFtom (rd ra : RegNum) (s : State) : Result :=
  guarded (s.fieldChecks []) s (s.completeFtom rd (s.getB ra))

/-- R187: multiplication by the raw integer 1. -/
def execFfrm (rd ra : RegNum) (s : State) : Result :=
  guarded (s.fieldChecks [ra]) s (s.completeField rd (mont s.ctx (s.getB ra) 1))

/-- R188: `Z` is written 0, always. -/
def execFone (rd : RegNum) (s : State) : Result :=
  guarded (s.fieldChecks []) s ((s.setB rd s.rone).setFlag .z false).complete

end Sys2Proof.Machine
end

