-- ==== Sys2Proof/Machine/Dispatch.lean ====
section
/-! DEFINITION. The dispatch: one arm per command, each one direct call of its meaning. -/

namespace Sys2Proof.Machine

/-- What one command does to the state in which it is executed (R248: its checks, its effect, `INSTRET` and `pc`). -/
def exec (i : Instr) (s : State) : Host.Outcome State Fault Refusal :=
  match i with
  | .nop => Sys2Proof.Machine.execNop s
  | .halt => Sys2Proof.Machine.execHalt s
  | .jmp imm => Sys2Proof.Machine.execJmp imm s
  | .bfs sel imm => Sys2Proof.Machine.execBfs sel imm s
  | .bfc sel imm => Sys2Proof.Machine.execBfc sel imm s
  | .dbnz rs imm => Sys2Proof.Machine.execDbnz rs imm s
  | .ali rd imm => Sys2Proof.Machine.execAli rd imm s
  | .aaddi rd ra imm => Sys2Proof.Machine.execAaddi rd ra imm s
  | .ld rd ra imm => Sys2Proof.Machine.execLd rd ra imm s
  | .st rd ra imm => Sys2Proof.Machine.execSt rd ra imm s
  | .badd rd ra rb => Sys2Proof.Machine.execBadd rd ra rb s
  | .badc rd ra rb => Sys2Proof.Machine.execBadc rd ra rb s
  | .bsub rd ra rb => Sys2Proof.Machine.execBsub rd ra rb s
  | .bsbb rd ra rb => Sys2Proof.Machine.execBsbb rd ra rb s
  | .bcmp ra rb => Sys2Proof.Machine.execBcmp ra rb s
  | .bshr1 rd ra => Sys2Proof.Machine.execBshr1 rd ra s
  | .bmulw rd ra rb => Sys2Proof.Machine.execBmulw rd ra rb s
  | .btstz ra => Sys2Proof.Machine.execBtstz ra s
  | .bmov rd ra => Sys2Proof.Machine.execBmov rd ra s
  | .bldi rd imm => Sys2Proof.Machine.execBldi rd imm s
  | .bcsel rd ra rb sel => Sys2Proof.Machine.execBcsel rd ra rb sel s
  | .modset ra => Sys2Proof.Machine.execModset ra s
  | .fadd rd ra rb => Sys2Proof.Machine.execFadd rd ra rb s
  | .fsub rd ra rb => Sys2Proof.Machine.execFsub rd ra rb s
  | .fneg rd ra => Sys2Proof.Machine.execFneg rd ra s
  | .fmul rd ra rb => Sys2Proof.Machine.execFmul rd ra rb s
  | .fsqr rd ra => Sys2Proof.Machine.execFsqr rd ra s
  | .finv rd ra => Sys2Proof.Machine.execFinv rd ra s
  | .fsqrt rd ra => Sys2Proof.Machine.execFsqrt rd ra s
  | .fexp rd ra rb => Sys2Proof.Machine.execFexp rd ra rb s
  | .ftom rd ra => Sys2Proof.Machine.execFtom rd ra s
  | .ffrm rd ra => Sys2Proof.Machine.execFfrm rd ra s
  | .fone rd => Sys2Proof.Machine.execFone rd s
  | .crvset ra rb rc => Sys2Proof.Machine.execCrvset ra rb rc s
  | .padd rd ra rb => Sys2Proof.Machine.execPadd rd ra rb s
  | .pdbl rd ra => Sys2Proof.Machine.execPdbl rd ra s
  | .pmul rd ra rb => Sys2Proof.Machine.execPmul rd ra rb s
  | .ponc ra => Sys2Proof.Machine.execPonc ra s
  | .psgc ra => Sys2Proof.Machine.execPsgc ra s
  | .paff rd ra => Sys2Proof.Machine.execPaff rd ra s
  | .peq ra rb => Sys2Proof.Machine.execPeq ra rb s

end Sys2Proof.Machine
end

