-- ==== Sys2Proof/Machine/HostWindow.lean ====
section
/-! DEFINITION. The host window: its map and what the host's accesses do (`10_state.md` R41 to R49, `60_exceptions.md`
R286, R292, `70_reset_and_hazards.md` R330, R331). -/

namespace Sys2Proof.Machine

open Sys2Proof.Config

/-- The context registers of R47 that are laid out as one big register each. -/
inductive ContextReg where
  | mod | rone | rsq | curveA | curveB | order
deriving DecidableEq, Repr

/-- What a mapped 32-bit offset of the host window names (R44). `k` counts 32-bit words within a big register: word 2·j is
the low and 2·j + 1 the high half of limb j (R46, R47). -/
inductive HostReg where
  | id | param | imemsz | dmemsz | ctrl | status | ien | ip | pc | flags | errs | cause | epc | einfo
  | mulcntLo | mulcntHi | instretLo | instretHi
  | a (i : RegNum)
  | context (c : ContextReg) (k : Nat)
  | inv (k : Nat)
  | b (i : RegNum) (k : Nat)
  | imem (k : Nat)
  | dmem (addr : Nat)
deriving DecidableEq, Repr

/-- The rows of R44 at the 4-byte offsets 0x0000 .. 0x0044, by word number. -/
def controlReg : Nat → Option HostReg
  | 0 => some .id | 1 => some .param | 2 => some .imemsz | 3 => some .dmemsz
  | 4 => some .ctrl | 5 => some .status | 6 => some .ien | 7 => some .ip
  | 8 => some .pc | 9 => some .flags | 10 => some .errs | 11 => some .cause
  | 12 => some .epc | 13 => some .einfo | 14 => some .mulcntLo | 15 => some .mulcntHi
  | 16 => some .instretLo | 17 => some .instretHi
  | _ => none

/-- The six context windows of R47, 0x80 bytes each from 0x0800 on. -/
def contextReg : Nat → Option ContextReg
  | 0 => some .mod | 1 => some .rone | 2 => some .rsq | 3 => some .curveA | 4 => some .curveB | 5 => some .order
  | _ => none

/-- The map of R44 to R49 for a 4-byte aligned offset; none is an offset that is not mapped. -/
def hostMap (p : Params) (off : Nat) : Option HostReg :=
  if off < 0x0100 then controlReg (off / 4)
  else if off < 0x0140 then some (.a (Fin.ofNat 16 ((off - 0x0100) / 4)))
  else if off < 0x0800 then none
  else if off < 0x0B00 then
    (contextReg ((off - 0x0800) / 0x80)).map fun c => .context c ((off - 0x0800) % 0x80 / 4)
  else if off < 0x0B08 then some (.inv ((off - 0x0B00) / 4))
  else if off < 0x1000 then none
  else if off < 0x1800 then some (.b (Fin.ofNat 16 ((off - 0x1000) / 0x80)) ((off - 0x1000) % 0x80 / 4))
  else if off < 0x10000 then none
  else if off < 0x10000 + 4 * p.imemw then some (.imem ((off - 0x10000) / 4))
  else if off < 0x100000 then none
  else if off - 0x100000 + 4 ≤ p.dmemb then some (.dmem (off - 0x100000))
  else none

/-- A read that is accepted in any `STATE`; the others only while `STATE` ≠ RUNNING (R44, R45). -/
def HostReg.readAnyTime : HostReg → Bool
  | .a _ | .context _ _ | .inv _ | .b _ _ | .imem _ | .dmem _ => false
  | .id | .param | .imemsz | .dmemsz | .ctrl | .status | .ien | .ip | .pc | .flags | .errs | .cause | .epc | .einfo
  | .mulcntLo | .mulcntHi | .instretLo | .instretHi => true

/-- A write that is not refused in any `STATE`: the rows `any`, and the read-only rows, whose writes are accepted and
ignored (R44, R45). -/
def HostReg.writeAnyTime : HostReg → Bool
  | .pc | .flags | .errs | .a _ | .b _ _ | .imem _ | .dmem _ => false
  | .id | .param | .imemsz | .dmemsz | .ctrl | .status | .ien | .ip | .cause | .epc | .einfo | .mulcntLo | .mulcntHi
  | .instretLo | .instretHi | .context _ _ | .inv _ => true

/-- The code of `STATE` (R37). -/
def RunState.code : RunState → Nat
  | .idle => 0 | .running => 1 | .done => 2 | .faulted => 3

/-- The code of `CAUSE` (R281). -/
def Cause.code : Cause → Nat
  | .noFault => 0 | .illegalCommand => 1 | .ifetchRange => 2 | .memMisaligned => 3 | .memRange => 4 | .noModulus => 5
  | .modulusLocked => 6 | .badModulus => 7 | .operandRange => 8 | .noCurve => 9 | .sqrtModulus => 10

/-- `STATUS` (R43). -/
def State.statusWord (s : State) : Word :=
  BitVec.ofNat 32 (s.run.code + 4 * s.modv.toNat + 8 * s.crvv.toNat + 16 * s.irq.toNat)

/-- The 32-bit word k of a big register; the limbs j ≥ N do not exist and read 0 (R46, R47). -/
def bigWord (n : Nat) (v k : Nat) : Word := if k < 2 * n then BitVec.ofNat 32 (v / 2 ^ (32 * k)) else 0

/-- A big register's value with its 32-bit word k replaced (R46). -/
def setBigWord (v k : Nat) (w : Word) : Nat :=
  v % 2 ^ (32 * k) + (w.toNat + v / 2 ^ (32 * (k + 1)) * 2 ^ 32) * 2 ^ (32 * k)

/-- The value of a context register (R47). -/
def State.contextValue (s : State) : ContextReg → Nat
  | .mod => s.mod | .rone => s.rone | .rsq => s.rsq | .curveA => s.curveA | .curveB => s.curveB | .order => s.order

/-- The four bytes of operand memory at `addr` as a little-endian word (R49). -/
def State.readWord (s : State) (addr : Nat) : Word := BitVec.ofNat 32 (s.memRead addr 4)

/-- The datum an accepted read returns (R41 to R49). -/
def State.hostValue (s : State) : HostReg → Word
  | .id => idWord
  | .param => BitVec.ofNat 32 (s.params.n + 16 * 2 ^ 8 + 16 * 2 ^ 16)
  | .imemsz => BitVec.ofNat 32 s.params.imemw
  | .dmemsz => BitVec.ofNat 32 s.params.dmemb
  | .ctrl => 0
  | .status => s.statusWord
  | .ien => s.ien.setWidth 32
  | .ip => s.ip.setWidth 32
  | .pc => s.pc.setWidth 32
  | .flags => s.flags.setWidth 32
  | .errs => s.errs.setWidth 32
  | .cause => BitVec.ofNat 32 s.cause.code
  | .epc => s.epc.setWidth 32
  | .einfo => s.einfo
  | .mulcntLo => s.mulcnt.setWidth 32
  | .mulcntHi => (s.mulcnt >>> 32).setWidth 32
  | .instretLo => s.instret.setWidth 32
  | .instretHi => (s.instret >>> 32).setWidth 32
  | .a i => s.getA i
  | .context c k => bigWord s.params.n (s.contextValue c) k
  | .inv k => BitVec.ofNat 32 (s.inv.toNat / 2 ^ (32 * k))
  | .b i k => bigWord s.params.n (s.getB i) k
  | .imem k => s.fetchWord k
  | .dmem addr => s.readWord addr

/-- A refused access: `HOSTERR` is set and nothing else changes (R45). -/
def State.hostError (s : State) : State := { s with errs := s.errs ||| hostErrBit }

/-- An accepted write (R39, R41 to R49). A write of `CTRL` is `State.writeCtrl`. -/
def State.hostStore (s : State) (r : HostReg) (v : Word) : State :=
  match r with
  | .ien => { s with ien := v.setWidth 2 }
  | .ip => { s with ip := s.ip &&& ~~~(v.setWidth 2) }
  | .pc => { s with pc := v.setWidth 16 }
  | .flags => { s with flags := v.setWidth 9 }
  | .errs => { s with errs := s.errs &&& ~~~(v.setWidth 5) }
  | .a i => s.setA i v
  | .b i k => if k < 2 * s.params.n then s.setB i (setBigWord (s.getB i) k v) else s
  | .imem k => s.storeCommand k v
  | .dmem addr => s.memWrite addr 4 v.toNat
  | .id | .param | .imemsz | .dmemsz | .ctrl | .status | .cause | .epc | .einfo | .mulcntLo | .mulcntHi | .instretLo
  | .instretHi | .context _ _ | .inv _ => s

/-- The response to an accepted access (R45). -/
def accepted (data : Word) : HostResponse := { busError := false, data := data }

/-- The response to a refused access: a bus error, and the data word 0 (R45). -/
def refusedAccess : HostResponse := { busError := true, data := 0 }

/-- A write of `CTRL` (R42): the soft reset goes before a start; a start is accepted from IDLE and DONE and refused while
RUNNING or FAULTED. -/
def State.writeCtrl (s : State) (v : Word) : State × HostResponse :=
  if v.getLsbD 1 then (s.softReset, accepted 0)
  else if v.getLsbD 0 then
    match s.run with
    | .idle | .done => ({ s with run := .running }, accepted 0)
    | .running | .faulted => (s.hostError, refusedAccess)
  else (s, accepted 0)

/-- The register that an access names, when its width and alignment are those of the host bus (R44, R45). -/
def State.hostTarget (s : State) (width off : Nat) : Option HostReg :=
  if width = 4 ∧ off % 4 = 0 then hostMap s.params off else none

/-- One host access with the reset input released (R45): the state after it and what the bus returns. -/
def State.hostAccess (s : State) (a : HostAccess) : State × HostResponse :=
  match a with
  | .read width off =>
    match s.hostTarget width off with
    | none => (s.hostError, refusedAccess)
    | some r =>
      if r.readAnyTime || s.run != .running then (s, accepted (s.hostValue r)) else (s.hostError, refusedAccess)
  | .write width off v =>
    match s.hostTarget width off with
    | none => (s.hostError, refusedAccess)
    | some .ctrl => s.writeCtrl v
    | some r =>
      if r.writeAnyTime || s.run != .running then (s.hostStore r v, accepted 0) else (s.hostError, refusedAccess)

/-- One host access as a turn: while the reset input is asserted it is refused without `HOSTERR` (R330); the response is
what the host sees. -/
def State.hostTurn (s : State) (a : HostAccess) : State :=
  if s.resetInput then { s with response := some refusedAccess }
  else { (s.hostAccess a).1 with response := some (s.hostAccess a).2 }

end Sys2Proof.Machine
end

