-- ==== Sys2Proof/Machine/Fetch.lean ====
section
/-! DEFINITION. Fetching a command word, the sequencer's step and the host's turn (`10_state.md` R26, R28,
`43_control_memory_system.md` R248, `60_exceptions.md` R287, R305). -/

namespace Sys2Proof.Machine

/-- The fetch (R28, R248): the word at `pc`, or IFETCH_RANGE at or beyond the top of command memory. -/
def State.fetch (s : State) : Except Trap Word :=
  if s.pc.toNat < s.params.imemw then .ok (s.fetchWord s.pc.toNat) else .error { cause := .ifetchRange, info := 0 }

/-- Fetch and decode: a command, or the fault of the fetch or of an illegal word (R28, R122, R248). -/
def State.fetchDecode (s : State) : Except Trap Instr :=
  match s.fetch with
  | .error t => .error t
  | .ok w =>
    match decode w with
    | .error _ => .error { cause := .illegalCommand, info := w }
    | .ok i => .ok i

/-- The sequencer may step: `STATE` = RUNNING and the reset input is not asserted (R248, R305, R330). -/
def State.mayStep (s : State) : Bool := s.run == .running && !s.resetInput

/-- One step of the sequencer (R248); in IDLE, DONE and FAULTED it takes none and all state is kept (R305). -/
def State.sequencerStep (s : State) : Result :=
  if s.mayStep then
    match s.fetchDecode with
    | .error t => .next (s.raise t)
    | .ok i => exec i s
  else .next s

/-- One turn (R20). Asserting a reset input that is asserted already changes nothing (R330). -/
def State.takeTurn (s : State) : Turn → Result
  | .sequencer => s.sequencerStep
  | .host a => .next (s.hostTurn a)
  | .assertReset => .next (if s.resetInput then s else s.assertReset)
  | .releaseReset => .next s.releaseReset

end Sys2Proof.Machine
end

