-- ==== Sys2Proof/Machine/Step.lean ====
section
/-! DEFINITION. One step of the machine: the next turn, and the sequencer's when no turn is waiting. -/

namespace Sys2Proof.Machine

/-- One step: the turn at the head of the list is taken off it and taken; with no turn waiting, the sequencer steps
(R20, R248; log entry 4). -/
def step (s : State) : Host.Outcome State Fault Refusal :=
  match s.turns with
  | [] => s.sequencerStep
  | t :: rest => { s with turns := rest }.takeTurn t

/-- `s` with a command word stored where the next step fetches: no turn waits, the reset input is released, `STATE` is
RUNNING, and `pc` stays unless it lies outside command memory (log entry 5). -/
def State.withFetchWord (s : State) (nbits w : Nat) : State :=
  let k : CmdIndex := if s.pc.toNat < s.params.imemw then s.pc else 0
  { s with
    turns := []
    resetInput := false
    run := .running
    pc := k
    imem := Memory.store s.imem k.toNat (BitVec.ofNat 32 (w % 2 ^ nbits)) }

end Sys2Proof.Machine
end

