-- ==== Sys2Proof/Safety.lean ====
section
/-! DEFINITION. The terms in which statements about the machine are made: legal states, what a command leaves
unchanged, what a fault leaves, the operands a command checks, the field element a register holds and the curve point a
triple stands for, what a reset leaves, which accesses of the host are refused. -/

namespace Sys2Proof.Machine

open Sys2Proof.Config

/-- The latched field context is what R32 to R35 say of it while `MODV` = 1. -/
structure State.FieldReady (s : State) : Prop where
  latched : s.modv = true
  odd : s.mod % 2 = 1
  lower : 3 ≤ s.mod
  upper : s.mod < s.radix
  inv : (s.mod * s.inv.toNat) % 2 ^ 64 = 2 ^ 64 - 1
  rone : s.rone = s.radix % s.mod
  rsq : s.rsq = (s.radix * s.radix) % s.mod

/-- The curve context is what R36 says of it while `CRVV` = 1, over a latched modulus. -/
structure State.CurveReady (s : State) : Prop where
  field : s.FieldReady
  loaded : s.crvv = true
  a : s.curveA < s.mod
  b : s.curveB < s.mod
  order : s.order < s.radix

/-- The field and curve context that R32 to R36 allow. -/
structure State.ContextLegal (s : State) : Prop where
  latched : s.modv = true → s.FieldReady
  empty : s.modv = false → s.mod = 0 ∧ s.inv = 0 ∧ s.rone = 0 ∧ s.rsq = 0 ∧ s.crvv = false
  loaded : s.crvv = true → s.CurveReady
  unloaded : s.crvv = false → s.curveA = 0 ∧ s.curveB = 0 ∧ s.order = 0

/-- A legal state: legal parameters (R7), both memories in their canonical form and within their sizes (R50), every big
register below 2^XLEN (R21), a legal context (R32 to R36), and a fault record that is empty exactly outside FAULTED
(R37, R38, R290). -/
structure State.Legal (s : State) : Prop where
  params : s.params.wf
  dmem : Memory.wf s.dmem
  dmemBelow : Memory.below s.dmem s.params.dmemb
  imem : Memory.wf s.imem
  imemBelow : Memory.below s.imem s.params.imemw
  registers : ∀ i : RegNum, s.b[i.val] < s.radix
  context : s.ContextLegal
  faulted : s.run = .faulted ↔ s.cause ≠ .noFault
  noRecord : s.cause = .noFault → s.epc = 0 ∧ s.einfo = 0

/-- What one completed command leaves unchanged, and what every completed command does (R27, R30, R40, R248). Of the big
registers only those of `regs`, of the flags only those of `flags` may differ; `ERRS` gains the bits `sticky`; `MULCNT`
grows by `calls`; `pc` becomes `next`; every byte of `DMEM`, every word of `IMEM`, every address register, the context,
the run state, the fault record and the interrupt registers are as before. -/
structure Completes (s t : State) (regs : List RegNum) (flags : List Flag) (sticky : BitVec 5) (calls : Nat)
    (next : CmdIndex) : Prop where
  regs : ∀ r, r ∉ regs → t.getB r = s.getB r
  flags : ∀ f, f ∉ flags → t.flag f = s.flag f
  errs : t.errs = s.errs ||| sticky
  mulcnt : t.mulcnt = s.mulcnt + BitVec.ofNat 64 calls
  instret : t.instret = s.instret + 1
  pc : t.pc = next
  bytes : ∀ addr, t.readByte addr = s.readByte addr
  words : ∀ k, t.fetchWord k = s.fetchWord k
  addresses : ∀ r, t.getA r = s.getA r
  rest : t = { s with b := t.b, flags := t.flags, errs := t.errs, pc := t.pc, mulcnt := t.mulcnt, instret := t.instret }

/-- The state that a fault leaves (R290), field by field: the fault record, `FAULT_IP` and `STATE`; nothing else. -/
def faultState (s : State) (code : Cause) (info : Word) : State :=
  { s with cause := code, epc := s.pc, einfo := info, ip := s.ip ||| 0b10#2, run := .faulted }

/-- The commands of `41_field.md` but for `MODSET` (R170). -/
def isFieldCommand : Instr → Bool
  | .fadd _ _ _ | .fsub _ _ _ | .fneg _ _ | .fmul _ _ _ | .fsqr _ _ | .finv _ _ | .fsqrt _ _ | .fexp _ _ _ | .ftom _ _
  | .ffrm _ _ | .fone _ => true
  | _ => false

/-- The commands of `42_curve.md` but for `CRVSET` (R209). -/
def needsCurve : Instr → Bool
  | .padd _ _ _ | .pdbl _ _ | .pmul _ _ _ | .ponc _ | .psgc _ | .paff _ _ | .peq _ _ => true
  | _ => false

/-- The commands that need a modulus: those of `41_field.md` but for `MODSET`, and all of `42_curve.md` (R281). -/
def needsModulus (i : Instr) : Bool :=
  isFieldCommand i || needsCurve i || match i with | .crvset _ _ _ => true | _ => false

/-- The stored source registers of a command in the order in which they are tested (R172, R209, and the rule of each
command). -/
def storedRegs : Instr → List RegNum
  | .fadd _ ra rb | .fsub _ ra rb | .fmul _ ra rb => [ra, rb]
  | .fneg _ ra | .fsqr _ ra | .finv _ ra | .fsqrt _ ra | .fexp _ ra _ | .ffrm _ ra => [ra]
  | .crvset ra rb _ => [ra, rb]
  | .padd _ ra rb | .peq ra rb => [ra, ra + 1, ra + 2, rb, rb + 1, rb + 2]
  | .pdbl _ ra | .pmul _ ra _ | .ponc ra | .psgc ra | .paff _ ra => [ra, ra + 1, ra + 2]
  | _ => []

/-- `MontMul` calls of one completed command (R191, R223, R341), for an operand of `FTOM` that is in range. -/
def multiplications (n : Nat) : Instr → Nat
  | .fmul _ _ _ | .fsqr _ _ | .ffrm _ _ | .ftom _ _ => 1
  | .fexp _ _ _ | .finv _ _ => 128 * n
  | .fsqrt _ _ => 128 * n + 1
  | .pdbl _ _ => 10
  | .padd _ _ _ => 26
  | .pmul _ _ _ | .psgc _ => 364 + 1056 * n
  | .ponc _ => 9
  | .paff _ _ => 128 * n + 4
  | .peq _ _ => 8
  | _ => 0

/-- The true value of a stored value (R8 of the glossary, R23): v · R⁻¹ modulo p, as an element of the ring of integers
modulo p. -/
def State.trueValue (s : State) (v : Nat) : ZMod s.mod := (v : ZMod s.mod) * ((s.radix : ZMod s.mod))⁻¹

/-- The true value held by a big register (R23). -/
def State.elem (s : State) (r : RegNum) : ZMod s.mod := s.trueValue (s.getB r)

/-- A run is safe while no fault has stopped the sequencer (R280). -/
def State.safe (s : State) : Prop := s.run ≠ .faulted

/-! ### Fetching and encoding -/

/-- The next step of the machine fetches the command word `w` (R28, R248): no turn is waiting, the reset input is released,
the sequencer runs and `pc` is inside command memory. -/
structure State.Fetches (s : State) (w : Word) : Prop where
  noTurn : s.turns = []
  released : s.resetInput = false
  running : s.run = .running
  inRange : s.pc.toNat < s.params.imemw
  word : s.fetchWord s.pc.toNat = w

/-- The opcodes that R122 lists as unassigned. -/
def unassigned (op : Nat) : Bool :=
  op == 0x00 || (0x03 ≤ op && op ≤ 0x07) || (0x0C ≤ op && op ≤ 0x0F) || (0x12 ≤ op && op ≤ 0x17) ||
    (0x1A ≤ op && op ≤ 0x1F) || (0x2B ≤ op && op ≤ 0x3F) || (0x4C ≤ op && op ≤ 0x5F) || (0x68 ≤ op && op ≤ 0xFF)

/-- The bits of a word that must be 0 for each opcode of R119: the fields of its format that the row does not list under
"Fields used" (R120). -/
def reservedBits (op : Nat) : Nat :=
  if op ∈ [0x01, 0x02] then 0xFFFFFF
  else if op = 0x08 then 0xFF0000
  else if op ∈ [0x09, 0x0A, 0x0B] then 0x0F0000
  else if op ∈ [0x20, 0x21, 0x22, 0x23, 0x26, 0x41, 0x42, 0x44, 0x48, 0x61, 0x63] then 0x000FFF
  else if op ∈ [0x25, 0x28, 0x43, 0x45, 0x46, 0x47, 0x49, 0x4A, 0x62, 0x66] then 0x00FFFF
  else if op ∈ [0x24, 0x67] then 0xF00FFF
  else if op ∈ [0x27, 0x40, 0x64, 0x65] then 0xF0FFFF
  else if op = 0x2A then 0x000FF0
  else if op = 0x4B then 0x0FFFFF
  else if op = 0x60 then 0xF000FF
  else 0

/-- The lowest bit of each field that names a triple, by opcode (R121). -/
def tripleFields (op : Nat) : List Nat :=
  if op = 0x61 then [20, 16, 12]
  else if op ∈ [0x62, 0x63, 0x66] then [20, 16]
  else if op ∈ [0x64, 0x65] then [16]
  else if op = 0x67 then [16, 12]
  else []

/-- The nine flags, each with its bit of `FLAGS` and its selector (R29, R118). -/
def flagSelectors : List (Flag × Nat) :=
  [(.cy, 0), (.z, 1), (.lt, 2), (.eq, 3), (.ninv, 4), (.nsqr, 5), (.rng, 6), (.inf, 7), (.ivp, 8)]

/-- The command branches to `pc` plus `imm` when it is executed in this state: `JMP`, or `BFS`, `BFC`, `DBNZ` when it is
taken (R252 to R255). -/
def State.Branches (s : State) (i : Instr) (imm : Imm16) : Prop :=
  i = .jmp imm ∨
    (∃ (f : Flag) (sel : FlagSel), (f, sel.val) ∈ flagSelectors ∧
      (i = .bfs sel imm ∧ s.flag f = true ∨ i = .bfc sel imm ∧ s.flag f = false)) ∨
    ∃ r, i = .dbnz r imm ∧ (s.getA r).toNat ≠ 1

/-! ### Field results -/

/-- The registers hold stored values, each below the modulus (R23, R172). -/
def State.Stored (s : State) (regs : List RegNum) : Prop := ∀ r ∈ regs, s.getB r < s.mod

/-- A command of `41_field.md` that wrote `B[rd]`: the stored value of `v`, below the modulus, and `Z` with it (R173, R174,
R177). -/
structure FieldResult (s t : State) (rd : RegNum) (flags : List Flag) (v : ZMod s.mod) (calls : Nat) : Prop where
  frame : Completes s t [rd] flags 0 calls (s.pc + 1)
  below : t.getB rd < s.mod
  value : s.trueValue (t.getB rd) = v
  zero : t.flag .z = decide (t.getB rd = 0)

/-! ### Curve results -/

/-- Jacobian coordinates over a ring, without regard to how they are stored (R208). -/
structure Jac (F : Type) where
  x : F
  y : F
  z : F

/-- The double of R211: S = 4·X·Y², M = 3·X² + a·Z⁴. -/
def jacDouble {F : Type} [CommRing F] (a : F) (p : Jac F) : Jac F :=
  let s := 4 * p.x * p.y ^ 2
  let m := 3 * p.x ^ 2 + a * p.z ^ 4
  let x3 := m ^ 2 - 2 * s
  { x := x3, y := m * (s - x3) - 8 * p.y ^ 4, z := 2 * p.y * p.z }

/-- H of R212: the difference of the cross-multiplied X coordinates. -/
def jacH {F : Type} [CommRing F] (p q : Jac F) : F := q.x * p.z ^ 2 - p.x * q.z ^ 2

/-- r of R212: the difference of the cross-multiplied Y coordinates. -/
def jacR {F : Type} [CommRing F] (p q : Jac F) : F := q.y * p.z ^ 3 - p.y * q.z ^ 3

/-- The generic sum of R212. -/
def jacSum {F : Type} [CommRing F] (p q : Jac F) : Jac F :=
  let h := jacH p q
  let r := jacR p q
  let v := p.x * q.z ^ 2 * h ^ 2
  let x3 := r ^ 2 - h ^ 3 - 2 * v
  { x := x3, y := r * (v - x3) - p.y * q.z ^ 3 * h ^ 3, z := p.z * q.z * h }

/-- The true coordinates of a stored triple (R23, R208). -/
def State.jac (s : State) (p : Point) : Jac (ZMod s.mod) :=
  { x := s.trueValue p.x, y := s.trueValue p.y, z := s.trueValue p.z }

/-- The canonical point at infinity (`RONE`, `RONE`, 0) (R210). -/
def State.infinityPoint (s : State) : Point := { x := s.rone, y := s.rone, z := 0 }

/-- The three coordinates are below the modulus. -/
def State.PointBelow (s : State) (p : Point) : Prop := p.x < s.mod ∧ p.y < s.mod ∧ p.z < s.mod

/-- A written triple holds the coordinates `v` after `Canon` (R210): canonical infinity when their Z is 0, else stored
values of exactly these coordinates. -/
def State.HoldsJac (s : State) (p : Point) (v : Jac (ZMod s.mod)) : Prop :=
  (v.z = 0 → p = s.infinityPoint) ∧ (v.z ≠ 0 → s.PointBelow p ∧ s.jac p = v)

/-- `q` is the value of `DblCore` of `p` after `Canon` (R210, R211). -/
def State.IsDouble (s : State) (p q : Point) : Prop := s.HoldsJac q (jacDouble (s.trueValue s.curveA) (s.jac p))

/-- `r` is the value of `AddCore` of `p` and `q`, by the five-way select of R212. -/
def State.IsSum (s : State) (p q r : Point) : Prop :=
  if p.z = 0 then r = if q.z = 0 then s.infinityPoint else q
  else if q.z = 0 then r = p
  else if jacH (s.jac p) (s.jac q) = 0 then
    if jacR (s.jac p) (s.jac q) = 0 then s.IsDouble p r else r = s.infinityPoint
  else s.HoldsJac r (jacSum (s.jac p) (s.jac q))

/-- `r` is the value of `MulCore` of `p` and `k` by the schedule of R213: `T` is its table, and `acc w` its accumulator
before the windows w − 1 .. 0. Each value is the only one that the value before it allows, so `r` is one triple. -/
def State.IsMultiple (s : State) (p : Point) (k : Nat) (r : Point) : Prop :=
  ∃ T acc : Nat → Point,
    T 0 = s.infinityPoint ∧ T 1 = p ∧ (∀ j, 2 ≤ j → j ≤ 15 → s.IsSum (T (j - 1)) p (T j)) ∧
    acc (16 * s.params.n) = s.infinityPoint ∧
    (∀ w < 16 * s.params.n, ∃ a b c d, s.IsDouble (acc (w + 1)) a ∧ s.IsDouble a b ∧ s.IsDouble b c ∧ s.IsDouble c d ∧
      s.IsSum d (T (k / 2 ^ (4 * w) % 16)) (acc w)) ∧
    acc 0 = r

/-- A curve command that wrote the triple `p` to `P[rd]`, with `INF` (R210, R215 to R217, R220). -/
structure PointResult (s t : State) (rd : RegNum) (p : Point) (calls : Nat) : Prop where
  frame : Completes s t (tripleRegs rd) [.inf] 0 calls (s.pc + 1)
  point : t.getP rd = p
  inf : t.flag .inf = decide (p.z = 0)

/-- The short-Weierstrass curve y² = x³ + a·x + b of the loaded coefficients (R36). -/
def State.curve (s : State) : WeierstrassCurve.Affine (ZMod s.mod) where
  a₁ := 0
  a₂ := 0
  a₃ := 0
  a₄ := s.trueValue s.curveA
  a₆ := s.trueValue s.curveB

/-- A triple stands for a point of the curve (R208): infinity when Z = 0, else the affine point (X/Z², Y/Z³), written here
without a division. `g` ranges over the points of the curve at which it is not singular, which form a group. -/
def State.Represents (s : State) (p : Point) (g : s.curve.Point) : Prop :=
  (p.z = 0 ∧ g = .zero) ∨
    (p.z ≠ 0 ∧ ∃ x y h, g = .some x y h ∧ (s.jac p).x = x * (s.jac p).z ^ 2 ∧ (s.jac p).y = y * (s.jac p).z ^ 3)

/-! ### Reset and the host -/

/-- Every register, flag, context value, fault-record field, interrupt register and counter is 0 and `STATE` is IDLE
(R52). -/
structure State.AtReset (s : State) : Prop where
  big : ∀ r, s.getB r = 0
  address : ∀ r, s.getA r = 0
  control : s.pc = 0 ∧ s.flags = 0 ∧ s.errs = 0 ∧ s.run = .idle
  field : s.modv = false ∧ s.mod = 0 ∧ s.inv = 0 ∧ s.rone = 0 ∧ s.rsq = 0
  curve : s.crvv = false ∧ s.curveA = 0 ∧ s.curveB = 0 ∧ s.order = 0
  record : s.cause = .noFault ∧ s.epc = 0 ∧ s.einfo = 0
  interrupts : s.ien = 0 ∧ s.ip = 0
  counters : s.mulcnt = 0 ∧ s.instret = 0

/-- The next step is a reset: the reset input is asserted, or the host writes `CTRL` with `SRST` (R330, R331). -/
def State.ResetTurn (s : State) : Prop :=
  (∃ rest, s.turns = .assertReset :: rest) ∨
    ∃ v rest, s.turns = .host (.write 4 0x0010 v) :: rest ∧ v.getLsbD 1 = true ∧ s.resetInput = false

/-- The offsets of R44 that are mapped in any instance or by the sizes of this one. -/
def offsetMapped (p : Params) (off : Nat) : Prop :=
  off ≤ 0x0044 ∨ (0x0100 ≤ off ∧ off < 0x0140) ∨ (0x0800 ≤ off ∧ off < 0x0B08) ∨ (0x1000 ≤ off ∧ off < 0x1800) ∨
    (0x10000 ≤ off ∧ off < 0x10000 + 4 * p.imemw) ∨ (0x100000 ≤ off ∧ off + 4 ≤ 0x100000 + p.dmemb)

/-- The rows of R44 that are read only while `STATE` ≠ RUNNING (R45): the A window, the context windows, the B window,
`IMEM`, `DMEM`. -/
def readGuarded (off : Nat) : Prop := 0x0100 ≤ off

/-- The rows of R44 whose "write accepted when" is "≠ RUNNING": `PC`, `FLAGS`, `ERRS`, the A and B windows, `IMEM`,
`DMEM`. -/
def writeGuarded (off : Nat) : Prop :=
  (0x0020 ≤ off ∧ off ≤ 0x0028) ∨ (0x0100 ≤ off ∧ off < 0x0140) ∨ 0x1000 ≤ off

/-- The accesses that R45 refuses. -/
def State.Refuses (s : State) : HostAccess → Prop
  | .read width off =>
    width ≠ 4 ∨ off % 4 ≠ 0 ∨ ¬ offsetMapped s.params off ∨ (s.run = .running ∧ readGuarded off)
  | .write width off _ =>
    width ≠ 4 ∨ off % 4 ≠ 0 ∨ ¬ offsetMapped s.params off ∨ (s.run = .running ∧ writeGuarded off)

end Sys2Proof.Machine
end

