-- ==== Sys2Proof/Certificates/Slice0/Obligations.lean ====
section
/-! DEFINITION. The statements for the provers. `OBLIGATIONS.json` gives each its rule of the spec. -/

open Sys2Proof Sys2Proof.Machine Sys2Proof.Config

/-! ### Encoding -/

/-- R119, R127: decoding the word of a well-formed command gives the command back. -/
def Obligations.DecodeOfEncode : Prop := ∀ i : Instr, i.wf → decode (encode i) = .ok i

/-- R120, R123: a word that decodes is the one word of a well-formed command, so no two words are the same command. -/
def Obligations.EncodeOfDecode : Prop := ∀ (w : Word) (i : Instr), decode w = .ok i → i.wf ∧ encode i = w

/-- The example words of R127 decode to the commands it writes beside them. -/
def Obligations.ExampleWords : Prop :=
  decode 0x44312000#32 = .ok (.fmul 3 1 2) ∧
  decode 0x18120020#32 = .ok (.ld 1 2 32) ∧
  decode 0x1930FFF8#32 = .ok (.st 3 0 (-8)) ∧
  decode 0x29512345#32 = .ok (.bldi 5 0x12345) ∧
  decode 0x09300003#32 = .ok (.bfs 3 3) ∧
  decode 0x0B10FFFE#32 = .ok (.dbnz 1 (-2)) ∧
  decode 0x2A012000#32 = .ok (.bcsel 0 1 2 0) ∧
  decode 0x63743000#32 = .ok (.pmul 7 4 3) ∧
  decode 0x60001200#32 = .ok (.crvset 0 1 2) ∧
  decode 0x02000000#32 = .ok .halt

/-- R122: an unassigned opcode, the words 0 and 0xFFFFFFFF among them, and a flag selector 9 .. 15 raise ILLEGAL_COMMAND
with the word in `EINFO`. -/
def Obligations.UnassignedOpcodes : Prop :=
  ∀ (s : State) (w : Word), s.Fetches w →
    (unassigned (w.toNat / 2 ^ 24) = true ∨ w = 0x00000000#32 ∨ w = 0xFFFFFFFF#32 ∨
      (w.toNat / 2 ^ 24 ∈ [0x09, 0x0A] ∧ 9 ≤ w.toNat / 2 ^ 20 % 16) ∨
      (w.toNat / 2 ^ 24 = 0x2A ∧ 9 ≤ w.toNat % 16)) →
    step s = .next (faultState s .illegalCommand w)

/-- R120: a must-be-zero field that is not 0 raises ILLEGAL_COMMAND with the word in `EINFO`. -/
def Obligations.ReservedBits : Prop :=
  ∀ (s : State) (w : Word), s.Fetches w → w.toNat &&& reservedBits (w.toNat / 2 ^ 24) ≠ 0 →
    step s = .next (faultState s .illegalCommand w)

/-- R121: `BMULW` with `rd` = 15 and a triple field 14 or 15 raise ILLEGAL_COMMAND; the scalar of `PMUL` and the three
registers of `CRVSET` may be any register. -/
def Obligations.RegisterGroups : Prop :=
  (∀ (s : State) (w : Word), s.Fetches w →
    ((w.toNat / 2 ^ 24 = 0x26 ∧ w.toNat / 2 ^ 20 % 16 = 15) ∨
      ∃ lo ∈ tripleFields (w.toNat / 2 ^ 24), 14 ≤ w.toNat / 2 ^ lo % 16) →
    step s = .next (faultState s .illegalCommand w)) ∧
  (∀ rd ra rb : RegNum, rd.val ≤ 13 → ra.val ≤ 13 → decode (encode (.pmul rd ra rb)) = .ok (.pmul rd ra rb)) ∧
  (∀ ra rb rc : RegNum, decode (encode (.crvset ra rb rc)) = .ok (.crvset ra rb rc))

/-! ### The step -/

/-- R248, R305, R330: when the word at `pc` decodes to `i`, the step is `exec i`, with no turn waiting and when the
sequencer's turn waits; outside RUNNING, or while the reset input is asserted, the sequencer changes nothing. -/
def Obligations.StepOfSequencer : Prop :=
  (∀ (s : State) (w : Word) (i : Instr), s.Fetches w → decode w = .ok i →
    step s = exec i s ∧ ∀ rest, step { s with turns := .sequencer :: rest } = exec i { s with turns := rest }) ∧
  (∀ s : State, s.run ≠ .running ∨ s.resetInput = true →
    (s.turns = [] → step s = .next s) ∧
    ∀ rest, s.turns = .sequencer :: rest → step s = .next { s with turns := rest })

/-- R28: a fetch at or beyond IMEMW raises IFETCH_RANGE; with IMEMW = 65536 the command after index 65535 is the one at 0;
each of the four branches, taken out of command memory, completes and the next fetch faults. -/
def Obligations.FetchRange : Prop :=
  (∀ s : State, s.turns = [] → s.resetInput = false → s.run = .running → s.params.imemw ≤ s.pc.toNat →
    step s = .next (faultState s .ifetchRange 0)) ∧
  (∀ (s : State) (w : Word), s.params.imemw = 65536 → s.pc = 65535#16 → s.fetchWord 0 = w →
    ∃ t, exec .nop s = .next t ∧ t.pc = 0 ∧ t.run = s.run ∧
      (s.turns = [] → s.resetInput = false → s.run = .running → t.Fetches w)) ∧
  (∀ (s : State) (i : Instr) (imm : Imm16), s.turns = [] → s.resetInput = false → s.run = .running →
    s.Branches i imm → s.params.imemw ≤ (s.pc + imm).toNat →
    ∃ t, exec i s = .next t ∧ t.pc = s.pc + imm ∧ t.run = .running ∧
      step t = .next (faultState t .ifetchRange 0))

/-- R290, R291: every command either faults, and then only the fault record, `FAULT_IP` and `STATE` change, or completes,
and then `INSTRET` grows by 1, the fault record stays and only `HALT` leaves the run state or touches `IP`. -/
def Obligations.FaultOrCompletion : Prop :=
  ∀ (i : Instr) (s : State), ∃ t, exec i s = .next t ∧
    ((∃ code info, code ≠ .noFault ∧ t = faultState s code info) ∨
      (t.instret = s.instret + 1 ∧ t.cause = s.cause ∧ t.epc = s.epc ∧ t.einfo = s.einfo ∧
        (i = .halt ∧ t.run = .done ∧ t.ip = s.ip ||| 0b01#2 ∨ i ≠ .halt ∧ t.run = s.run ∧ t.ip = s.ip)))

/-! ### Faults -/

/-- R170, R209, R288: the context checks come before everything else that a legal command checks. -/
def Obligations.MissingContext : Prop :=
  ∀ (i : Instr) (s : State), i.wf →
    (needsModulus i = true → s.modv = false → exec i s = .next (faultState s .noModulus 0)) ∧
    (needsCurve i = true → s.modv = true → s.crvv = false → exec i s = .next (faultState s .noCurve 0)) ∧
    (∀ rd ra, i = .fsqrt rd ra → s.modv = true → s.mod % 4 ≠ 3 →
      exec i s = .next (faultState s .sqrtModulus 0))

/-- R171, R332: `MODSET` faults with MODULUS_LOCKED once a modulus is latched, else with BAD_MODULUS when the value is even
or below 3. -/
def Obligations.ModsetFaults : Prop :=
  ∀ (s : State) (ra : RegNum),
    (s.modv = true → exec (.modset ra) s = .next (faultState s .modulusLocked 0)) ∧
    (s.modv = false → s.getB ra % 2 = 0 ∨ s.getB ra < 3 →
      exec (.modset ra) s = .next (faultState s .badModulus (BitVec.ofNat 32 ra.val)))

/-- R172: the first stored source register that holds a value ≥ `MOD` raises OPERAND_RANGE with its number; when every
stored source is below `MOD` the command completes, whatever the raw registers hold. -/
def Obligations.OperandRange : Prop :=
  ∀ (i : Instr) (s : State), i.wf → needsModulus i = true → s.modv = true → (needsCurve i = true → s.crvv = true) →
    (∀ rd ra, i = .fsqrt rd ra → s.mod % 4 = 3) →
    (∀ before r after, storedRegs i = before ++ r :: after → s.Stored before → s.mod ≤ s.getB r →
      exec i s = .next (faultState s .operandRange (BitVec.ofNat 32 r.val))) ∧
    (s.Stored (storedRegs i) → ∃ t, exec i s = .next t ∧ t.instret = s.instret + 1 ∧ t.run = s.run ∧ t.cause = s.cause)

/-- R258: the effective address of `LD` and `ST`, its two checks in their order, and the base register that is not
modified. -/
def Obligations.AddressChecks : Prop :=
  ∀ (s : State) (rd ra : RegNum) (imm : Imm16) (i : Instr), i = .ld rd ra imm ∨ i = .st rd ra imm →
    let ea : Nat := ((((s.getA ra).toNat : Int) + imm.toInt) % 2 ^ 32).toNat
    (s.effectiveAddress ra imm).toNat = ea ∧
    (ea % 8 ≠ 0 → exec i s = .next (faultState s .memMisaligned (BitVec.ofNat 32 ea))) ∧
    (ea % 8 = 0 → s.params.dmemb < ea + 8 * s.params.n →
      exec i s = .next (faultState s .memRange (BitVec.ofNat 32 ea))) ∧
    (∀ t, exec i s = .next t → ∀ r, t.getA r = s.getA r)

/-! ### Control, address registers, memory -/

/-- R250 to R254: `NOP` advances, `HALT` ends the run and sets `DONE_IP`, `JMP`, `BFS` and `BFC` move `pc` by their offset,
the last two by the flag of their selector (R29, R118); and all that they change. -/
def Obligations.ControlTransfer : Prop :=
  ∀ s : State,
    exec .nop s = .next { s with pc := s.pc + 1, instret := s.instret + 1 } ∧
    exec .halt s =
      .next { s with run := .done, ip := s.ip ||| 0b01#2, pc := s.pc + 1, instret := s.instret + 1 } ∧
    (∀ imm : Imm16, exec (.jmp imm) s = .next { s with pc := s.pc + imm, instret := s.instret + 1 }) ∧
    (∀ (f : Flag) (sel : FlagSel) (imm : Imm16), (f, sel.val) ∈ flagSelectors →
      exec (.bfs sel imm) s =
        .next { s with pc := if s.flag f = true then s.pc + imm else s.pc + 1, instret := s.instret + 1 } ∧
      exec (.bfc sel imm) s =
        .next { s with pc := if s.flag f = false then s.pc + imm else s.pc + 1, instret := s.instret + 1 })

/-- R255 to R257: `DBNZ`, `ALI`, `AADDI` and all that they change; arithmetic is modulo 2^32. -/
def Obligations.AddressRegisters : Prop :=
  ∀ (s : State) (rd ra : RegNum),
    (∀ imm : Imm20, ∃ t, exec (.ali rd imm) s = .next t ∧ (t.getA rd).toNat = imm.toNat ∧
      (∀ r, r ≠ rd → t.getA r = s.getA r) ∧ t = { s with a := t.a, pc := s.pc + 1, instret := s.instret + 1 }) ∧
    (∀ imm : Imm16, ∃ t, exec (.aaddi rd ra imm) s = .next t ∧
      ((t.getA rd).toNat : Int) = ((s.getA ra).toNat + imm.toInt) % 2 ^ 32 ∧
      (∀ r, r ≠ rd → t.getA r = s.getA r) ∧ t = { s with a := t.a, pc := s.pc + 1, instret := s.instret + 1 }) ∧
    (∀ imm : Imm16, ∃ t, exec (.dbnz rd imm) s = .next t ∧
      ((t.getA rd).toNat : Int) = ((s.getA rd).toNat - 1) % 2 ^ 32 ∧
      (∀ r, r ≠ rd → t.getA r = s.getA r) ∧
      t = { s with
        a := t.a, pc := if (s.getA rd).toNat = 1 then s.pc + 1 else s.pc + imm, instret := s.instret + 1 })

/-- R259: `LD` fills `B[rd]` with the 8·N bytes at the effective address, little-endian. -/
def Obligations.Load : Prop :=
  ∀ (s : State) (rd ra : RegNum) (imm : Imm16),
    let ea := (s.effectiveAddress ra imm).toNat
    ea % 8 = 0 → ea + 8 * s.params.n ≤ s.params.dmemb →
    ∃ t, exec (.ld rd ra imm) s = .next t ∧ Completes s t [rd] [] 0 0 (s.pc + 1) ∧
      t.getB rd = s.memRead ea (8 * s.params.n) ∧
      ∀ k < 8 * s.params.n, t.getB rd / 2 ^ (8 * k) % 2 ^ 8 = (s.readByte (ea + k)).toNat

/-- R260: `ST` writes the 8·N bytes of `B[rd]` at the effective address and no other byte. -/
def Obligations.Store : Prop :=
  ∀ (s : State) (rd ra : RegNum) (imm : Imm16),
    let ea := (s.effectiveAddress ra imm).toNat
    ea % 8 = 0 → ea + 8 * s.params.n ≤ s.params.dmemb →
    ∃ t, exec (.st rd ra imm) s = .next t ∧
      (∀ k < 8 * s.params.n, t.readByte (ea + k) = BitVec.ofNat 8 (s.getB rd / 2 ^ (8 * k))) ∧
      (∀ addr, addr < ea ∨ ea + 8 * s.params.n ≤ addr → t.readByte addr = s.readByte addr) ∧
      t = { s with dmem := t.dmem, pc := s.pc + 1, instret := s.instret + 1 }

/-- R92, R340: a load after a store returns, for every byte, the stored byte where the two overlap and the earlier byte
elsewhere; at the same address it returns the stored register. -/
def Obligations.LoadSeesStore : Prop :=
  ∀ (s : State) (rs rd ra rb : RegNum) (imm imm' : Imm16),
    let ea := (s.effectiveAddress ra imm).toNat
    let eb := (s.effectiveAddress rb imm').toNat
    ea % 8 = 0 → ea + 8 * s.params.n ≤ s.params.dmemb → eb % 8 = 0 → eb + 8 * s.params.n ≤ s.params.dmemb →
    ∃ t u, exec (.st rs ra imm) s = .next t ∧ exec (.ld rd rb imm') t = .next u ∧
      (ea = eb → u.getB rd = s.getB rs) ∧
      ∀ k < 8 * s.params.n, u.getB rd / 2 ^ (8 * k) % 2 ^ 8 =
        if ea ≤ eb + k ∧ eb + k < ea + 8 * s.params.n then s.getB rs / 2 ^ (8 * (eb + k - ea)) % 2 ^ 8
        else (s.readByte (eb + k)).toNat

/-- R82: operand memory is little-endian, for reads and for writes, and a write touches its own bytes only. -/
def Obligations.ByteOrder : Prop :=
  ∀ (s : State) (addr n v : Nat),
    s.memRead addr n = ∑ k ∈ Finset.range n, (s.readByte (addr + k)).toNat * 2 ^ (8 * k) ∧
    (∀ k < n, (s.memWrite addr n v).readByte (addr + k) = BitVec.ofNat 8 (v / 2 ^ (8 * k))) ∧
    (∀ x, x < addr ∨ addr + n ≤ x → (s.memWrite addr n v).readByte x = s.readByte x)

/-! ### Big integers -/

/-- R141, R142: `BADD` and `BADC` deliver the sum modulo 2^XLEN with the lost bit in `CY`. -/
def Obligations.Addition : Prop :=
  ∀ (s : State) (rd ra rb : RegNum) (i : Instr) (carryIn : Bool),
    (i = .badd rd ra rb ∧ carryIn = false) ∨ (i = .badc rd ra rb ∧ carryIn = s.flag .cy) →
    ∃ t, exec i s = .next t ∧ Completes s t [rd] [.cy, .z] 0 0 (s.pc + 1) ∧
      t.getB rd < 2 ^ (64 * s.params.n) ∧
      t.getB rd + 2 ^ (64 * s.params.n) * (t.flag .cy).toNat = s.getB ra + s.getB rb + carryIn.toNat ∧
      t.flag .z = decide (t.getB rd = 0)

/-- R143, R144: `BSUB` and `BSBB` deliver the difference modulo 2^XLEN with `CY` = 1 exactly when it is negative. -/
def Obligations.Subtraction : Prop :=
  ∀ (s : State) (rd ra rb : RegNum) (i : Instr) (borrowIn : Bool),
    (i = .bsub rd ra rb ∧ borrowIn = false) ∨ (i = .bsbb rd ra rb ∧ borrowIn = s.flag .cy) →
    ∃ t, exec i s = .next t ∧ Completes s t [rd] [.cy, .z] 0 0 (s.pc + 1) ∧
      t.getB rd < 2 ^ (64 * s.params.n) ∧
      (t.getB rd : Int) = s.getB ra - s.getB rb - borrowIn.toNat + 2 ^ (64 * s.params.n) * (t.flag .cy).toNat ∧
      t.flag .cy = decide (s.getB ra < s.getB rb + borrowIn.toNat) ∧
      t.flag .z = decide (t.getB rd = 0)

/-- R145, R146, R148: `BCMP` writes `LT` and `EQ` by the unsigned order, `BTSTZ` writes `Z`, and neither writes a register;
`BSHR1` halves, with the lost bit in `CY`. -/
def Obligations.CompareTestShift : Prop :=
  ∀ (s : State) (rd ra rb : RegNum),
    (∃ t, exec (.bcmp ra rb) s = .next t ∧ Completes s t [] [.lt, .eq] 0 0 (s.pc + 1) ∧
      t.flag .lt = decide (s.getB ra < s.getB rb) ∧ t.flag .eq = decide (s.getB ra = s.getB rb)) ∧
    (∃ t, exec (.btstz ra) s = .next t ∧ Completes s t [] [.z] 0 0 (s.pc + 1) ∧
      t.flag .z = decide (s.getB ra = 0)) ∧
    (∃ t, exec (.bshr1 rd ra) s = .next t ∧ Completes s t [rd] [.cy, .z] 0 0 (s.pc + 1) ∧
      2 * t.getB rd + (t.flag .cy).toNat = s.getB ra ∧ t.flag .z = decide (t.getB rd = 0))

/-- R147: `BMULW` delivers the whole product, low half in `B[rd]`, high half in `B[rd+1]`. -/
def Obligations.WideProduct : Prop :=
  ∀ (s : State) (rd ra rb : RegNum), rd.val ≤ 14 →
    ∃ t, exec (.bmulw rd ra rb) s = .next t ∧ Completes s t [rd, rd + 1] [] 0 0 (s.pc + 1) ∧
      t.getB rd < 2 ^ (64 * s.params.n) ∧
      t.getB rd + 2 ^ (64 * s.params.n) * t.getB (rd + 1) = s.getB ra * s.getB rb

/-- R149 to R151: `BMOV` copies, `BLDI` loads its 20-bit immediate, `BCSEL` takes its first source when the selected flag is 1
and else its second; none writes a flag. -/
def Obligations.MoveImmediateSelect : Prop :=
  ∀ (s : State) (rd ra rb : RegNum),
    (∃ t, exec (.bmov rd ra) s = .next t ∧ Completes s t [rd] [] 0 0 (s.pc + 1) ∧ t.getB rd = s.getB ra) ∧
    (∀ imm : Imm20, 1 ≤ s.params.n → ∃ t, exec (.bldi rd imm) s = .next t ∧
      Completes s t [rd] [] 0 0 (s.pc + 1) ∧ t.getB rd = imm.toNat) ∧
    (∀ (f : Flag) (sel : FlagSel), (f, sel.val) ∈ flagSelectors → ∃ t, exec (.bcsel rd ra rb sel) s = .next t ∧
      Completes s t [rd] [] 0 0 (s.pc + 1) ∧ t.getB rd = if s.flag f = true then s.getB ra else s.getB rb)

/-- R153: `BADD` then `BADC`, and `BSUB` then `BSBB`, are arithmetic on 2·XLEN-bit integers held in pairs (lo, hi). -/
def Obligations.DoubleWidthChains : Prop :=
  ∀ (s : State) (lo hi a0 a1 b0 b1 : RegNum), lo ≠ hi → lo ≠ a1 → lo ≠ b1 →
    (∃ t u, exec (.badd lo a0 b0) s = .next t ∧ exec (.badc hi a1 b1) t = .next u ∧
      u.getB lo + s.radix * u.getB hi + s.radix ^ 2 * (u.flag .cy).toNat =
        (s.getB a0 + s.radix * s.getB a1) + (s.getB b0 + s.radix * s.getB b1)) ∧
    (∃ t u, exec (.bsub lo a0 b0) s = .next t ∧ exec (.bsbb hi a1 b1) t = .next u ∧
      ((u.getB lo : Int) + s.radix * u.getB hi) =
        (s.getB a0 + s.radix * s.getB a1) - (s.getB b0 + s.radix * s.getB b1) +
          s.radix ^ 2 * (u.flag .cy).toNat)

/-! ### The field -/

/-- R171, R32 to R35: `MODSET` latches an odd value ≥ 3 and derives the three constants; `INV` is the one number with its
property. -/
def Obligations.ModsetLatches : Prop :=
  ∀ (s : State) (ra : RegNum), s.modv = false → s.getB ra % 2 = 1 → 3 ≤ s.getB ra →
    ∃ t, exec (.modset ra) s = .next t ∧ t.FieldReady ∧
      t = { s with
        modv := true, mod := s.getB ra, inv := t.inv, rone := 2 ^ (64 * s.params.n) % s.getB ra
        rsq := 2 ^ (2 * (64 * s.params.n)) % s.getB ra, pc := s.pc + 1, instret := s.instret + 1 } ∧
      ∀ x < 2 ^ 64, (s.getB ra * x) % 2 ^ 64 = 2 ^ 64 - 1 → x = t.inv.toNat

/-- R174: `MontMul(a, b)` is the unique integer in [0, p) congruent to a·b·R⁻¹, and on stored values it is the stored
product; each call counts once. -/
def Obligations.MontgomeryProduct : Prop :=
  ∀ s : State, s.FieldReady → ∀ a b : Nat,
    (a < s.mod → b < s.mod →
      montMul s.ctx a b < s.mod ∧ montMul s.ctx a b * 2 ^ (64 * s.params.n) ≡ a * b [MOD s.mod] ∧
      (∀ v < s.mod, v * 2 ^ (64 * s.params.n) ≡ a * b [MOD s.mod] → v = montMul s.ctx a b)) ∧
    montMul s.ctx (a * 2 ^ (64 * s.params.n) % s.mod) (b * 2 ^ (64 * s.params.n) % s.mod) =
      a * b * 2 ^ (64 * s.params.n) % s.mod ∧
    (mont s.ctx a b).val = montMul s.ctx a b ∧ (mont s.ctx a b).calls = 1

/-- R175: `ExpCore(a, e)` is the stored value of x^e where a = m(x), with x^0 = 1, and makes 128·N calls whatever a and e
are. -/
def Obligations.ExponentiationEngine : Prop :=
  ∀ s : State, s.FieldReady → ∀ a e : Nat, a < s.mod → e < 2 ^ (64 * s.params.n) →
    (expCore s.ctx a e).val < s.mod ∧ s.trueValue (expCore s.ctx a e).val = s.trueValue a ^ e ∧
      (e = 0 → (expCore s.ctx a e).val = s.rone) ∧ (expCore s.ctx a e).calls = 128 * s.params.n

/-- R173, R178 to R180: `FADD`, `FSUB` and `FNEG` write the stored value of the sum, the difference and the negative, and
`Z`. -/
def Obligations.FieldAddSubNeg : Prop :=
  ∀ (s : State) (rd ra rb : RegNum), s.FieldReady → s.Stored [ra] →
    (s.Stored [rb] → ∃ t, exec (.fadd rd ra rb) s = .next t ∧ FieldResult s t rd [.z] (s.elem ra + s.elem rb) 0) ∧
    (s.Stored [rb] → ∃ t, exec (.fsub rd ra rb) s = .next t ∧ FieldResult s t rd [.z] (s.elem ra - s.elem rb) 0) ∧
    (∃ t, exec (.fneg rd ra) s = .next t ∧ FieldResult s t rd [.z] (-s.elem ra) 0)

/-- R181, R182, R185: `FMUL`, `FSQR` and `FEXP` write the stored value of the product, the square and the power, and `Z`;
the exponent is a raw integer. -/
def Obligations.FieldProductsPowers : Prop :=
  ∀ (s : State) (rd ra rb : RegNum), s.FieldReady → s.Stored [ra] →
    (s.Stored [rb] → ∃ t, exec (.fmul rd ra rb) s = .next t ∧ FieldResult s t rd [.z] (s.elem ra * s.elem rb) 1) ∧
    (∃ t, exec (.fsqr rd ra) s = .next t ∧ FieldResult s t rd [.z] (s.elem ra ^ 2) 1) ∧
    (∃ t, exec (.fexp rd ra rb) s = .next t ∧
      FieldResult s t rd [.z] (s.elem ra ^ s.getB rb) (128 * s.params.n))

/-- R183, R190: `FINV` writes the power p − 2, which for a prime modulus is the inverse; zero is reported in `NINV` and
`S_NINV` and writes nothing else; the count is the same. -/
def Obligations.FieldInverse : Prop :=
  ∀ (s : State) (rd ra : RegNum), s.FieldReady → s.Stored [ra] →
    (s.getB ra ≠ 0 → ∃ t, exec (.finv rd ra) s = .next t ∧
      FieldResult s t rd [.ninv, .z] (s.elem ra ^ (s.mod - 2)) (128 * s.params.n) ∧ t.flag .ninv = false ∧
      (s.mod.Prime → s.elem ra * s.trueValue (t.getB rd) = 1)) ∧
    (s.getB ra = 0 → ∃ t, exec (.finv rd ra) s = .next t ∧
      Completes s t [] [.ninv] 0b00001#5 (128 * s.params.n) (s.pc + 1) ∧ t.flag .ninv = true)

/-- R184: `FSQRT` writes the power (p + 1)/4 when its square is the operand, which for a prime modulus is so exactly when
the operand is a square; otherwise it reports in `NSQR` and `S_NSQR` and writes nothing else. -/
def Obligations.FieldRoot : Prop :=
  ∀ (s : State) (rd ra : RegNum), s.FieldReady → s.Stored [ra] → s.mod % 4 = 3 →
    let root := s.elem ra ^ ((s.mod + 1) / 4)
    (root ^ 2 = s.elem ra → ∃ t, exec (.fsqrt rd ra) s = .next t ∧
      FieldResult s t rd [.nsqr, .z] root (128 * s.params.n + 1) ∧ t.flag .nsqr = false) ∧
    (root ^ 2 ≠ s.elem ra → ∃ t, exec (.fsqrt rd ra) s = .next t ∧
      Completes s t [] [.nsqr] 0b00010#5 (128 * s.params.n + 1) (s.pc + 1) ∧ t.flag .nsqr = true) ∧
    (s.mod.Prime → (root ^ 2 = s.elem ra ↔ IsSquare (s.elem ra)))

/-- R186: `FTOM` converts a value below the modulus; a value ≥ the modulus, the modulus itself among them, is reported in
`RNG` and `S_RNG` without a call of the multiplier, and writes nothing else. -/
def Obligations.ToMontgomery : Prop :=
  ∀ (s : State) (rd ra : RegNum), s.FieldReady →
    (s.getB ra < s.mod → ∃ t, exec (.ftom rd ra) s = .next t ∧
      FieldResult s t rd [.rng, .z] (s.getB ra : ZMod s.mod) 1 ∧ t.flag .rng = false) ∧
    (s.mod ≤ s.getB ra → ∃ t, exec (.ftom rd ra) s = .next t ∧
      Completes s t [] [.rng] 0b00100#5 0 (s.pc + 1) ∧ t.flag .rng = true)

/-- R187, R188: `FFRM` writes the canonical integer of the element; `FFRM` of `FTOM` of x returns x, for every x below the
modulus; `FONE` writes `RONE`, the element 1, with `Z` = 0. -/
def Obligations.FromMontgomeryAndOne : Prop :=
  ∀ (s : State) (rd ra : RegNum), s.FieldReady →
    (s.Stored [ra] → ∃ t, exec (.ffrm rd ra) s = .next t ∧ Completes s t [rd] [.z] 0 1 (s.pc + 1) ∧
      t.getB rd < s.mod ∧ (t.getB rd : ZMod s.mod) = s.elem ra ∧ t.flag .z = decide (t.getB rd = 0)) ∧
    (∀ rm, s.getB ra < s.mod →
      ∃ t u, exec (.ftom rm ra) s = .next t ∧ exec (.ffrm rd rm) t = .next u ∧ u.getB rd = s.getB ra) ∧
    (∃ t, exec (.fone rd) s = .next t ∧ FieldResult s t rd [.z] 1 0 ∧ t.getB rd = s.rone ∧ t.flag .z = false)

/-- R189: two stored values stand for one element exactly when they are equal; addition and multiplication are associative
and commutative and multiplication distributes over addition, for every modulus; for a prime modulus `FINV`'s power of a
value that is not 0 is its inverse. -/
def Obligations.FieldLaws : Prop :=
  ∀ s : State, s.FieldReady → ∀ a < s.mod, ∀ b < s.mod, ∀ c < s.mod,
    (s.trueValue a = s.trueValue b ↔ a = b) ∧
    fadd s.ctx (fadd s.ctx a b) c = fadd s.ctx a (fadd s.ctx b c) ∧ fadd s.ctx a b = fadd s.ctx b a ∧
    montMul s.ctx (montMul s.ctx a b) c = montMul s.ctx a (montMul s.ctx b c) ∧ montMul s.ctx a b = montMul s.ctx b a ∧
    montMul s.ctx a (fadd s.ctx b c) = fadd s.ctx (montMul s.ctx a b) (montMul s.ctx a c) ∧
    (s.mod.Prime → a ≠ 0 → montMul s.ctx a (expCore s.ctx a (s.mod - 2)).val = s.rone)

/-! ### The curve -/

/-- R214: `CRVSET` loads the curve context, also when one is loaded already, and changes nothing else. -/
def Obligations.CrvsetLoads : Prop :=
  ∀ (s : State) (ra rb rc : RegNum), s.FieldReady → s.Stored [ra, rb] →
    ∃ t, exec (.crvset ra rb rc) s = .next t ∧ t.CurveReady ∧
      t = { s with
        crvv := true, curveA := s.getB ra, curveB := s.getB rb, order := s.getB rc
        pc := s.pc + 1, instret := s.instret + 1 }

/-- R211, R216: `PDBL` writes the double by the Jacobian formulas, canonical when it is infinity. -/
def Obligations.PointDouble : Prop :=
  ∀ (s : State) (rd ra : RegNum), s.CurveReady → rd.val ≤ 13 → ra.val ≤ 13 → s.Stored (tripleRegs ra) →
    ∃ t p, exec (.pdbl rd ra) s = .next t ∧ PointResult s t rd p 10 ∧ s.IsDouble (s.getP ra) p

/-- R212, R215: `PADD` writes the value of the five-way select: the second operand when the first is infinity, the first
when the second is, the double of equal points, infinity for opposite points, else the generic sum. -/
def Obligations.PointAdd : Prop :=
  ∀ (s : State) (rd ra rb : RegNum), s.CurveReady → rd.val ≤ 13 → ra.val ≤ 13 → rb.val ≤ 13 →
    s.Stored (tripleRegs ra) → s.Stored (tripleRegs rb) →
    ∃ t p, exec (.padd rd ra rb) s = .next t ∧ PointResult s t rd p 26 ∧ s.IsSum (s.getP ra) (s.getP rb) p

/-- R216: `PDBL Pd, Pa` and `PADD Pd, Pa, Pa` leave the same state but for `MULCNT`. -/
def Obligations.DoubleIsSelfSum : Prop :=
  ∀ (s : State) (rd ra : RegNum), s.CurveReady → rd.val ≤ 13 → ra.val ≤ 13 → s.Stored (tripleRegs ra) →
    ∃ t u, exec (.pdbl rd ra) s = .next t ∧ exec (.padd rd ra ra) s = .next u ∧
      t.instret = s.instret + 1 ∧ u.instret = s.instret + 1 ∧ u = { t with mulcnt := u.mulcnt }

/-- R213, R217: `PMUL` writes the one triple that the schedule of windows gives, for every scalar and every operand, on the
curve or not and over any modulus: values below the modulus, canonical when it is infinity, with the same count for every
point and scalar; the scalars 0 and 1 and the operand infinity as the rule lists them. -/
def Obligations.ScalarMultiple : Prop :=
  ∀ (s : State) (rd ra rb : RegNum), s.CurveReady → rd.val ≤ 13 → ra.val ≤ 13 → s.Stored (tripleRegs ra) →
    ∃ t p, exec (.pmul rd ra rb) s = .next t ∧ PointResult s t rd p (364 + 1056 * s.params.n) ∧
      s.IsMultiple (s.getP ra) (s.getB rb) p ∧ (∀ q, s.IsMultiple (s.getP ra) (s.getB rb) q → q = p) ∧ s.PointBelow p ∧
      (p.z = 0 → p = s.infinityPoint) ∧
      (s.getB rb = 0 ∨ (s.getP ra).z = 0 → p = s.infinityPoint) ∧
      (s.getB rb = 1 → (s.getP ra).z ≠ 0 → p = s.getP ra)

/-- R222, R212, R211: over a prime modulus `PADD` and `PDBL` are the group law of the curve's points. -/
def Obligations.GroupSum : Prop :=
  ∀ (s : State) [Fact s.mod.Prime] (rd ra rb : RegNum) (g h : s.curve.Point), s.CurveReady → rd.val ≤ 13 →
    ra.val ≤ 13 → rb.val ≤ 13 → s.Stored (tripleRegs ra) → s.Stored (tripleRegs rb) →
    s.Represents (s.getP ra) g → s.Represents (s.getP rb) h →
    ∃ t u, exec (.padd rd ra rb) s = .next t ∧ s.Represents (t.getP rd) (g + h) ∧
      exec (.pdbl rd ra) s = .next u ∧ s.Represents (u.getP rd) (g + g)

/-- R213, R217: over a prime modulus `PMUL` is the group element k·P for the integer k of the scalar register. -/
def Obligations.GroupMultiple : Prop :=
  ∀ (s : State) [Fact s.mod.Prime] (rd ra rb : RegNum) (g : s.curve.Point), s.CurveReady → rd.val ≤ 13 →
    ra.val ≤ 13 → s.Stored (tripleRegs ra) → s.Represents (s.getP ra) g →
    ∃ t, exec (.pmul rd ra rb) s = .next t ∧ s.Represents (t.getP rd) (s.getB rb • g)

/-- R219, R339: `PSGC` writes `IVP` and its sticky bit alone; it passes exactly when the triple that R213 gives for the
scalar `ORDER` has Z = 0, for every operand, on the curve or not; infinity and an `ORDER` of 0 pass; over a prime modulus a
point of the curve passes exactly when ORDER·P is the identity. -/
def Obligations.SubgroupTest : Prop :=
  ∀ (s : State) (ra : RegNum), s.CurveReady → ra.val ≤ 13 → s.Stored (tripleRegs ra) →
    ∃ t, exec (.psgc ra) s = .next t ∧
      Completes s t [] [.ivp] (if t.flag .ivp = true then 0b01000#5 else 0) (364 + 1056 * s.params.n) (s.pc + 1) ∧
      (∃ q, s.IsMultiple (s.getP ra) s.order q ∧ (t.flag .ivp = true ↔ q.z ≠ 0)) ∧
      (s.order = 0 ∨ (s.getP ra).z = 0 → t.flag .ivp = false) ∧
      ∀ [Fact s.mod.Prime] (g : s.curve.Point), s.Represents (s.getP ra) g →
        (t.flag .ivp = false ↔ s.order • g = 0)

/-- R218: `PONC` writes `IVP` and its sticky bit alone; a triple passes exactly when Z = 0 or the Jacobian equation
holds. -/
def Obligations.OnCurveTest : Prop :=
  ∀ (s : State) (ra : RegNum), s.CurveReady → ra.val ≤ 13 → s.Stored (tripleRegs ra) →
    ∃ t, exec (.ponc ra) s = .next t ∧
      Completes s t [] [.ivp] (if t.flag .ivp = true then 0b01000#5 else 0) 9 (s.pc + 1) ∧
      (t.flag .ivp = false ↔
        s.getB (ra + 2) = 0 ∨ s.elem (ra + 1) ^ 2 =
          s.elem ra ^ 3 + s.trueValue s.curveA * s.elem ra * s.elem (ra + 2) ^ 4 +
            s.trueValue s.curveB * s.elem (ra + 2) ^ 6)

/-- R220: `PAFF` writes canonical infinity for Z = 0; else the affine point with Z = `RONE`, by the power p − 2 of Z, which
for a prime modulus is its inverse; a triple with Z = `RONE` is returned unchanged. -/
def Obligations.AffineForm : Prop :=
  ∀ (s : State) (rd ra : RegNum), s.CurveReady → rd.val ≤ 13 → ra.val ≤ 13 → s.Stored (tripleRegs ra) →
    ∃ t p, exec (.paff rd ra) s = .next t ∧ PointResult s t rd p (128 * s.params.n + 4) ∧
      (let q := s.getP ra
       let zi := s.trueValue q.z ^ (s.mod - 2)
       (q.z = 0 → p = s.infinityPoint) ∧
       (q.z ≠ 0 → s.PointBelow p ∧ p.z = s.rone ∧ s.trueValue p.x = s.trueValue q.x * zi ^ 2 ∧
         s.trueValue p.y = s.trueValue q.y * zi ^ 3 ∧ (s.mod.Prime → s.trueValue q.z * zi = 1)) ∧
       (q.z = s.rone → p = q))

/-- R221: `PEQ` writes `EQ` alone, by the cross-multiplied coordinates; over a prime modulus two triples of the curve are
equal exactly when they stand for the same point. -/
def Obligations.PointEquality : Prop :=
  ∀ (s : State) (ra rb : RegNum), s.CurveReady → ra.val ≤ 13 → rb.val ≤ 13 → s.Stored (tripleRegs ra) →
    s.Stored (tripleRegs rb) →
    ∃ t, exec (.peq ra rb) s = .next t ∧ Completes s t [] [.eq] 0 8 (s.pc + 1) ∧
      (let p := s.getP ra
       let q := s.getP rb
       t.flag .eq = true ↔ (p.z = 0 ∧ q.z = 0) ∨
         (p.z ≠ 0 ∧ q.z ≠ 0 ∧ jacH (s.jac p) (s.jac q) = 0 ∧ jacR (s.jac p) (s.jac q) = 0)) ∧
      ∀ [Fact s.mod.Prime] (g h : s.curve.Point), s.Represents (s.getP ra) g → s.Represents (s.getP rb) h →
        (t.flag .eq = true ↔ g = h)

/-! ### Counters, invariants, reset, the host -/

/-- R341, R191, R223: the `MontMul` calls of a completed command depend on N and the command alone (but for the range test
of `FTOM`), so two runs of one command that both complete leave the same counters. -/
def Obligations.ConstantStructure : Prop :=
  (∀ (i : Instr) (s t : State), s.run = .running → exec i s = .next t → t.run ≠ .faulted →
    (∀ rd ra, i = .ftom rd ra → s.getB ra < s.mod) →
    t.mulcnt = s.mulcnt + BitVec.ofNat 64 (multiplications s.params.n i) ∧ t.instret = s.instret + 1) ∧
  (∀ (i : Instr) (s s' t t' : State), s.run = .running → s'.run = .running → exec i s = .next t → exec i s' = .next t' →
    t.run ≠ .faulted → t'.run ≠ .faulted → s.params = s'.params → s.mulcnt = s'.mulcnt → s.instret = s'.instret →
    (∀ rd ra, i = .ftom rd ra → (s.mod ≤ s.getB ra ↔ s'.mod ≤ s'.getB ra)) →
    t.mulcnt = t'.mulcnt ∧ t.instret = t'.instret)

/-- The invariant: legal parameters, canonical memories within their sizes, registers below 2^XLEN, the context as R32 to
R36 allow it, and a fault record that is empty exactly outside FAULTED. Every step keeps it. -/
def Obligations.StepKeepsLegal : Prop := ∀ s t : State, s.Legal → step s = .next t → t.Legal

/-- The state after a hard reset, of the reference parameters and of any legal ones, is legal. -/
def Obligations.ResetLegal : Prop :=
  State.reset.Legal ∧ ∀ (p : Params) (epoch : Nat), p.wf → (State.hardResetState p epoch).Legal

/-- R331: a write of `CTRL` with `SRST`, in any `STATE`, resets every register and keeps both memories. -/
def Obligations.SoftReset : Prop :=
  ∀ (s : State) (v : Word) (rest : List Turn), s.turns = .host (.write 4 0x0010 v) :: rest → s.resetInput = false →
    v.getLsbD 1 = true →
    ∃ t, step s = .next t ∧ t.AtReset ∧ t.params = s.params ∧ (∀ addr, t.readByte addr = s.readByte addr) ∧
      ∀ k, t.fetchWord k = s.fetchWord k

/-- R330, R45: asserting the reset input, in any `STATE`, resets every register; in every state in which it is asserted the
sequencer takes no step and every host access is refused with a bus error and without `HOSTERR`; released, the registers
hold what they held. In the run of four turns at the end they hold the reset values. The datum 0 of a refused write is log
entry 11; that asserting resets at once and asserting again changes nothing is log entry 9, the order of turns entry 4. -/
def Obligations.HardReset : Prop :=
  (∀ (s : State) (rest : List Turn), s.resetInput = false → s.turns = .assertReset :: rest →
    ∃ t, step s = .next t ∧ t.AtReset ∧ t.params = s.params ∧ t.resetInput = true ∧ t.turns = rest) ∧
  (∀ s : State, s.resetInput = true →
    (s.turns = [] → step s = .next s) ∧
    ∀ rest,
      (s.turns = .sequencer :: rest ∨ s.turns = .assertReset :: rest → step s = .next { s with turns := rest }) ∧
      (∀ a, s.turns = .host a :: rest → step s = .next { s with
        turns := rest, response := some { busError := true, data := 0 } }) ∧
      (s.turns = .releaseReset :: rest → step s = .next { s with turns := rest, resetInput := false })) ∧
  (∀ (s : State) (a : HostAccess), s.resetInput = false →
    s.turns = [.assertReset, .sequencer, .host a, .releaseReset] →
    ∃ t u v w, step s = .next t ∧ t.AtReset ∧ t.params = s.params ∧ t.resetInput = true ∧
      step t = .next u ∧ u = { t with turns := u.turns } ∧
      step u = .next v ∧ v = { u with turns := v.turns, response := v.response } ∧
      v.response = some { busError := true, data := 0 } ∧
      step v = .next w ∧ w.AtReset ∧ w.resetInput = false ∧ w.params = s.params)

/-- R37, R293: the transitions of `STATE`, all of them; so nothing leaves FAULTED but a reset. -/
def Obligations.StateTransitions : Prop :=
  ∀ s t : State, step s = .next t →
    t.run = s.run ∨
    (s.run ∈ [.idle, .done] ∧ t.run = .running ∧
      ∃ v rest, s.turns = .host (.write 4 0x0010 v) :: rest ∧ v.getLsbD 0 = true ∧ v.getLsbD 1 = false) ∨
    (s.run = .running ∧ t.run = .done ∧ decode (s.fetchWord s.pc.toNat) = .ok .halt) ∨
    (s.run = .running ∧ t.run = .faulted ∧ t.cause ≠ .noFault ∧ t.epc = s.pc) ∨
    (s.ResetTurn ∧ t.run = .idle)

/-- R332: between two resets the latched modulus and its constants never change. -/
def Obligations.ModulusWriteOnce : Prop :=
  ∀ s t : State, step s = .next t → s.modv = true → ¬ s.ResetTurn →
    t.modv = true ∧ t.mod = s.mod ∧ t.inv = s.inv ∧ t.rone = s.rone ∧ t.rsq = s.rsq

/-- R31, R39, R95, R300: no command writes command memory, the parameters or `IEN`, clears a bit of `ERRS` or `IP`, or
touches `HOSTERR`; only `MODSET` and `CRVSET` write the field and curve context. -/
def Obligations.CommandsKeepHostState : Prop :=
  ∀ (i : Instr) (s t : State), exec i s = .next t →
    (∀ k, t.fetchWord k = s.fetchWord k) ∧ t.params = s.params ∧ t.ien = s.ien ∧
    s.errs &&& t.errs = s.errs ∧ t.errs.getLsbD 4 = s.errs.getLsbD 4 ∧ s.ip &&& t.ip = s.ip ∧
    t.resetInput = s.resetInput ∧ t.turns = s.turns ∧
    ((∀ ra, i ≠ .modset ra) →
      t.modv = s.modv ∧ t.mod = s.mod ∧ t.inv = s.inv ∧ t.rone = s.rone ∧ t.rsq = s.rsq) ∧
    ((∀ ra rb rc, i ≠ .crvset ra rb rc) →
      t.crvv = s.crvv ∧ t.curveA = s.curveA ∧ t.curveB = s.curveB ∧ t.order = s.order)

/-- R44, R45: a refused access sets `HOSTERR`, answers a bus error with the datum 0 and changes nothing else; an access that
R45 does not refuse is answered without a bus error, a read then changes nothing, and a write of a read-only register is
ignored. (A refused START is R42's.) -/
def Obligations.HostRefusals : Prop :=
  ∀ (s : State) (a : HostAccess) (rest : List Turn), s.turns = .host a :: rest → s.resetInput = false →
    (s.Refuses a → step s = .next { s with
      turns := rest, errs := s.errs ||| 0b10000#5, response := some { busError := true, data := 0 } }) ∧
    (∀ width off, a = .read width off → ¬ s.Refuses a →
      ∃ v, step s = .next { s with turns := rest, response := some { busError := false, data := v } }) ∧
    (∀ width off v, a = .write width off v → ¬ s.Refuses a → off ≠ 0x0010 →
      ∃ t, step s = .next t ∧ t.response = some { busError := false, data := 0 } ∧ t.turns = rest ∧
        (off < 0x0018 ∨ (0x002C ≤ off ∧ off < 0x0100) ∨ (0x0800 ≤ off ∧ off < 0x1000) →
          t = { s with turns := rest, response := t.response }))

/-- R42: `CTRL` reads as 0; START from IDLE and DONE sets RUNNING and nothing else, from RUNNING and FAULTED it sets
`HOSTERR` and nothing else; SRST resets in any `STATE` and wins over START; the other bits are ignored. That
`CTRL` is read while RUNNING too is log entry 7. -/
def Obligations.StartControl : Prop :=
  ∀ (s : State) (rest : List Turn), s.resetInput = false →
    (s.turns = .host (.read 4 0x0010) :: rest →
      step s = .next { s with turns := rest, response := some { busError := false, data := 0 } }) ∧
    ∀ v : Word, s.turns = .host (.write 4 0x0010 v) :: rest → ∃ t, step s = .next t ∧
      (v.getLsbD 1 = true → t = { s.softReset with turns := rest, response := t.response }) ∧
      (v.getLsbD 1 = false → v.getLsbD 0 = true → s.run = .idle ∨ s.run = .done →
        t = { s with run := .running, turns := rest, response := t.response }) ∧
      (v.getLsbD 1 = false → v.getLsbD 0 = true → s.run = .running ∨ s.run = .faulted →
        t = { s with errs := s.errs ||| 0b10000#5, turns := rest, response := t.response }) ∧
      (v.getLsbD 1 = false → v.getLsbD 0 = false → t = { s with turns := rest, response := t.response })

/-- R41, R43: what the identification registers and `STATUS` read as, in any `STATE`, and that writes to them are
ignored (R44, R45). That they are read while RUNNING too is log entry 7. -/
def Obligations.StatusAndIdentification : Prop :=
  ∀ (s : State) (rest : List Turn), s.resetInput = false → s.params.wf →
    (∀ off, s.turns = .host (.read 4 off) :: rest → off ∈ [0x0000, 0x0004, 0x0008, 0x000C, 0x0014] →
      ∃ v : Word, step s = .next { s with turns := rest, response := some { busError := false, data := v } } ∧
        (off = 0x0000 → v = 0x4B535631#32) ∧
        (off = 0x0004 → v.toNat = s.params.n + 16 * 2 ^ 8 + 16 * 2 ^ 16) ∧
        (off = 0x0008 → v.toNat = s.params.imemw) ∧
        (off = 0x000C → v.toNat = s.params.dmemb) ∧
        (off = 0x0014 →
          v.toNat % 4 = (match s.run with | .idle => 0 | .running => 1 | .done => 2 | .faulted => 3) ∧
          v.getLsbD 2 = s.modv ∧ v.getLsbD 3 = s.crvv ∧
          v.getLsbD 4 = ((s.ip.getLsbD 0 && s.ien.getLsbD 0) || (s.ip.getLsbD 1 && s.ien.getLsbD 1)) ∧
          v.toNat < 2 ^ 5)) ∧
    (∀ off v, s.turns = .host (.write 4 off v) :: rest → off ∈ [0x0000, 0x0004, 0x0008, 0x000C, 0x0014] →
      ∃ t, step s = .next t ∧ t = { s with turns := rest, response := t.response })

/-- R26, R29, R31, R38 to R40, R25, R47: what the control registers, the fault record, the counters, the A window and the
context windows read as, and what a write of each writable one changes. `ERRS` and `IP` are cleared by writing one; each flag has
its bit of `FLAGS` and each cause its code (R281). That the registers below 0x0100 are read while RUNNING is log entry 7. -/
def Obligations.ControlRegisterWindow : Prop :=
  ∀ (s : State) (rest : List Turn) (r : RegNum) (v : Word), s.resetInput = false →
    (∀ f k, (f, k) ∈ flagSelectors → (s.flags.setWidth 32 : Word).getLsbD k = s.flag f) ∧
    (∀ off data, s.turns = .host (.read 4 off) :: rest →
      (off, data) ∈ ([(0x0018, s.ien.setWidth 32), (0x001C, s.ip.setWidth 32), (0x0020, s.pc.setWidth 32),
        (0x0024, s.flags.setWidth 32), (0x0028, s.errs.setWidth 32),
        (0x002C, match s.cause with
          | .noFault => 0 | .illegalCommand => 1 | .ifetchRange => 2 | .memMisaligned => 3 | .memRange => 4
          | .noModulus => 5 | .modulusLocked => 6 | .badModulus => 7 | .operandRange => 8 | .noCurve => 9
          | .sqrtModulus => 10),
        (0x0030, s.epc.setWidth 32), (0x0034, s.einfo), (0x0038, s.mulcnt.extractLsb' 0 32),
        (0x003C, s.mulcnt.extractLsb' 32 32), (0x0040, s.instret.extractLsb' 0 32),
        (0x0044, s.instret.extractLsb' 32 32)] : List (Nat × Word)) ∨
      s.run ≠ .running ∧ (off, data) ∈ ([(0x0100 + 4 * r.val, s.getA r), (0x0B00, s.inv.extractLsb' 0 32),
        (0x0B04, s.inv.extractLsb' 32 32)] : List (Nat × Word)) →
      step s = .next { s with turns := rest, response := some { busError := false, data := data } }) ∧
    (∀ base value j h, (base, value) ∈ [(0x0800, s.mod), (0x0880, s.rone), (0x0900, s.rsq), (0x0980, s.curveA),
        (0x0A00, s.curveB), (0x0A80, s.order)] → j ≤ 15 → h ≤ 1 → s.run ≠ .running →
      s.turns = .host (.read 4 (base + 8 * j + 4 * h)) :: rest →
      step s = .next { s with turns := rest, response := some {
        busError := false, data := if j < s.params.n then BitVec.ofNat 32 (value / 2 ^ (64 * j + 32 * h)) else 0 } }) ∧
    (∀ off, s.turns = .host (.write 4 off v) :: rest → ∃ t, step s = .next t ∧
      (off = 0x0018 → t = { s with ien := v.extractLsb' 0 2, turns := rest, response := t.response }) ∧
      (off = 0x001C → t = { s with ip := s.ip &&& ~~~v.extractLsb' 0 2, turns := rest, response := t.response }) ∧
      (s.run ≠ .running →
        (off = 0x0020 → t = { s with pc := v.extractLsb' 0 16, turns := rest, response := t.response }) ∧
        (off = 0x0024 → t = { s with flags := v.extractLsb' 0 9, turns := rest, response := t.response }) ∧
        (off = 0x0028 →
          t = { s with errs := s.errs &&& ~~~v.extractLsb' 0 5, turns := rest, response := t.response }) ∧
        (off = 0x0100 + 4 * r.val → t.getA r = v ∧ (∀ q, q ≠ r → t.getA q = s.getA q) ∧
          t = { s with a := t.a, turns := rest, response := t.response })))

/-- R46: the B window. The 32-bit word h of limb j of `B[i]` is at 0x1000 + 0x80·i + 8·j + 4·h; limbs j ≥ N read 0 and
ignore writes; a write changes only those 32 bits of that register. -/
def Obligations.BigRegisterWindow : Prop :=
  ∀ (s : State) (rest : List Turn) (i : RegNum) (j h : Nat), s.resetInput = false → s.run ≠ .running → j ≤ 15 → h ≤ 1 →
    let off := 0x1000 + 0x80 * i.val + 8 * j + 4 * h
    (s.turns = .host (.read 4 off) :: rest →
      step s = .next { s with turns := rest, response := some {
        busError := false
        data := if j < s.params.n then BitVec.ofNat 32 (s.getB i / 2 ^ (64 * j + 32 * h)) else 0 } }) ∧
    (∀ v : Word, s.turns = .host (.write 4 off v) :: rest → ∃ t, step s = .next t ∧
      t = { s with b := t.b, turns := rest, response := t.response } ∧ (∀ r, r ≠ i → t.getB r = s.getB r) ∧
      (s.params.n ≤ j → t.getB i = s.getB i) ∧
      (j < s.params.n → ∀ k, (t.getB i).testBit k =
        if 64 * j + 32 * h ≤ k ∧ k < 64 * j + 32 * h + 32 then v.getLsbD (k - (64 * j + 32 * h))
        else (s.getB i).testBit k))

/-- R48, R49, R84: the memory windows. A host write changes one command word, or four bytes of operand memory in
little-endian order; a read returns them; four bytes inside a big integer are its bits 32m+31 : 32m. -/
def Obligations.MemoryWindows : Prop :=
  ∀ (s : State) (rest : List Turn), s.resetInput = false → s.run ≠ .running →
    (∀ (k : Nat) (v : Word), k < s.params.imemw → s.params.imemw ≤ 65536 →
      (s.turns = .host (.write 4 (0x10000 + 4 * k) v) :: rest → ∃ t, step s = .next t ∧
        (∀ m, t.fetchWord m = if m = k then v else s.fetchWord m) ∧
        t = { s with imem := t.imem, turns := rest, response := t.response }) ∧
      (s.turns = .host (.read 4 (0x10000 + 4 * k)) :: rest →
        step s = .next { s with turns := rest, response := some { busError := false, data := s.fetchWord k } })) ∧
    (∀ (addr : Nat) (v : Word), addr % 4 = 0 → addr + 4 ≤ s.params.dmemb → s.params.imemw ≤ 65536 →
      (s.turns = .host (.write 4 (0x100000 + addr) v) :: rest → ∃ t, step s = .next t ∧
        (∀ x, t.readByte x =
          if addr ≤ x ∧ x < addr + 4 then BitVec.ofNat 8 (v.toNat / 2 ^ (8 * (x - addr))) else s.readByte x) ∧
        t = { s with dmem := t.dmem, turns := rest, response := t.response }) ∧
      (s.turns = .host (.read 4 (0x100000 + addr)) :: rest → ∃ w : Word,
        step s = .next { s with turns := rest, response := some { busError := false, data := w } } ∧
        (∀ k < 4, w.toNat / 2 ^ (8 * k) % 2 ^ 8 = (s.readByte (addr + k)).toNat) ∧
        ∀ base m, addr = base + 4 * m → m < 2 * s.params.n →
          w.toNat = s.memRead base (8 * s.params.n) / 2 ^ (32 * m) % 2 ^ 32))
end

