-- ==== Sys2Proof/Laws/Memory.lean ====
section
/-! SUPPORT. The laws of memory: reading what was written, leaving every other address alone, keeping the canonical form,
and the little-endian image of a number. -/

namespace Sys2Proof.Machine

variable {w : Nat}

/-- Reading after a write: the written address holds the content, every other address is as before. -/
theorem Memory.lookup_store (m : Memory w) (a k : Nat) (v : BitVec w) :
    (m.store a v).lookup k = if k = a then some v else m.lookup k := by
  induction m with
  | nil =>
    by_cases h : a = k
    · simp [Memory.store, Memory.lookup, h]
    · have h' : k ≠ a := fun e => h e.symm
      simp [Memory.store, Memory.lookup, h, h']
  | cons x m ih =>
    obtain ⟨j, y⟩ := x
    unfold Memory.store
    by_cases h1 : a < j
    · rw [if_pos h1]
      by_cases h : a = k
      · simp [Memory.lookup, h]
      · have h' : k ≠ a := fun e => h e.symm
        rw [Memory.lookup, if_neg h, if_neg h']
    · rw [if_neg h1]
      by_cases h2 : a = j
      · rw [if_pos h2]
        by_cases h : a = k
        · simp [Memory.lookup, h]
        · have h' : k ≠ a := fun e => h e.symm
          have h'' : j ≠ k := fun e => h (h2.trans e)
          rw [Memory.lookup, if_neg h, if_neg h', Memory.lookup, if_neg h'']
      · rw [if_neg h2, Memory.lookup, ih, Memory.lookup]
        by_cases h : j = k
        · have h' : k ≠ a := fun e => h2 (e.symm.trans h.symm)
          simp [h, h']
        · simp [h]

/-- Every address that a write lists is the written one or was listed before. -/
theorem Memory.mem_store {m : Memory w} {a : Nat} {v : BitVec w} {x : Nat × BitVec w} (hx : x ∈ m.store a v) :
    x.1 = a ∨ x ∈ m := by
  induction m with
  | nil => simp [Memory.store] at hx; simp [hx]
  | cons y m ih =>
    obtain ⟨j, z⟩ := y
    unfold Memory.store at hx
    split_ifs at hx with h1 h2
    · rcases List.mem_cons.1 hx with rfl | h
      · exact .inl rfl
      · exact .inr h
    · rcases List.mem_cons.1 hx with rfl | h
      · exact .inl rfl
      · exact .inr (List.mem_cons_of_mem _ h)
    · rcases List.mem_cons.1 hx with rfl | h
      · exact .inr (by simp)
      · exact (ih h).imp id (List.mem_cons_of_mem _)

/-- A write keeps the canonical form. -/
theorem Memory.store_wf {m : Memory w} (h : m.wf) (a : Nat) (v : BitVec w) : (m.store a v).wf := by
  induction m with
  | nil => simp [Memory.store, Memory.wf]
  | cons y m ih =>
    obtain ⟨j, z⟩ := y
    obtain ⟨hj, hm⟩ := List.pairwise_cons.1 h
    unfold Memory.store
    split_ifs with h1 h2
    · refine List.pairwise_cons.2 ⟨fun x hx => ?_, h⟩
      rcases List.mem_cons.1 hx with rfl | hx
      · exact h1
      · exact lt_trans h1 (hj x hx)
    · exact List.pairwise_cons.2 ⟨fun x hx => by have := hj x hx; simp only at this ⊢; omega, hm⟩
    · refine List.pairwise_cons.2 ⟨fun x hx => ?_, ih hm⟩
      rcases Memory.mem_store hx with e | hx
      · simp only; omega
      · exact hj x hx

/-- A write below the size keeps every listed address below the size. -/
theorem Memory.store_below {m : Memory w} {size : Nat} (h : m.below size) {a : Nat} (ha : a < size) (v : BitVec w) :
    (m.store a v).below size := fun x hx =>
  (Memory.mem_store hx).elim (fun e => e ▸ ha) (h x)

/-- Reading after a little-endian write: byte k of the number at `addr + k`, every other address as before. -/
theorem lookup_storeLE (m : Memory 8) (addr n v k : Nat) :
    Memory.lookup (storeLE m addr n v) k =
      if addr ≤ k ∧ k < addr + n then some (BitVec.ofNat 8 (v / 2 ^ (8 * (k - addr)))) else m.lookup k := by
  induction n generalizing m addr v with
  | zero => rw [storeLE, if_neg (by omega)]
  | succ n ih =>
    rw [storeLE, ih, Memory.lookup_store]
    by_cases h : k = addr
    · subst h
      rw [if_neg (by omega), if_pos rfl, if_pos (by omega)]
      simp
    · by_cases h2 : addr ≤ k ∧ k < addr + (n + 1)
      · rw [if_pos (by omega), if_pos h2, Nat.div_div_eq_div_mul, ← Nat.pow_add]
        congr 4
        omega
      · rw [if_neg (by omega), if_neg h, if_neg h2]

/-- A little-endian write keeps the canonical form. -/
theorem storeLE_wf {m : Memory 8} (h : m.wf) (addr n v : Nat) : Memory.wf (storeLE m addr n v) := by
  induction n generalizing m addr v with
  | zero => exact h
  | succ n ih => exact ih (Memory.store_wf h _ _) _ _

/-- A little-endian write within the size keeps every listed address below the size. -/
theorem storeLE_below {m : Memory 8} {size : Nat} (h : m.below size) (addr n v : Nat) (hn : addr + n ≤ size) :
    Memory.below (storeLE m addr n v) size := by
  induction n generalizing m addr v with
  | zero => exact h
  | succ n ih => exact ih (Memory.store_below h (by omega) _) _ _ (by omega)

/-- A little-endian read of n bytes is below 2^(8n). -/
theorem readLE_lt (byte : Nat → Byte) (addr n : Nat) : readLE byte addr n < 2 ^ (8 * n) := by
  induction n generalizing addr with
  | zero => simp [readLE]
  | succ n ih =>
    have h1 := ih (addr + 1)
    have h2 := (byte addr).isLt
    have h3 : 2 ^ (8 * (n + 1)) = 2 ^ 8 * 2 ^ (8 * n) := by rw [← Nat.pow_add]; congr 1; omega
    rw [readLE, h3]
    omega

/-- A little-endian read depends on the bytes of its own addresses only. -/
theorem readLE_congr {f g : Nat → Byte} (addr n : Nat) (h : ∀ k, addr ≤ k → k < addr + n → f k = g k) :
    readLE f addr n = readLE g addr n := by
  induction n generalizing addr with
  | zero => rfl
  | succ n ih =>
    rw [readLE, readLE, h addr (by omega) (by omega), ih _ (fun k h1 h2 => h k (by omega) (by omega))]

/-- Reading the n bytes of the little-endian image of v gives v modulo 2^(8n). -/
theorem readLE_image (addr n v : Nat) :
    readLE (fun k => BitVec.ofNat 8 (v / 2 ^ (8 * (k - addr)))) addr n = v % 2 ^ (8 * n) := by
  induction n generalizing addr v with
  | zero => simp [readLE, Nat.mod_one]
  | succ n ih =>
    have step : readLE (fun k => BitVec.ofNat 8 (v / 2 ^ (8 * (k - addr)))) (addr + 1) n =
        readLE (fun k => BitVec.ofNat 8 (v / 2 ^ 8 / 2 ^ (8 * (k - (addr + 1))))) (addr + 1) n := by
      refine readLE_congr _ _ fun k h1 _ => ?_
      rw [Nat.div_div_eq_div_mul, ← Nat.pow_add]
      congr 3
      omega
    have split : 2 ^ (8 * (n + 1)) = 2 ^ 8 * 2 ^ (8 * n) := by rw [← Nat.pow_add]; congr 1; omega
    rw [readLE, step, ih, split, Nat.mod_mul]
    simp

end Sys2Proof.Machine
end

