-- ==== Sys2Proof/Laws/State.lean ====
section
/-! SUPPORT. One lemma per field per update of the state, each true by rfl and tagged for simp, so that no later proof
unfolds a record update; then what each update does to the radix. The bits of `FLAGS` after `setFlag` are in
`Laws/Ops.lean`. -/

namespace Sys2Proof.Machine

section
variable (s : State) (i : RegNum) (v : Nat)

@[simp] theorem State.setB_params : (s.setB i v).params = s.params := rfl
@[simp] theorem State.setB_b : (s.setB i v).b = s.b.set i.val (v % s.radix) := rfl
@[simp] theorem State.setB_a : (s.setB i v).a = s.a := rfl
@[simp] theorem State.setB_pc : (s.setB i v).pc = s.pc := rfl
@[simp] theorem State.setB_flags : (s.setB i v).flags = s.flags := rfl
@[simp] theorem State.setB_errs : (s.setB i v).errs = s.errs := rfl
@[simp] theorem State.setB_modv : (s.setB i v).modv = s.modv := rfl
@[simp] theorem State.setB_mod : (s.setB i v).mod = s.mod := rfl
@[simp] theorem State.setB_inv : (s.setB i v).inv = s.inv := rfl
@[simp] theorem State.setB_rone : (s.setB i v).rone = s.rone := rfl
@[simp] theorem State.setB_rsq : (s.setB i v).rsq = s.rsq := rfl
@[simp] theorem State.setB_crvv : (s.setB i v).crvv = s.crvv := rfl
@[simp] theorem State.setB_curveA : (s.setB i v).curveA = s.curveA := rfl
@[simp] theorem State.setB_curveB : (s.setB i v).curveB = s.curveB := rfl
@[simp] theorem State.setB_order : (s.setB i v).order = s.order := rfl
@[simp] theorem State.setB_run : (s.setB i v).run = s.run := rfl
@[simp] theorem State.setB_cause : (s.setB i v).cause = s.cause := rfl
@[simp] theorem State.setB_epc : (s.setB i v).epc = s.epc := rfl
@[simp] theorem State.setB_einfo : (s.setB i v).einfo = s.einfo := rfl
@[simp] theorem State.setB_ien : (s.setB i v).ien = s.ien := rfl
@[simp] theorem State.setB_ip : (s.setB i v).ip = s.ip := rfl
@[simp] theorem State.setB_mulcnt : (s.setB i v).mulcnt = s.mulcnt := rfl
@[simp] theorem State.setB_instret : (s.setB i v).instret = s.instret := rfl
@[simp] theorem State.setB_imem : (s.setB i v).imem = s.imem := rfl
@[simp] theorem State.setB_dmem : (s.setB i v).dmem = s.dmem := rfl
@[simp] theorem State.setB_epoch : (s.setB i v).epoch = s.epoch := rfl
@[simp] theorem State.setB_resetInput : (s.setB i v).resetInput = s.resetInput := rfl
@[simp] theorem State.setB_turns : (s.setB i v).turns = s.turns := rfl
@[simp] theorem State.setB_response : (s.setB i v).response = s.response := rfl
@[simp] theorem State.setB_radix : (s.setB i v).radix = s.radix := rfl

end

section
variable (s : State) (i : RegNum) (v : Word)

@[simp] theorem State.setA_params : (s.setA i v).params = s.params := rfl
@[simp] theorem State.setA_b : (s.setA i v).b = s.b := rfl
@[simp] theorem State.setA_a : (s.setA i v).a = s.a.set i.val v := rfl
@[simp] theorem State.setA_pc : (s.setA i v).pc = s.pc := rfl
@[simp] theorem State.setA_flags : (s.setA i v).flags = s.flags := rfl
@[simp] theorem State.setA_errs : (s.setA i v).errs = s.errs := rfl
@[simp] theorem State.setA_modv : (s.setA i v).modv = s.modv := rfl
@[simp] theorem State.setA_mod : (s.setA i v).mod = s.mod := rfl
@[simp] theorem State.setA_inv : (s.setA i v).inv = s.inv := rfl
@[simp] theorem State.setA_rone : (s.setA i v).rone = s.rone := rfl
@[simp] theorem State.setA_rsq : (s.setA i v).rsq = s.rsq := rfl
@[simp] theorem State.setA_crvv : (s.setA i v).crvv = s.crvv := rfl
@[simp] theorem State.setA_curveA : (s.setA i v).curveA = s.curveA := rfl
@[simp] theorem State.setA_curveB : (s.setA i v).curveB = s.curveB := rfl
@[simp] theorem State.setA_order : (s.setA i v).order = s.order := rfl
@[simp] theorem State.setA_run : (s.setA i v).run = s.run := rfl
@[simp] theorem State.setA_cause : (s.setA i v).cause = s.cause := rfl
@[simp] theorem State.setA_epc : (s.setA i v).epc = s.epc := rfl
@[simp] theorem State.setA_einfo : (s.setA i v).einfo = s.einfo := rfl
@[simp] theorem State.setA_ien : (s.setA i v).ien = s.ien := rfl
@[simp] theorem State.setA_ip : (s.setA i v).ip = s.ip := rfl
@[simp] theorem State.setA_mulcnt : (s.setA i v).mulcnt = s.mulcnt := rfl
@[simp] theorem State.setA_instret : (s.setA i v).instret = s.instret := rfl
@[simp] theorem State.setA_imem : (s.setA i v).imem = s.imem := rfl
@[simp] theorem State.setA_dmem : (s.setA i v).dmem = s.dmem := rfl
@[simp] theorem State.setA_epoch : (s.setA i v).epoch = s.epoch := rfl
@[simp] theorem State.setA_resetInput : (s.setA i v).resetInput = s.resetInput := rfl
@[simp] theorem State.setA_turns : (s.setA i v).turns = s.turns := rfl
@[simp] theorem State.setA_response : (s.setA i v).response = s.response := rfl
@[simp] theorem State.setA_radix : (s.setA i v).radix = s.radix := rfl

end

section
variable (s : State) (addr n v : Nat)

@[simp] theorem State.memWrite_params : (s.memWrite addr n v).params = s.params := rfl
@[simp] theorem State.memWrite_b : (s.memWrite addr n v).b = s.b := rfl
@[simp] theorem State.memWrite_a : (s.memWrite addr n v).a = s.a := rfl
@[simp] theorem State.memWrite_pc : (s.memWrite addr n v).pc = s.pc := rfl
@[simp] theorem State.memWrite_flags : (s.memWrite addr n v).flags = s.flags := rfl
@[simp] theorem State.memWrite_errs : (s.memWrite addr n v).errs = s.errs := rfl
@[simp] theorem State.memWrite_modv : (s.memWrite addr n v).modv = s.modv := rfl
@[simp] theorem State.memWrite_mod : (s.memWrite addr n v).mod = s.mod := rfl
@[simp] theorem State.memWrite_inv : (s.memWrite addr n v).inv = s.inv := rfl
@[simp] theorem State.memWrite_rone : (s.memWrite addr n v).rone = s.rone := rfl
@[simp] theorem State.memWrite_rsq : (s.memWrite addr n v).rsq = s.rsq := rfl
@[simp] theorem State.memWrite_crvv : (s.memWrite addr n v).crvv = s.crvv := rfl
@[simp] theorem State.memWrite_curveA : (s.memWrite addr n v).curveA = s.curveA := rfl
@[simp] theorem State.memWrite_curveB : (s.memWrite addr n v).curveB = s.curveB := rfl
@[simp] theorem State.memWrite_order : (s.memWrite addr n v).order = s.order := rfl
@[simp] theorem State.memWrite_run : (s.memWrite addr n v).run = s.run := rfl
@[simp] theorem State.memWrite_cause : (s.memWrite addr n v).cause = s.cause := rfl
@[simp] theorem State.memWrite_epc : (s.memWrite addr n v).epc = s.epc := rfl
@[simp] theorem State.memWrite_einfo : (s.memWrite addr n v).einfo = s.einfo := rfl
@[simp] theorem State.memWrite_ien : (s.memWrite addr n v).ien = s.ien := rfl
@[simp] theorem State.memWrite_ip : (s.memWrite addr n v).ip = s.ip := rfl
@[simp] theorem State.memWrite_mulcnt : (s.memWrite addr n v).mulcnt = s.mulcnt := rfl
@[simp] theorem State.memWrite_instret : (s.memWrite addr n v).instret = s.instret := rfl
@[simp] theorem State.memWrite_imem : (s.memWrite addr n v).imem = s.imem := rfl
@[simp] theorem State.memWrite_dmem : (s.memWrite addr n v).dmem = storeLE s.dmem addr n v := rfl
@[simp] theorem State.memWrite_epoch : (s.memWrite addr n v).epoch = s.epoch := rfl
@[simp] theorem State.memWrite_resetInput : (s.memWrite addr n v).resetInput = s.resetInput := rfl
@[simp] theorem State.memWrite_turns : (s.memWrite addr n v).turns = s.turns := rfl
@[simp] theorem State.memWrite_response : (s.memWrite addr n v).response = s.response := rfl
@[simp] theorem State.memWrite_radix : (s.memWrite addr n v).radix = s.radix := rfl

end

section
variable (s : State) (k : Nat) (w : Word)

@[simp] theorem State.storeCommand_params : (s.storeCommand k w).params = s.params := rfl
@[simp] theorem State.storeCommand_b : (s.storeCommand k w).b = s.b := rfl
@[simp] theorem State.storeCommand_a : (s.storeCommand k w).a = s.a := rfl
@[simp] theorem State.storeCommand_pc : (s.storeCommand k w).pc = s.pc := rfl
@[simp] theorem State.storeCommand_flags : (s.storeCommand k w).flags = s.flags := rfl
@[simp] theorem State.storeCommand_errs : (s.storeCommand k w).errs = s.errs := rfl
@[simp] theorem State.storeCommand_modv : (s.storeCommand k w).modv = s.modv := rfl
@[simp] theorem State.storeCommand_mod : (s.storeCommand k w).mod = s.mod := rfl
@[simp] theorem State.storeCommand_inv : (s.storeCommand k w).inv = s.inv := rfl
@[simp] theorem State.storeCommand_rone : (s.storeCommand k w).rone = s.rone := rfl
@[simp] theorem State.storeCommand_rsq : (s.storeCommand k w).rsq = s.rsq := rfl
@[simp] theorem State.storeCommand_crvv : (s.storeCommand k w).crvv = s.crvv := rfl
@[simp] theorem State.storeCommand_curveA : (s.storeCommand k w).curveA = s.curveA := rfl
@[simp] theorem State.storeCommand_curveB : (s.storeCommand k w).curveB = s.curveB := rfl
@[simp] theorem State.storeCommand_order : (s.storeCommand k w).order = s.order := rfl
@[simp] theorem State.storeCommand_run : (s.storeCommand k w).run = s.run := rfl
@[simp] theorem State.storeCommand_cause : (s.storeCommand k w).cause = s.cause := rfl
@[simp] theorem State.storeCommand_epc : (s.storeCommand k w).epc = s.epc := rfl
@[simp] theorem State.storeCommand_einfo : (s.storeCommand k w).einfo = s.einfo := rfl
@[simp] theorem State.storeCommand_ien : (s.storeCommand k w).ien = s.ien := rfl
@[simp] theorem State.storeCommand_ip : (s.storeCommand k w).ip = s.ip := rfl
@[simp] theorem State.storeCommand_mulcnt : (s.storeCommand k w).mulcnt = s.mulcnt := rfl
@[simp] theorem State.storeCommand_instret : (s.storeCommand k w).instret = s.instret := rfl
@[simp] theorem State.storeCommand_imem : (s.storeCommand k w).imem = Memory.store s.imem k w := rfl
@[simp] theorem State.storeCommand_dmem : (s.storeCommand k w).dmem = s.dmem := rfl
@[simp] theorem State.storeCommand_epoch : (s.storeCommand k w).epoch = s.epoch := rfl
@[simp] theorem State.storeCommand_resetInput : (s.storeCommand k w).resetInput = s.resetInput := rfl
@[simp] theorem State.storeCommand_turns : (s.storeCommand k w).turns = s.turns := rfl
@[simp] theorem State.storeCommand_response : (s.storeCommand k w).response = s.response := rfl
@[simp] theorem State.storeCommand_radix : (s.storeCommand k w).radix = s.radix := rfl

end

section
variable (s : State) (k : Nat)

@[simp] theorem State.addMul_params : (s.addMul k).params = s.params := rfl
@[simp] theorem State.addMul_b : (s.addMul k).b = s.b := rfl
@[simp] theorem State.addMul_a : (s.addMul k).a = s.a := rfl
@[simp] theorem State.addMul_pc : (s.addMul k).pc = s.pc := rfl
@[simp] theorem State.addMul_flags : (s.addMul k).flags = s.flags := rfl
@[simp] theorem State.addMul_errs : (s.addMul k).errs = s.errs := rfl
@[simp] theorem State.addMul_modv : (s.addMul k).modv = s.modv := rfl
@[simp] theorem State.addMul_mod : (s.addMul k).mod = s.mod := rfl
@[simp] theorem State.addMul_inv : (s.addMul k).inv = s.inv := rfl
@[simp] theorem State.addMul_rone : (s.addMul k).rone = s.rone := rfl
@[simp] theorem State.addMul_rsq : (s.addMul k).rsq = s.rsq := rfl
@[simp] theorem State.addMul_crvv : (s.addMul k).crvv = s.crvv := rfl
@[simp] theorem State.addMul_curveA : (s.addMul k).curveA = s.curveA := rfl
@[simp] theorem State.addMul_curveB : (s.addMul k).curveB = s.curveB := rfl
@[simp] theorem State.addMul_order : (s.addMul k).order = s.order := rfl
@[simp] theorem State.addMul_run : (s.addMul k).run = s.run := rfl
@[simp] theorem State.addMul_cause : (s.addMul k).cause = s.cause := rfl
@[simp] theorem State.addMul_epc : (s.addMul k).epc = s.epc := rfl
@[simp] theorem State.addMul_einfo : (s.addMul k).einfo = s.einfo := rfl
@[simp] theorem State.addMul_ien : (s.addMul k).ien = s.ien := rfl
@[simp] theorem State.addMul_ip : (s.addMul k).ip = s.ip := rfl
@[simp] theorem State.addMul_mulcnt : (s.addMul k).mulcnt = s.mulcnt + BitVec.ofNat 64 k := rfl
@[simp] theorem State.addMul_instret : (s.addMul k).instret = s.instret := rfl
@[simp] theorem State.addMul_imem : (s.addMul k).imem = s.imem := rfl
@[simp] theorem State.addMul_dmem : (s.addMul k).dmem = s.dmem := rfl
@[simp] theorem State.addMul_epoch : (s.addMul k).epoch = s.epoch := rfl
@[simp] theorem State.addMul_resetInput : (s.addMul k).resetInput = s.resetInput := rfl
@[simp] theorem State.addMul_turns : (s.addMul k).turns = s.turns := rfl
@[simp] theorem State.addMul_response : (s.addMul k).response = s.response := rfl
@[simp] theorem State.addMul_radix : (s.addMul k).radix = s.radix := rfl

end

section
variable (s : State) (next : CmdIndex)

@[simp] theorem State.completeAt_params : (s.completeAt next).params = s.params := rfl
@[simp] theorem State.completeAt_b : (s.completeAt next).b = s.b := rfl
@[simp] theorem State.completeAt_a : (s.completeAt next).a = s.a := rfl
@[simp] theorem State.completeAt_pc : (s.completeAt next).pc = next := rfl
@[simp] theorem State.completeAt_flags : (s.completeAt next).flags = s.flags := rfl
@[simp] theorem State.completeAt_errs : (s.completeAt next).errs = s.errs := rfl
@[simp] theorem State.completeAt_modv : (s.completeAt next).modv = s.modv := rfl
@[simp] theorem State.completeAt_mod : (s.completeAt next).mod = s.mod := rfl
@[simp] theorem State.completeAt_inv : (s.completeAt next).inv = s.inv := rfl
@[simp] theorem State.completeAt_rone : (s.completeAt next).rone = s.rone := rfl
@[simp] theorem State.completeAt_rsq : (s.completeAt next).rsq = s.rsq := rfl
@[simp] theorem State.completeAt_crvv : (s.completeAt next).crvv = s.crvv := rfl
@[simp] theorem State.completeAt_curveA : (s.completeAt next).curveA = s.curveA := rfl
@[simp] theorem State.completeAt_curveB : (s.completeAt next).curveB = s.curveB := rfl
@[simp] theorem State.completeAt_order : (s.completeAt next).order = s.order := rfl
@[simp] theorem State.completeAt_run : (s.completeAt next).run = s.run := rfl
@[simp] theorem State.completeAt_cause : (s.completeAt next).cause = s.cause := rfl
@[simp] theorem State.completeAt_epc : (s.completeAt next).epc = s.epc := rfl
@[simp] theorem State.completeAt_einfo : (s.completeAt next).einfo = s.einfo := rfl
@[simp] theorem State.completeAt_ien : (s.completeAt next).ien = s.ien := rfl
@[simp] theorem State.completeAt_ip : (s.completeAt next).ip = s.ip := rfl
@[simp] theorem State.completeAt_mulcnt : (s.completeAt next).mulcnt = s.mulcnt := rfl
@[simp] theorem State.completeAt_instret : (s.completeAt next).instret = s.instret + 1 := rfl
@[simp] theorem State.completeAt_imem : (s.completeAt next).imem = s.imem := rfl
@[simp] theorem State.completeAt_dmem : (s.completeAt next).dmem = s.dmem := rfl
@[simp] theorem State.completeAt_epoch : (s.completeAt next).epoch = s.epoch := rfl
@[simp] theorem State.completeAt_resetInput : (s.completeAt next).resetInput = s.resetInput := rfl
@[simp] theorem State.completeAt_turns : (s.completeAt next).turns = s.turns := rfl
@[simp] theorem State.completeAt_response : (s.completeAt next).response = s.response := rfl
@[simp] theorem State.completeAt_radix : (s.completeAt next).radix = s.radix := rfl

end

section
variable (s : State) (t : Trap)

@[simp] theorem State.raise_params : (s.raise t).params = s.params := rfl
@[simp] theorem State.raise_b : (s.raise t).b = s.b := rfl
@[simp] theorem State.raise_a : (s.raise t).a = s.a := rfl
@[simp] theorem State.raise_pc : (s.raise t).pc = s.pc := rfl
@[simp] theorem State.raise_flags : (s.raise t).flags = s.flags := rfl
@[simp] theorem State.raise_errs : (s.raise t).errs = s.errs := rfl
@[simp] theorem State.raise_modv : (s.raise t).modv = s.modv := rfl
@[simp] theorem State.raise_mod : (s.raise t).mod = s.mod := rfl
@[simp] theorem State.raise_inv : (s.raise t).inv = s.inv := rfl
@[simp] theorem State.raise_rone : (s.raise t).rone = s.rone := rfl
@[simp] theorem State.raise_rsq : (s.raise t).rsq = s.rsq := rfl
@[simp] theorem State.raise_crvv : (s.raise t).crvv = s.crvv := rfl
@[simp] theorem State.raise_curveA : (s.raise t).curveA = s.curveA := rfl
@[simp] theorem State.raise_curveB : (s.raise t).curveB = s.curveB := rfl
@[simp] theorem State.raise_order : (s.raise t).order = s.order := rfl
@[simp] theorem State.raise_run : (s.raise t).run = .faulted := rfl
@[simp] theorem State.raise_cause : (s.raise t).cause = t.cause := rfl
@[simp] theorem State.raise_epc : (s.raise t).epc = s.pc := rfl
@[simp] theorem State.raise_einfo : (s.raise t).einfo = t.info := rfl
@[simp] theorem State.raise_ien : (s.raise t).ien = s.ien := rfl
@[simp] theorem State.raise_ip : (s.raise t).ip = s.ip ||| 0b10#2 := rfl
@[simp] theorem State.raise_mulcnt : (s.raise t).mulcnt = s.mulcnt := rfl
@[simp] theorem State.raise_instret : (s.raise t).instret = s.instret := rfl
@[simp] theorem State.raise_imem : (s.raise t).imem = s.imem := rfl
@[simp] theorem State.raise_dmem : (s.raise t).dmem = s.dmem := rfl
@[simp] theorem State.raise_epoch : (s.raise t).epoch = s.epoch := rfl
@[simp] theorem State.raise_resetInput : (s.raise t).resetInput = s.resetInput := rfl
@[simp] theorem State.raise_turns : (s.raise t).turns = s.turns := rfl
@[simp] theorem State.raise_response : (s.raise t).response = s.response := rfl
@[simp] theorem State.raise_radix : (s.raise t).radix = s.radix := rfl

end

section
variable (s : State) (f : Flag) (v : Bool)

@[simp] theorem State.setFlag_params : (s.setFlag f v).params = s.params := rfl
@[simp] theorem State.setFlag_b : (s.setFlag f v).b = s.b := rfl
@[simp] theorem State.setFlag_a : (s.setFlag f v).a = s.a := rfl
@[simp] theorem State.setFlag_pc : (s.setFlag f v).pc = s.pc := rfl
@[simp] theorem State.setFlag_errs : (s.setFlag f v).errs = if v then s.errs ||| f.sticky else s.errs := rfl
@[simp] theorem State.setFlag_modv : (s.setFlag f v).modv = s.modv := rfl
@[simp] theorem State.setFlag_mod : (s.setFlag f v).mod = s.mod := rfl
@[simp] theorem State.setFlag_inv : (s.setFlag f v).inv = s.inv := rfl
@[simp] theorem State.setFlag_rone : (s.setFlag f v).rone = s.rone := rfl
@[simp] theorem State.setFlag_rsq : (s.setFlag f v).rsq = s.rsq := rfl
@[simp] theorem State.setFlag_crvv : (s.setFlag f v).crvv = s.crvv := rfl
@[simp] theorem State.setFlag_curveA : (s.setFlag f v).curveA = s.curveA := rfl
@[simp] theorem State.setFlag_curveB : (s.setFlag f v).curveB = s.curveB := rfl
@[simp] theorem State.setFlag_order : (s.setFlag f v).order = s.order := rfl
@[simp] theorem State.setFlag_run : (s.setFlag f v).run = s.run := rfl
@[simp] theorem State.setFlag_cause : (s.setFlag f v).cause = s.cause := rfl
@[simp] theorem State.setFlag_epc : (s.setFlag f v).epc = s.epc := rfl
@[simp] theorem State.setFlag_einfo : (s.setFlag f v).einfo = s.einfo := rfl
@[simp] theorem State.setFlag_ien : (s.setFlag f v).ien = s.ien := rfl
@[simp] theorem State.setFlag_ip : (s.setFlag f v).ip = s.ip := rfl
@[simp] theorem State.setFlag_mulcnt : (s.setFlag f v).mulcnt = s.mulcnt := rfl
@[simp] theorem State.setFlag_instret : (s.setFlag f v).instret = s.instret := rfl
@[simp] theorem State.setFlag_imem : (s.setFlag f v).imem = s.imem := rfl
@[simp] theorem State.setFlag_dmem : (s.setFlag f v).dmem = s.dmem := rfl
@[simp] theorem State.setFlag_epoch : (s.setFlag f v).epoch = s.epoch := rfl
@[simp] theorem State.setFlag_resetInput : (s.setFlag f v).resetInput = s.resetInput := rfl
@[simp] theorem State.setFlag_turns : (s.setFlag f v).turns = s.turns := rfl
@[simp] theorem State.setFlag_response : (s.setFlag f v).response = s.response := rfl
@[simp] theorem State.setFlag_radix : (s.setFlag f v).radix = s.radix := rfl

end

section
variable (s : State) (v : Nat)

@[simp] theorem State.latchModulus_params : (s.latchModulus v).params = s.params := rfl
@[simp] theorem State.latchModulus_b : (s.latchModulus v).b = s.b := rfl
@[simp] theorem State.latchModulus_a : (s.latchModulus v).a = s.a := rfl
@[simp] theorem State.latchModulus_pc : (s.latchModulus v).pc = s.pc := rfl
@[simp] theorem State.latchModulus_flags : (s.latchModulus v).flags = s.flags := rfl
@[simp] theorem State.latchModulus_errs : (s.latchModulus v).errs = s.errs := rfl
@[simp] theorem State.latchModulus_modv : (s.latchModulus v).modv = true := rfl
@[simp] theorem State.latchModulus_mod : (s.latchModulus v).mod = v := rfl
@[simp] theorem State.latchModulus_inv : (s.latchModulus v).inv = BitVec.ofNat 64 (negInverse v) := rfl
@[simp] theorem State.latchModulus_rone : (s.latchModulus v).rone = s.radix % v := rfl
@[simp] theorem State.latchModulus_rsq : (s.latchModulus v).rsq = s.radix * s.radix % v := rfl
@[simp] theorem State.latchModulus_crvv : (s.latchModulus v).crvv = s.crvv := rfl
@[simp] theorem State.latchModulus_curveA : (s.latchModulus v).curveA = s.curveA := rfl
@[simp] theorem State.latchModulus_curveB : (s.latchModulus v).curveB = s.curveB := rfl
@[simp] theorem State.latchModulus_order : (s.latchModulus v).order = s.order := rfl
@[simp] theorem State.latchModulus_run : (s.latchModulus v).run = s.run := rfl
@[simp] theorem State.latchModulus_cause : (s.latchModulus v).cause = s.cause := rfl
@[simp] theorem State.latchModulus_epc : (s.latchModulus v).epc = s.epc := rfl
@[simp] theorem State.latchModulus_einfo : (s.latchModulus v).einfo = s.einfo := rfl
@[simp] theorem State.latchModulus_ien : (s.latchModulus v).ien = s.ien := rfl
@[simp] theorem State.latchModulus_ip : (s.latchModulus v).ip = s.ip := rfl
@[simp] theorem State.latchModulus_mulcnt : (s.latchModulus v).mulcnt = s.mulcnt := rfl
@[simp] theorem State.latchModulus_instret : (s.latchModulus v).instret = s.instret := rfl
@[simp] theorem State.latchModulus_imem : (s.latchModulus v).imem = s.imem := rfl
@[simp] theorem State.latchModulus_dmem : (s.latchModulus v).dmem = s.dmem := rfl
@[simp] theorem State.latchModulus_epoch : (s.latchModulus v).epoch = s.epoch := rfl
@[simp] theorem State.latchModulus_resetInput : (s.latchModulus v).resetInput = s.resetInput := rfl
@[simp] theorem State.latchModulus_turns : (s.latchModulus v).turns = s.turns := rfl
@[simp] theorem State.latchModulus_response : (s.latchModulus v).response = s.response := rfl
@[simp] theorem State.latchModulus_radix : (s.latchModulus v).radix = s.radix := rfl

end

section
variable (s : State)

@[simp] theorem State.hostError_params : s.hostError.params = s.params := rfl
@[simp] theorem State.hostError_b : s.hostError.b = s.b := rfl
@[simp] theorem State.hostError_a : s.hostError.a = s.a := rfl
@[simp] theorem State.hostError_pc : s.hostError.pc = s.pc := rfl
@[simp] theorem State.hostError_flags : s.hostError.flags = s.flags := rfl
@[simp] theorem State.hostError_errs : s.hostError.errs = s.errs ||| hostErrBit := rfl
@[simp] theorem State.hostError_modv : s.hostError.modv = s.modv := rfl
@[simp] theorem State.hostError_mod : s.hostError.mod = s.mod := rfl
@[simp] theorem State.hostError_inv : s.hostError.inv = s.inv := rfl
@[simp] theorem State.hostError_rone : s.hostError.rone = s.rone := rfl
@[simp] theorem State.hostError_rsq : s.hostError.rsq = s.rsq := rfl
@[simp] theorem State.hostError_crvv : s.hostError.crvv = s.crvv := rfl
@[simp] theorem State.hostError_curveA : s.hostError.curveA = s.curveA := rfl
@[simp] theorem State.hostError_curveB : s.hostError.curveB = s.curveB := rfl
@[simp] theorem State.hostError_order : s.hostError.order = s.order := rfl
@[simp] theorem State.hostError_run : s.hostError.run = s.run := rfl
@[simp] theorem State.hostError_cause : s.hostError.cause = s.cause := rfl
@[simp] theorem State.hostError_epc : s.hostError.epc = s.epc := rfl
@[simp] theorem State.hostError_einfo : s.hostError.einfo = s.einfo := rfl
@[simp] theorem State.hostError_ien : s.hostError.ien = s.ien := rfl
@[simp] theorem State.hostError_ip : s.hostError.ip = s.ip := rfl
@[simp] theorem State.hostError_mulcnt : s.hostError.mulcnt = s.mulcnt := rfl
@[simp] theorem State.hostError_instret : s.hostError.instret = s.instret := rfl
@[simp] theorem State.hostError_imem : s.hostError.imem = s.imem := rfl
@[simp] theorem State.hostError_dmem : s.hostError.dmem = s.dmem := rfl
@[simp] theorem State.hostError_epoch : s.hostError.epoch = s.epoch := rfl
@[simp] theorem State.hostError_resetInput : s.hostError.resetInput = s.resetInput := rfl
@[simp] theorem State.hostError_turns : s.hostError.turns = s.turns := rfl
@[simp] theorem State.hostError_response : s.hostError.response = s.response := rfl
@[simp] theorem State.hostError_radix : s.hostError.radix = s.radix := rfl

end

section
variable (s : State)

@[simp] theorem State.releaseReset_params : s.releaseReset.params = s.params := rfl
@[simp] theorem State.releaseReset_b : s.releaseReset.b = s.b := rfl
@[simp] theorem State.releaseReset_a : s.releaseReset.a = s.a := rfl
@[simp] theorem State.releaseReset_pc : s.releaseReset.pc = s.pc := rfl
@[simp] theorem State.releaseReset_flags : s.releaseReset.flags = s.flags := rfl
@[simp] theorem State.releaseReset_errs : s.releaseReset.errs = s.errs := rfl
@[simp] theorem State.releaseReset_modv : s.releaseReset.modv = s.modv := rfl
@[simp] theorem State.releaseReset_mod : s.releaseReset.mod = s.mod := rfl
@[simp] theorem State.releaseReset_inv : s.releaseReset.inv = s.inv := rfl
@[simp] theorem State.releaseReset_rone : s.releaseReset.rone = s.rone := rfl
@[simp] theorem State.releaseReset_rsq : s.releaseReset.rsq = s.rsq := rfl
@[simp] theorem State.releaseReset_crvv : s.releaseReset.crvv = s.crvv := rfl
@[simp] theorem State.releaseReset_curveA : s.releaseReset.curveA = s.curveA := rfl
@[simp] theorem State.releaseReset_curveB : s.releaseReset.curveB = s.curveB := rfl
@[simp] theorem State.releaseReset_order : s.releaseReset.order = s.order := rfl
@[simp] theorem State.releaseReset_run : s.releaseReset.run = s.run := rfl
@[simp] theorem State.releaseReset_cause : s.releaseReset.cause = s.cause := rfl
@[simp] theorem State.releaseReset_epc : s.releaseReset.epc = s.epc := rfl
@[simp] theorem State.releaseReset_einfo : s.releaseReset.einfo = s.einfo := rfl
@[simp] theorem State.releaseReset_ien : s.releaseReset.ien = s.ien := rfl
@[simp] theorem State.releaseReset_ip : s.releaseReset.ip = s.ip := rfl
@[simp] theorem State.releaseReset_mulcnt : s.releaseReset.mulcnt = s.mulcnt := rfl
@[simp] theorem State.releaseReset_instret : s.releaseReset.instret = s.instret := rfl
@[simp] theorem State.releaseReset_imem : s.releaseReset.imem = s.imem := rfl
@[simp] theorem State.releaseReset_dmem : s.releaseReset.dmem = s.dmem := rfl
@[simp] theorem State.releaseReset_epoch : s.releaseReset.epoch = s.epoch := rfl
@[simp] theorem State.releaseReset_resetInput : s.releaseReset.resetInput = false := rfl
@[simp] theorem State.releaseReset_turns : s.releaseReset.turns = s.turns := rfl
@[simp] theorem State.releaseReset_response : s.releaseReset.response = s.response := rfl
@[simp] theorem State.releaseReset_radix : s.releaseReset.radix = s.radix := rfl

end

end Sys2Proof.Machine
end

