-- ==== Sys2Proof/Laws/Ops.lean ====
section
/-! SUPPORT. What each named operation does, said once: registers, flags, memories, fault entry, the checks. -/

namespace Sys2Proof.Machine

section Registers

variable (s : State)

theorem State.radix_pos : 0 < s.radix := Nat.two_pow_pos _

theorem State.radix_eq : s.radix = 2 ^ (64 * s.params.n) := rfl

theorem State.radix_eq_bytes : s.radix = 2 ^ (8 * s.params.bigBytes) := by
  rw [State.radix_eq, Config.Params.bigBytes]
  congr 1
  omega

/-- A big register holds an integer below 2^XLEN. -/
theorem State.getB_lt (i : RegNum) : s.getB i < s.radix := Nat.mod_lt _ s.radix_pos

/-- Reading a big register after a write of one: the written one holds the value modulo 2^XLEN, every other is as
before. -/
theorem State.getB_setB (i j : RegNum) (v : Nat) :
    (s.setB i v).getB j = if j = i then v % s.radix else s.getB j := by
  unfold State.getB
  simp only [State.setB_radix, State.setB_b, Vector.getElem_set]
  by_cases h : i = j
  · subst h; simp
  · have h1 : ¬ i.val = j.val := fun e => h (Fin.ext e)
    have h2 : ¬ j = i := fun e => h e.symm
    simp [h1, h2]

@[simp] theorem State.getB_setB_same (i : RegNum) (v : Nat) : (s.setB i v).getB i = v % s.radix := by
  simp [State.getB_setB]

/-- Reading an address register after a write of one. -/
theorem State.getA_setA (i j : RegNum) (v : Word) : (s.setA i v).getA j = if j = i then v else s.getA j := by
  unfold State.getA
  simp only [State.setA_a, Vector.getElem_set]
  by_cases h : i = j
  · subst h; simp
  · have h1 : ¬ i.val = j.val := fun e => h (Fin.ext e)
    have h2 : ¬ j = i := fun e => h e.symm
    simp [h1, h2]

@[simp] theorem State.getA_setA_same (i : RegNum) (v : Word) : (s.setA i v).getA i = v := by simp [State.getA_setA]

@[simp] theorem State.getB_setFlag (f : Flag) (v : Bool) (i : RegNum) : (s.setFlag f v).getB i = s.getB i := rfl
@[simp] theorem State.getB_completeAt (n : CmdIndex) (i : RegNum) : (s.completeAt n).getB i = s.getB i := rfl
@[simp] theorem State.getB_addMul (k : Nat) (i : RegNum) : (s.addMul k).getB i = s.getB i := rfl
@[simp] theorem State.getB_memWrite (x n v : Nat) (i : RegNum) : (s.memWrite x n v).getB i = s.getB i := rfl
@[simp] theorem State.getB_setA (j i : RegNum) (v : Word) : (s.setA j v).getB i = s.getB i := rfl
@[simp] theorem State.getB_raise (t : Trap) (i : RegNum) : (s.raise t).getB i = s.getB i := rfl
@[simp] theorem State.getB_latchModulus (v : Nat) (i : RegNum) : (s.latchModulus v).getB i = s.getB i := rfl
@[simp] theorem State.getA_setB (j i : RegNum) (v : Nat) : (s.setB j v).getA i = s.getA i := rfl
@[simp] theorem State.getA_setFlag (f : Flag) (v : Bool) (i : RegNum) : (s.setFlag f v).getA i = s.getA i := rfl
@[simp] theorem State.getA_completeAt (n : CmdIndex) (i : RegNum) : (s.completeAt n).getA i = s.getA i := rfl
@[simp] theorem State.getA_addMul (k : Nat) (i : RegNum) : (s.addMul k).getA i = s.getA i := rfl
@[simp] theorem State.getA_memWrite (x n v : Nat) (i : RegNum) : (s.memWrite x n v).getA i = s.getA i := rfl
@[simp] theorem State.getA_raise (t : Trap) (i : RegNum) : (s.raise t).getA i = s.getA i := rfl

end Registers

section FlagBits

variable (s : State)

theorem Flag.bit_inj {f g : Flag} (h : f.bit = g.bit) : f = g := by
  cases f <;> cases g <;> first | rfl | exact absurd h (by decide)

/-- Writing one flag of a 9-bit word, bit by bit. -/
theorem flagWord_bit (w : BitVec 9) (i j : Fin 9) (v : Bool) :
    ((w &&& ~~~(1#9 <<< i.val)) ||| ((BitVec.ofBool v).setWidth 9 <<< i.val)).getLsbD j.val =
      if j = i then v else w.getLsbD j.val := by
  have hj := j.isLt
  have hi := i.isLt
  by_cases h : j = i
  · subst h
    cases v <;> simp [hj]
  · have h' : j.val ≠ i.val := fun e => h (Fin.ext e)
    rcases Nat.lt_or_ge j.val i.val with hlt | hge
    · cases v <;> simp [hj, h, hlt]
    · have h1 : j.val - i.val ≠ 0 := by omega
      have h2 : ¬ j.val < i.val := by omega
      cases v <;> simp [hj, h, h1, h2]

/-- Reading a flag after a write of one: the written one holds the value, every other is as before (R30). -/
theorem State.flag_setFlag (f g : Flag) (v : Bool) :
    (s.setFlag f v).flag g = if g = f then v else s.flag g := by
  unfold State.flag State.setFlag
  rw [flagWord_bit]
  by_cases h : g = f
  · simp [h]
  · have h' : ¬ g.bit = f.bit := fun e => h (Flag.bit_inj e)
    simp [h, h']

@[simp] theorem State.flag_setFlag_same (f : Flag) (v : Bool) : (s.setFlag f v).flag f = v := by
  simp [State.flag_setFlag]

@[simp] theorem State.flag_setB (f : Flag) (i : RegNum) (v : Nat) : (s.setB i v).flag f = s.flag f := rfl
@[simp] theorem State.flag_setA (f : Flag) (i : RegNum) (v : Word) : (s.setA i v).flag f = s.flag f := rfl
@[simp] theorem State.flag_completeAt (f : Flag) (n : CmdIndex) : (s.completeAt n).flag f = s.flag f := rfl
@[simp] theorem State.flag_addMul (f : Flag) (k : Nat) : (s.addMul k).flag f = s.flag f := rfl
@[simp] theorem State.flag_memWrite (f : Flag) (x n v : Nat) : (s.memWrite x n v).flag f = s.flag f := rfl
@[simp] theorem State.flag_raise (f : Flag) (t : Trap) : (s.raise t).flag f = s.flag f := rfl

end FlagBits

section Memories

variable (s : State)

@[simp] theorem State.readByte_setB (i : RegNum) (v x : Nat) : (s.setB i v).readByte x = s.readByte x := rfl
@[simp] theorem State.readByte_setA (i : RegNum) (v : Word) (x : Nat) : (s.setA i v).readByte x = s.readByte x := rfl
@[simp] theorem State.readByte_setFlag (f : Flag) (v : Bool) (x : Nat) : (s.setFlag f v).readByte x = s.readByte x := rfl
@[simp] theorem State.readByte_completeAt (n : CmdIndex) (x : Nat) : (s.completeAt n).readByte x = s.readByte x := rfl
@[simp] theorem State.readByte_addMul (k x : Nat) : (s.addMul k).readByte x = s.readByte x := rfl
@[simp] theorem State.readByte_raise (t : Trap) (x : Nat) : (s.raise t).readByte x = s.readByte x := rfl

/-- What an aligned or unaligned little-endian write leaves at each address (R82). -/
theorem State.readByte_memWrite (addr n v x : Nat) :
    (s.memWrite addr n v).readByte x =
      if addr ≤ x ∧ x < addr + n then BitVec.ofNat 8 (v / 2 ^ (8 * (x - addr))) else s.readByte x := by
  unfold State.readByte
  simp only [State.memWrite_dmem, State.memWrite_epoch, lookup_storeLE]
  split_ifs <;> rfl

/-- Reading back what was written (R82). -/
theorem State.memRead_memWrite (addr n v : Nat) : (s.memWrite addr n v).memRead addr n = v % 2 ^ (8 * n) := by
  unfold State.memRead
  rw [← readLE_image addr n v]
  refine readLE_congr _ _ fun k h1 h2 => ?_
  rw [State.readByte_memWrite, if_pos ⟨h1, h2⟩]

/-- A read elsewhere is not touched by a write (R82). -/
theorem State.memRead_memWrite_disjoint (addr n v x k : Nat) (h : x + k ≤ addr ∨ addr + n ≤ x) :
    (s.memWrite addr n v).memRead x k = s.memRead x k := by
  unfold State.memRead
  refine readLE_congr _ _ fun j h1 h2 => ?_
  rw [State.readByte_memWrite, if_neg (by omega)]

/-- A read of 8·N bytes fits a big register. -/
theorem State.memRead_lt (addr : Nat) : s.memRead addr s.params.bigBytes < s.radix := by
  rw [State.radix_eq_bytes]
  exact readLE_lt _ _ _

@[simp] theorem State.fetchWord_memWrite (x n v k : Nat) : (s.memWrite x n v).fetchWord k = s.fetchWord k := rfl
@[simp] theorem State.fetchWord_setB (i : RegNum) (v k : Nat) : (s.setB i v).fetchWord k = s.fetchWord k := rfl
@[simp] theorem State.fetchWord_setA (i : RegNum) (v : Word) (k : Nat) : (s.setA i v).fetchWord k = s.fetchWord k := rfl
@[simp] theorem State.fetchWord_setFlag (f : Flag) (v : Bool) (k : Nat) : (s.setFlag f v).fetchWord k = s.fetchWord k := rfl
@[simp] theorem State.fetchWord_completeAt (n : CmdIndex) (k : Nat) : (s.completeAt n).fetchWord k = s.fetchWord k := rfl
@[simp] theorem State.fetchWord_addMul (j k : Nat) : (s.addMul j).fetchWord k = s.fetchWord k := rfl
@[simp] theorem State.fetchWord_raise (t : Trap) (k : Nat) : (s.raise t).fetchWord k = s.fetchWord k := rfl

/-- What a host write of command memory leaves at each index (R48). -/
theorem State.fetchWord_storeCommand (k j : Nat) (w : Word) :
    (s.storeCommand k w).fetchWord j = if j = k then w else s.fetchWord j := by
  unfold State.fetchWord
  simp only [State.storeCommand_imem, State.storeCommand_epoch, Memory.lookup_store]
  split_ifs <;> rfl

end Memories

section Checks

variable (s : State)

/-- Fault entry leaves the state of R290. -/
theorem State.raise_eq (t : Trap) : s.raise t = faultState s t.cause t.info := rfl

@[simp] theorem State.complete_eq : s.complete = s.completeAt (s.pc + 1) := rfl

/-- What a guarded command answers: the fault of its checks, or its completed state. -/
theorem guarded_next {t : Option Trap} {s done t' : State} (h : guarded t s done = .next t') :
    (∃ trap, t = some trap ∧ t' = s.raise trap) ∨ (t = none ∧ t' = done) := by
  unfold guarded at h
  cases t with
  | none => exact .inr ⟨rfl, by simpa using h.symm⟩
  | some trap => exact .inl ⟨trap, rfl, by simpa using h.symm⟩

@[simp] theorem guarded_none (s done : State) : guarded none s done = .next done := rfl
@[simp] theorem guarded_some (t : Trap) (s done : State) : guarded (some t) s done = .next (s.raise t) := rfl

@[simp] theorem firstTrap_nil : firstTrap [] = none := rfl
@[simp] theorem firstTrap_some (t : Trap) (l : List (Option Trap)) : firstTrap (some t :: l) = some t := rfl
@[simp] theorem firstTrap_none (l : List (Option Trap)) : firstTrap (none :: l) = firstTrap l := rfl

theorem illegalFields_none {i : Instr} (h : i.wf) : illegalFields i = none := by
  unfold illegalFields
  rw [h]

theorem illegalFields_some {i : Instr} (h : ¬ i.wf) :
    illegalFields i = some { cause := .illegalCommand, info := encode i } := by
  unfold illegalFields
  cases e : i.fieldError with
  | none => exact absurd e h
  | some _ => rfl

/-- The operand-range check passes exactly when every listed register holds a value below `MOD` (R172). -/
theorem State.operandRange_eq_none {regs : List RegNum} :
    s.operandRange regs = none ↔ ∀ r ∈ regs, s.getB r < s.mod := by
  unfold State.operandRange
  cases e : regs.find? (fun r => decide (s.mod ≤ s.getB r)) with
  | none =>
    rw [List.find?_eq_none] at e
    simpa using e
  | some r =>
    have h1 := List.mem_of_find?_eq_some e
    have h2 := List.find?_some e
    simp only [decide_eq_true_eq] at h2
    refine iff_of_false (by simp) fun h => ?_
    have := h r h1
    omega

/-- The operand-range check names the first register out of range (R172). -/
theorem State.operandRange_first {pre post : List RegNum} {r : RegNum} (hpre : ∀ q ∈ pre, s.getB q < s.mod)
    (hr : s.mod ≤ s.getB r) :
    s.operandRange (pre ++ r :: post) = some { cause := .operandRange, info := BitVec.ofNat 32 r.val } := by
  unfold State.operandRange
  have e : (pre ++ r :: post).find? (fun q => decide (s.mod ≤ s.getB q)) = some r := by
    rw [List.find?_append, List.find?_eq_none.2 fun q hq => by simpa using hpre q hq]
    simp [hr]
  rw [e]

theorem State.memoryAccess_none {ea : Word} (h1 : ea.toNat % 8 = 0) (h2 : ea.toNat + s.params.bigBytes ≤ s.params.dmemb) :
    s.memoryAccess ea = none := by
  unfold State.memoryAccess
  rw [if_neg (by omega), if_neg (by omega)]

end Checks

end Sys2Proof.Machine
end

