-- ==== Sys2Proof/Machine/Summary.lean ====
section
/-! DEFINITION. The checks and the completed state of every command as two tables, for proofs: `Laws/Exec.lean` proves that
`exec` is exactly these. -/

namespace Sys2Proof.Machine

/-- The checks of a command, in their order (R170, R209, R258, R288). -/
def commandChecks (i : Instr) (s : State) : Option Trap :=
  match i with
  | .nop => none
  | .halt => none
  | .jmp _ => none
  | .bfs sel imm => illegalFields (.bfs sel imm)
  | .bfc sel imm => illegalFields (.bfc sel imm)
  | .dbnz _ _ => none
  | .ali _ _ => none
  | .aaddi _ _ _ => none
  | .ld _ ra imm => let ea := s.effectiveAddress ra imm; s.memoryAccess ea
  | .st _ ra imm => let ea := s.effectiveAddress ra imm; s.memoryAccess ea
  | .badd _ _ _ => none
  | .badc _ _ _ => none
  | .bsub _ _ _ => none
  | .bsbb _ _ _ => none
  | .bcmp _ _ => none
  | .bshr1 _ _ => none
  | .bmulw rd ra rb => illegalFields (.bmulw rd ra rb)
  | .btstz _ => none
  | .bmov _ _ => none
  | .bldi _ _ => none
  | .bcsel rd ra rb sel => illegalFields (.bcsel rd ra rb sel)
  | .modset ra => s.modsetChecks ra
  | .fadd _ ra rb => s.fieldChecks [ra, rb]
  | .fsub _ ra rb => s.fieldChecks [ra, rb]
  | .fneg _ ra => s.fieldChecks [ra]
  | .fmul _ ra rb => s.fieldChecks [ra, rb]
  | .fsqr _ ra => s.fieldChecks [ra]
  | .finv _ ra => s.fieldChecks [ra]
  | .fsqrt _ ra => s.fsqrtChecks ra
  | .fexp _ ra _ => s.fieldChecks [ra]
  | .ftom _ _ => s.fieldChecks []
  | .ffrm _ ra => s.fieldChecks [ra]
  | .fone _ => s.fieldChecks []
  | .crvset ra rb _ => s.fieldChecks [ra, rb]
  | .padd rd ra rb => s.curveChecks (.padd rd ra rb) (tripleRegs ra ++ tripleRegs rb)
  | .pdbl rd ra => s.curveChecks (.pdbl rd ra) (tripleRegs ra)
  | .pmul rd ra rb => s.curveChecks (.pmul rd ra rb) (tripleRegs ra)
  | .ponc ra => s.curveChecks (.ponc ra) (tripleRegs ra)
  | .psgc ra => s.curveChecks (.psgc ra) (tripleRegs ra)
  | .paff rd ra => s.curveChecks (.paff rd ra) (tripleRegs ra)
  | .peq ra rb => s.curveChecks (.peq ra rb) (tripleRegs ra ++ tripleRegs rb)

/-- The state of a command that passes its checks. -/
def commandDone (i : Instr) (s : State) : State :=
  match i with
  | .nop => s.complete
  | .halt => { s with run := .done, ip := s.ip ||| 0b01#2 }.complete
  | .jmp imm => s.branchIf true imm
  | .bfs sel imm => s.branchIf (s.flagAt sel) imm
  | .bfc sel imm => s.branchIf (!s.flagAt sel) imm
  | .dbnz rs imm => let v := s.getA rs - 1; ((s.setA rs v).branchIf (v != 0) imm)
  | .ali rd imm => (s.setA rd (imm.setWidth 32)).complete
  | .aaddi rd ra imm => (s.setA rd (s.effectiveAddress ra imm)).complete
  | .ld rd ra imm => let ea := s.effectiveAddress ra imm; (s.setB rd (s.memRead ea.toNat s.params.bigBytes)).complete
  | .st rd ra imm => let ea := s.effectiveAddress ra imm; (s.memWrite ea.toNat s.params.bigBytes (s.getB rd)).complete
  | .badd rd ra rb => (s.addBig rd ra rb false).complete
  | .badc rd ra rb => (s.addBig rd ra rb (s.flag .cy)).complete
  | .bsub rd ra rb => (s.subBig rd ra rb false).complete
  | .bsbb rd ra rb => (s.subBig rd ra rb (s.flag .cy)).complete
  | .bcmp ra rb => ((s.setFlag .lt (s.getB ra < s.getB rb)).setFlag .eq (s.getB ra == s.getB rb)).complete
  | .bshr1 rd ra => let v := s.getB ra; ((s.setB rd (v / 2)).setCarryZero (v % 2 == 1) (v / 2)).complete
  | .bmulw rd ra rb => let t := s.getB ra * s.getB rb; ((s.setB rd (t % s.radix)).setB (rd + 1) (t / s.radix)).complete
  | .btstz ra => (s.setFlag .z (s.getB ra == 0)).complete
  | .bmov rd ra => (s.setB rd (s.getB ra)).complete
  | .bldi rd imm => (s.setB rd imm.toNat).complete
  | .bcsel rd ra rb sel => (s.setB rd (if s.flagAt sel then s.getB ra else s.getB rb)).complete
  | .modset ra => (s.latchModulus (s.getB ra)).complete
  | .fadd rd ra rb => s.completeField rd (.ret (fadd s.ctx (s.getB ra) (s.getB rb)))
  | .fsub rd ra rb => s.completeField rd (.ret (fsub s.ctx (s.getB ra) (s.getB rb)))
  | .fneg rd ra => s.completeField rd (.ret (fneg s.ctx (s.getB ra)))
  | .fmul rd ra rb => s.completeField rd (mont s.ctx (s.getB ra) (s.getB rb))
  | .fsqr rd ra => s.completeField rd (mont s.ctx (s.getB ra) (s.getB ra))
  | .finv rd ra => s.completeFinv rd (s.getB ra) (expCore s.ctx (s.getB ra) (s.mod - 2))
  | .fsqrt rd ra => s.completeFsqrt rd (s.getB ra) (sqrtCandidate s.ctx (s.getB ra))
  | .fexp rd ra rb => s.completeField rd (expCore s.ctx (s.getB ra) (s.getB rb))
  | .ftom rd ra => s.completeFtom rd (s.getB ra)
  | .ffrm rd ra => s.completeField rd (mont s.ctx (s.getB ra) 1)
  | .fone rd => ((s.setB rd s.rone).setFlag .z false).complete
  | .crvset ra rb rc => { s with crvv := true, curveA := s.getB ra, curveB := s.getB rb, order := s.getB rc }.complete
  | .padd rd ra rb => s.completePoint rd (addCore s.ctx (s.getP ra) (s.getP rb))
  | .pdbl rd ra => s.completePoint rd (dblCanon s.ctx (s.getP ra))
  | .pmul rd ra rb => s.completePoint rd (mulCore s.ctx (s.getP ra) (s.getB rb))
  | .ponc ra => s.completeTest .ivp ((onCurve s.ctx (s.getP ra)).map (!·))
  | .psgc ra => s.completeTest .ivp ((mulCore s.ctx (s.getP ra) s.order).map (fun q => q.z != 0))
  | .paff rd ra => s.completePaff rd (s.getP ra).z (affine s.ctx (s.getP ra))
  | .peq ra rb => s.completeTest .eq (pointEq s.ctx (s.getP ra) (s.getP rb))

end Sys2Proof.Machine
end

