-- ==== Sys2Proof/Laws/Exec.lean ====
section
/-! SUPPORT. What a command and a step can do, said once: every command is its checks and then its completed state, and a
step is one turn. Later proofs cite `exec_eq_guarded`, `exec_next`, `exec_completes` and the lemmas about `step`. -/

namespace Sys2Proof.Machine

/-- Every command is its checks and then its completed state. -/
theorem exec_eq_guarded (i : Instr) (s : State) : exec i s = guarded (commandChecks i s) s (commandDone i s) := by
  cases i <;> rfl

/-- Every command has a next state: the fault its checks found, or its completed state. -/
theorem exec_next {i : Instr} {s t : State} (h : exec i s = .next t) :
    (∃ trap, commandChecks i s = some trap ∧ t = s.raise trap) ∨ (commandChecks i s = none ∧ t = commandDone i s) :=
  guarded_next (exec_eq_guarded i s ▸ h)

theorem exec_completes {i : Instr} {s : State} (h : commandChecks i s = none) : exec i s = .next (commandDone i s) := by
  rw [exec_eq_guarded, h, guarded_none]

theorem exec_faults {i : Instr} {s : State} {trap : Trap} (h : commandChecks i s = some trap) :
    exec i s = .next (s.raise trap) := by
  rw [exec_eq_guarded, h, guarded_some]

/-- With no turn waiting a step is the sequencer's (R20). -/
theorem step_nil {s : State} (h : s.turns = []) : step s = s.sequencerStep := by
  unfold step
  rw [h]

/-- With a turn waiting a step takes it off the list and takes it (R20). -/
theorem step_cons {s : State} {u : Turn} {rest : List Turn} (h : s.turns = u :: rest) :
    step s = State.takeTurn { s with turns := rest } u := by
  unfold step
  rw [h]

/-- What a step of the sequencer can do (R248, R305): nothing outside RUNNING, a fault of the fetch or of the decoder, or
the command that stands at `pc`. -/
theorem sequencerStep_cases (s : State) :
    (s.mayStep = false ∧ s.sequencerStep = .next s) ∨
    (s.mayStep = true ∧ ∃ trap, s.fetchDecode = .error trap ∧ s.sequencerStep = .next (s.raise trap)) ∨
    (s.mayStep = true ∧ ∃ i, s.fetchDecode = .ok i ∧ s.sequencerStep = exec i s) := by
  unfold State.sequencerStep
  cases h : s.mayStep with
  | false => exact .inl ⟨rfl, by simp⟩
  | true =>
    cases e : s.fetchDecode with
    | error trap => exact .inr (.inl ⟨rfl, trap, rfl, by simp⟩)
    | ok i => exact .inr (.inr ⟨rfl, i, rfl, by simp⟩)

/-- What a step can do, in one list: a turn of the sequencer with its three cases, an access of the host, or a change of
the reset input. `u` is `s` with the turn taken off. -/
theorem step_cases {s t : State} (h : step s = .next t) :
    ∃ u : State, (u = s ∨ ∃ rest, u = { s with turns := rest }) ∧
      (t = u ∨ (∃ trap, u.mayStep = true ∧ u.fetchDecode = .error trap ∧ t = u.raise trap) ∨
        (∃ i, u.mayStep = true ∧ u.fetchDecode = .ok i ∧ exec i u = .next t) ∨
        (∃ a rest, s.turns = .host a :: rest ∧ u = { s with turns := rest } ∧ t = u.hostTurn a) ∨
        (∃ rest, s.turns = .assertReset :: rest ∧ u = { s with turns := rest } ∧ u.resetInput = false ∧ t = u.assertReset) ∨
        (∃ rest, s.turns = .releaseReset :: rest ∧ u = { s with turns := rest } ∧ t = u.releaseReset)) := by
  have seq : ∀ u : State, u.sequencerStep = .next t →
      t = u ∨ (∃ trap, u.mayStep = true ∧ u.fetchDecode = .error trap ∧ t = u.raise trap) ∨
        (∃ i, u.mayStep = true ∧ u.fetchDecode = .ok i ∧ exec i u = .next t) := by
    intro u hu
    rcases sequencerStep_cases u with ⟨_, e⟩ | ⟨hm, trap, hf, e⟩ | ⟨hm, i, hf, e⟩
    · rw [e] at hu
      exact .inl (by simpa using hu.symm)
    · rw [e] at hu
      exact .inr (.inl ⟨trap, hm, hf, by simpa using hu.symm⟩)
    · exact .inr (.inr ⟨i, hm, hf, e ▸ hu⟩)
  cases e : s.turns with
  | nil =>
    rw [step_nil e] at h
    refine ⟨s, .inl rfl, ?_⟩
    rcases seq s h with h | h | h
    · exact .inl h
    · exact .inr (.inl h)
    · exact .inr (.inr (.inl h))
  | cons turn rest =>
    rw [step_cons e] at h
    refine ⟨{ s with turns := rest }, .inr ⟨rest, rfl⟩, ?_⟩
    cases turn with
    | sequencer =>
      rcases seq _ h with h | h | h
      · exact .inl h
      · exact .inr (.inl h)
      · exact .inr (.inr (.inl h))
    | host a =>
      exact .inr (.inr (.inr (.inl ⟨a, rest, rfl, rfl, by simpa [State.takeTurn] using h.symm⟩)))
    | assertReset =>
      have h' : (if s.resetInput then { s with turns := rest } else State.assertReset { s with turns := rest }) = t := by
        simpa [State.takeTurn] using h
      cases hr : s.resetInput with
      | true =>
        rw [hr, if_pos rfl] at h'
        exact .inl h'.symm
      | false =>
        rw [hr] at h'
        exact .inr (.inr (.inr (.inr (.inl ⟨rest, rfl, rfl, rfl, by simpa using h'.symm⟩))))
    | releaseReset =>
      exact .inr (.inr (.inr (.inr (.inr ⟨rest, rfl, rfl, by simpa [State.takeTurn] using h.symm⟩))))

/-- The frame of a completed command from the seven parts that it can differ in: the rest follows. -/
theorem Completes.of_rest {s t : State} {regs : List RegNum} {flags : List Flag} {sticky : BitVec 5} {calls : Nat}
    {next : CmdIndex} (hregs : ∀ r, r ∉ regs → t.getB r = s.getB r) (hflags : ∀ f, f ∉ flags → t.flag f = s.flag f)
    (herrs : t.errs = s.errs ||| sticky) (hmul : t.mulcnt = s.mulcnt + BitVec.ofNat 64 calls)
    (hret : t.instret = s.instret + 1) (hpc : t.pc = next)
    (hrest : t = { s with
      b := t.b, flags := t.flags, errs := t.errs, pc := t.pc, mulcnt := t.mulcnt, instret := t.instret }) :
    Completes s t regs flags sticky calls next where
  regs := hregs
  flags := hflags
  errs := herrs
  mulcnt := hmul
  instret := hret
  pc := hpc
  bytes _ := by rw [hrest]; rfl
  words _ := by rw [hrest]; rfl
  addresses _ := by rw [hrest]; rfl
  rest := hrest

/-- Every step has a next state. -/
theorem exec_total (i : Instr) (s : State) : ∃ t, exec i s = .next t := by
  rw [exec_eq_guarded]
  cases commandChecks i s with
  | none => exact ⟨_, rfl⟩
  | some trap => exact ⟨_, rfl⟩

end Sys2Proof.Machine
end

