-- ==== Sys2Proof/Laws/Montgomery.lean ====
section
/-! SUPPORT. The datapaths: how calls of the multiplier add up, what the reduction loop and Newton's iteration keep, and the
field adder modulo p. -/

namespace Sys2Proof.Machine

section Counting

variable {α β : Type}

@[simp] theorem Counted.ret_val (x : α) : (Counted.ret x).val = x := rfl
@[simp] theorem Counted.ret_calls (x : α) : (Counted.ret x).calls = 0 := rfl
@[simp] theorem Counted.bind_val (m : Counted α) (f : α → Counted β) : (m.bind f).val = (f m.val).val := rfl
@[simp] theorem Counted.bind_calls (m : Counted α) (f : α → Counted β) :
    (m.bind f).calls = m.calls + (f m.val).calls := rfl
@[simp] theorem Counted.map_val (f : α → β) (m : Counted α) : (m.map f).val = f m.val := rfl
@[simp] theorem Counted.map_calls (f : α → β) (m : Counted α) : (m.map f).calls = m.calls := rfl
@[simp] theorem mont_val (c : Ctx) (x y : Nat) : (mont c x y).val = montMul c x y := rfl
@[simp] theorem mont_calls (c : Ctx) (x y : Nat) : (mont c x y).calls = 1 := rfl

variable (c : Ctx)

@[simp] theorem expLoop_calls (x e i acc : Nat) : (expLoop c x e i acc).calls = 2 * i := by
  induction i generalizing acc with
  | zero => rfl
  | succ i ih => simp only [expLoop, Counted.bind_calls, mont_calls, ih]; omega

@[simp] theorem expCore_calls (x e : Nat) : (expCore c x e).calls = 128 * c.n := by
  rw [expCore, expLoop_calls]
  omega

@[simp] theorem dblCore_calls (p : Point) : (dblCore c p).calls = 10 := by
  simp only [dblCore, Counted.bind_calls, mont_calls, Counted.ret_calls]

@[simp] theorem dblCanon_calls (p : Point) : (dblCanon c p).calls = 10 := by
  simp only [dblCanon, Counted.map_calls, dblCore_calls]

@[simp] theorem addCore_calls (p q : Point) : (addCore c p q).calls = 26 := by
  simp only [addCore, Counted.bind_calls, mont_calls, dblCore_calls, Counted.ret_calls]

@[simp] theorem tableFrom_calls (p prev : Point) (k : Nat) : (tableFrom c p k prev).calls = 26 * k := by
  induction k generalizing prev with
  | zero => rfl
  | succ k ih => simp only [tableFrom, Counted.bind_calls, Counted.map_calls, addCore_calls, ih]; omega

@[simp] theorem pointTable_calls (p : Point) : (pointTable c p).calls = 364 := by
  simp [pointTable]

@[simp] theorem mulLoop_calls (table : List Point) (k w : Nat) (acc : Point) :
    (mulLoop c table k w acc).calls = 66 * w := by
  induction w generalizing acc with
  | zero => rfl
  | succ w ih => simp only [mulLoop, Counted.bind_calls, dblCanon_calls, addCore_calls, ih]; omega

@[simp] theorem mulCore_calls (p : Point) (k : Nat) : (mulCore c p k).calls = 364 + 1056 * c.n := by
  simp only [mulCore, Counted.bind_calls, pointTable_calls, mulLoop_calls]
  omega

@[simp] theorem onCurve_calls (p : Point) : (onCurve c p).calls = 9 := by
  simp only [onCurve, Counted.bind_calls, mont_calls, Counted.ret_calls]

@[simp] theorem affine_calls (p : Point) : (affine c p).calls = 128 * c.n + 4 := by
  simp [affine]

@[simp] theorem pointEq_calls (p q : Point) : (pointEq c p q).calls = 8 := by
  simp only [pointEq, Counted.bind_calls, mont_calls, Counted.ret_calls]

@[simp] theorem sqrtCandidate_calls (x : Nat) : (sqrtCandidate c x).calls = 128 * c.n + 1 := by
  simp [sqrtCandidate]

end Counting

section Reduction

/-- A limb u with the multiple of p that R174 adds to it is 0 modulo 2^64. -/
theorem limb_cleared {p inv u : Nat} (h : (p * inv) % 2 ^ 64 = 2 ^ 64 - 1) :
    2 ^ 64 ∣ u + (u % 2 ^ 64 * inv % 2 ^ 64) * p := by
  have e : (u + (u % 2 ^ 64 * inv % 2 ^ 64) * p) ≡ u + u * (p * inv) [MOD 2 ^ 64] := by
    refine Nat.ModEq.add_left _ ?_
    calc (u % 2 ^ 64 * inv % 2 ^ 64) * p ≡ (u % 2 ^ 64 * inv) * p [MOD 2 ^ 64] := (Nat.mod_modEq _ _).mul_right _
      _ ≡ (u * inv) * p [MOD 2 ^ 64] := ((Nat.mod_modEq _ _).mul_right _).mul_right _
      _ = u * (p * inv) := by ring
  have m : p * inv ≡ 2 ^ 64 - 1 [MOD 2 ^ 64] := by
    rw [Nat.ModEq, h]
    norm_num
  have z : u + u * (p * inv) ≡ 0 [MOD 2 ^ 64] :=
    calc u + u * (p * inv) ≡ u + u * (2 ^ 64 - 1) [MOD 2 ^ 64] := (m.mul_left u).add_left u
      _ = 2 ^ 64 * u := by omega
      _ ≡ 0 [MOD 2 ^ 64] := (Nat.modEq_zero_iff_dvd).2 ⟨u, rfl⟩
  exact (Nat.modEq_zero_iff_dvd).1 (e.trans z)

/-- What the reduction loop does from limb i for k limbs: it adds a multiple M·p·2^(64i) with M < 2^(64k) that clears those
limbs (R174). -/
theorem reduceLimbs_spec (c : Ctx) (h : (c.p * c.inv) % 2 ^ 64 = 2 ^ 64 - 1) (k i t : Nat) (ht : 2 ^ (64 * i) ∣ t) :
    ∃ M < 2 ^ (64 * k), reduceLimbs c k i t = t + M * c.p * 2 ^ (64 * i) ∧
      2 ^ (64 * (i + k)) ∣ reduceLimbs c k i t := by
  induction k generalizing i t with
  | zero => exact ⟨0, by simp, by simp [reduceLimbs], by simpa [reduceLimbs] using ht⟩
  | succ k ih =>
    obtain ⟨u, rfl⟩ := ht
    have hpos : 0 < 2 ^ (64 * i) := Nat.two_pow_pos _
    have hdiv : 2 ^ (64 * i) * u / 2 ^ (64 * i) = u := Nat.mul_div_cancel_left _ hpos
    set m := u % 2 ^ 64 * c.inv % 2 ^ 64 with hm
    have hnext : 2 ^ (64 * (i + 1)) ∣ 2 ^ (64 * i) * u + m * c.p * 2 ^ (64 * i) := by
      have e : 2 ^ (64 * i) * u + m * c.p * 2 ^ (64 * i) = 2 ^ (64 * i) * (u + m * c.p) := by ring
      rw [e, show 64 * (i + 1) = 64 * i + 64 by omega, pow_add]
      exact Nat.mul_dvd_mul_left _ (limb_cleared h)
    obtain ⟨M, hM, e, hd⟩ := ih (i + 1) _ hnext
    have hlt : m < 2 ^ 64 := Nat.mod_lt _ (by norm_num)
    have hred : reduceLimbs c (k + 1) i (2 ^ (64 * i) * u) =
        reduceLimbs c k (i + 1) (2 ^ (64 * i) * u + m * c.p * 2 ^ (64 * i)) := by
      rw [reduceLimbs, hdiv]
    refine ⟨m + 2 ^ 64 * M, ?_, ?_, ?_⟩
    · have e64 : 2 ^ (64 * (k + 1)) = 2 ^ 64 * 2 ^ (64 * k) := by rw [← pow_add]; congr 1; omega
      rw [e64]
      nlinarith
    · rw [hred, e, show 64 * (i + 1) = 64 * i + 64 by omega, pow_add]
      ring
    · rw [hred, show i + (k + 1) = i + 1 + k by omega]
      exact hd

end Reduction

section Newton

/-- One step of Newton's iteration doubles the number of correct bits: if v·x ≡ 1 modulo d and d² divides 2^64, then
v·x' ≡ 1 modulo d². -/
theorem invStep_doubles {v x d : Nat} (hd : d * d ∣ 2 ^ 64) (h : (v * x : ℤ) ≡ 1 [ZMOD d]) :
    (v * invStep v x : ℤ) ≡ 1 [ZMOD (d * d : ℕ)] := by
  have hdd : ((d * d : ℕ) : ℤ) ∣ (2 ^ 64 : ℤ) := by exact_mod_cast hd
  have hle : v * x % 2 ^ 64 ≤ 2 ^ 64 := (Nat.mod_lt _ (by norm_num)).le
  have hmod : ((v * x % 2 ^ 64 : ℕ) : ℤ) ≡ (v * x : ℤ) [ZMOD (d * d : ℕ)] := by
    refine Int.ModEq.of_dvd hdd ?_
    push_cast
    exact Int.mod_modEq _ _
  have hstep : (invStep v x : ℤ) ≡ x * (2 - v * x) [ZMOD (d * d : ℕ)] := by
    have h1 : (invStep v x : ℤ) ≡ x * (2 + (2 ^ 64 - ((v * x % 2 ^ 64 : ℕ) : ℤ))) [ZMOD (d * d : ℕ)] := by
      refine Int.ModEq.of_dvd hdd ?_
      have e : (invStep v x : ℤ) = (x * (2 + (2 ^ 64 - ((v * x % 2 ^ 64 : ℕ) : ℤ)))) % 2 ^ 64 := by
        unfold invStep
        rw [Int.natCast_mod, Nat.cast_mul, Nat.cast_add, Nat.cast_sub hle]
        norm_num
      rw [e]
      exact Int.mod_modEq _ _
    have h0 : (2 ^ 64 : ℤ) ≡ 0 [ZMOD (d * d : ℕ)] := (Int.modEq_zero_iff_dvd).2 hdd
    refine h1.trans (Int.ModEq.mul_left _ ?_)
    calc 2 + (2 ^ 64 - ((v * x % 2 ^ 64 : ℕ) : ℤ)) ≡ 2 + (0 - v * x) [ZMOD (d * d : ℕ)] :=
          (h0.sub hmod).add_left 2
      _ = 2 - v * x := by ring
  obtain ⟨k, hk⟩ := (Int.modEq_iff_dvd).1 h
  have goal : (v * (x * (2 - v * x)) : ℤ) ≡ 1 [ZMOD (d * d : ℕ)] := by
    rw [Int.modEq_iff_dvd]
    refine ⟨k * k, ?_⟩
    have e : (1 : ℤ) - v * (x * (2 - v * x)) = (1 - v * x) * (1 - v * x) := by ring
    rw [e, hk]
    push_cast
    ring
  exact (hstep.mul_left _).trans goal

/-- An odd number is its own inverse modulo 8. -/
theorem odd_square_mod_eight {v : Nat} (h : v % 2 = 1) : (v * (v % 2 ^ 64 : ℕ) : ℤ) ≡ 1 [ZMOD (2 ^ 3 : ℕ)] := by
  have e : ((v % 2 ^ 64 : ℕ) : ℤ) ≡ v [ZMOD (2 ^ 3 : ℕ)] :=
    by
    refine Int.ModEq.of_dvd (n := (2 ^ 64 : ℤ)) (by norm_num) ?_
    push_cast
    exact Int.mod_modEq _ _
  refine (e.mul_left _).trans ?_
  obtain ⟨j, rfl⟩ : ∃ j, v = 2 * j + 1 := ⟨v / 2, by omega⟩
  obtain ⟨m, hm⟩ : ∃ m : ℕ, j * (j + 1) = 2 * m := ⟨_, (Nat.even_mul_succ_self j).two_dvd.choose_spec⟩
  rw [Int.modEq_iff_dvd]
  refine ⟨-m, ?_⟩
  have hm' : (j : ℤ) * (j + 1) = 2 * m := by exact_mod_cast hm
  push_cast
  linear_combination (-4) * hm'

end Newton

section Adder

variable {c : Ctx} {x y : Nat}

theorem fadd_lt (hx : x < c.p) (hy : y < c.p) : fadd c x y < c.p := by
  unfold fadd
  split_ifs <;> omega

theorem fsub_lt (hx : x < c.p) (hy : y < c.p) : fsub c x y < c.p := by
  unfold fsub
  split_ifs <;> omega

theorem fneg_lt (hp : 0 < c.p) : fneg c x < c.p := by
  unfold fneg
  split_ifs <;> omega

theorem fadd_cast : (fadd c x y : ZMod c.p) = x + y := by
  unfold fadd
  split_ifs with h
  · rw [Nat.cast_sub h]; simp
  · simp

theorem fsub_cast (hy : y < c.p) : (fsub c x y : ZMod c.p) = x - y := by
  unfold fsub
  split_ifs with h
  · rw [Nat.cast_sub h]
  · rw [Nat.cast_sub (by omega)]; simp

theorem fneg_cast (hx : x < c.p) : (fneg c x : ZMod c.p) = -x := by
  unfold fneg
  split_ifs with h
  · simp [h]
  · rw [Nat.cast_sub hx.le]; simp

end Adder

end Sys2Proof.Machine
end

