-- ==== Sys2Proof/Laws/Field.lean ====
section
/-! SUPPORT. The datapaths over a latched modulus: stored values stay below it, and on true values they are the operations of
the ring of integers modulo p (R173 to R175, R211, R212). -/

set_option linter.unusedSectionVars false

namespace Sys2Proof.Machine

/-- `INV` of an odd value has the property of R33. -/
theorem negInverse_spec {v : Nat} (h : v % 2 = 1) : (v * negInverse v) % 2 ^ 64 = 2 ^ 64 - 1 := by
  have h3 := odd_square_mod_eight h
  have h6 := invStep_doubles (d := 2 ^ 3) (by norm_num) h3
  have h12 := invStep_doubles (d := 2 ^ 3 * 2 ^ 3) (by norm_num) h6
  have h24 := invStep_doubles (d := 2 ^ 3 * 2 ^ 3 * (2 ^ 3 * 2 ^ 3)) (by norm_num) h12
  have h24' : (v * invStep v (invStep v (invStep v (v % 2 ^ 64))) : ℤ) ≡ 1 [ZMOD (2 ^ 16 : ℕ)] :=
    h24.of_dvd (by norm_num)
  have h32 := invStep_doubles (d := 2 ^ 16) (by norm_num) h24'
  have h64 := invStep_doubles (d := 2 ^ 16 * 2 ^ 16) (by norm_num) h32
  set x := invStep v (invStep v (invStep v (invStep v (invStep v (v % 2 ^ 64))))) with hx
  have hlt : x < 2 ^ 64 := Nat.mod_lt _ (by norm_num)
  have hx0 : x ≠ 0 := by
    intro e
    rw [e] at h64
    norm_num [Int.ModEq] at h64
  have e : negInverse v = 2 ^ 64 - x := by
    unfold negInverse
    simp only [← hx]
    exact Nat.mod_eq_of_lt (by omega)
  have key : ((v * (2 ^ 64 - x) : ℕ) : ℤ) ≡ ((2 ^ 64 - 1 : ℕ) : ℤ) [ZMOD ((2 ^ 64 : ℕ) : ℤ)] := by
    have h0 : ((2 ^ 64 : ℕ) : ℤ) ≡ 0 [ZMOD ((2 ^ 64 : ℕ) : ℤ)] := by simp [Int.ModEq]
    have h1 : (v * x : ℤ) ≡ 1 [ZMOD ((2 ^ 64 : ℕ) : ℤ)] := h64.of_dvd (by norm_num)
    rw [Nat.cast_mul, Nat.cast_sub hlt.le, Nat.cast_sub (by norm_num : (1 : ℕ) ≤ 2 ^ 64)]
    calc (v : ℤ) * (((2 ^ 64 : ℕ) : ℤ) - x) = v * ((2 ^ 64 : ℕ) : ℤ) - v * x := by ring
      _ ≡ v * 0 - 1 [ZMOD ((2 ^ 64 : ℕ) : ℤ)] := (h0.mul_left _).sub h1
      _ = 0 - 1 := by ring
      _ ≡ ((2 ^ 64 : ℕ) : ℤ) - (1 : ℕ) [ZMOD ((2 ^ 64 : ℕ) : ℤ)] := (h0.symm).sub (by rfl)
  rw [e]
  have := (Int.natCast_modEq_iff).1 key
  rw [Nat.ModEq] at this
  rw [this]
  norm_num

/-- A stored value of a given true value (R23). -/
structure State.Val (s : State) (v : Nat) (x : ZMod s.mod) : Prop where
  below : v < s.mod
  value : s.trueValue v = x

theorem both_or_neither {a b : Prop} (h : a ↔ b) : (a ∧ b) ∨ (¬ a ∧ ¬ b) := by tauto

/-- A stored triple of given true coordinates (R23, R208). -/
structure State.PointVal (s : State) (p : Point) (j : Jac (ZMod s.mod)) : Prop where
  x : s.Val p.x j.x
  y : s.Val p.y j.y
  z : s.Val p.z j.z

/-- One line of a datapath's pseudocode: what follows needs to know the stored value of the line's result only. -/
theorem State.Val.bindPoint {s : State} {m : Counted Nat} {f : Nat → Counted Point} {x : ZMod s.mod}
    {j : Jac (ZMod s.mod)} (hm : s.Val m.val x) (hf : ∀ v, s.Val v x → s.PointVal (f v).val j) :
    s.PointVal (m.bind f).val j :=
  hf _ hm

/-- The same for a datapath that makes any other value. -/
theorem State.Val.bind {β : Type} {s : State} {m : Counted Nat} {f : Nat → Counted β} {x : ZMod s.mod} (P : β → Prop)
    (hm : s.Val m.val x) (hf : ∀ v, s.Val v x → P (f v).val) : P (m.bind f).val :=
  hf _ hm

theorem State.PointVal.cast {s : State} {p : Point} {j k : Jac (ZMod s.mod)} (h : s.PointVal p j) (hx : j.x = k.x)
    (hy : j.y = k.y) (hz : j.z = k.z) : s.PointVal p k :=
  ⟨hx ▸ h.x, hy ▸ h.y, hz ▸ h.z⟩

namespace State.FieldReady

variable {s : State} (h : s.FieldReady)
include h

theorem pos : 0 < s.mod := by have := h.lower; omega

theorem one_lt : 1 < s.mod := by have := h.lower; omega

theorem limbs_pos : 0 < s.params.n := by
  rcases Nat.eq_zero_or_pos s.params.n with e | e
  · have h1 := h.upper
    have h2 := h.lower
    rw [State.radix_eq, e] at h1
    omega
  · exact e

theorem coprime : Nat.Coprime s.radix s.mod := by
  rw [State.radix_eq]
  refine Nat.Coprime.pow_left _ ?_
  exact (Nat.coprime_two_left).2 (Nat.odd_iff.2 h.odd)

/-- The radix is a unit modulo p, since p is odd. -/
theorem radix_mul_inv : (s.radix : ZMod s.mod) * (s.radix : ZMod s.mod)⁻¹ = 1 := ZMod.coe_mul_inv_eq_one _ h.coprime

/-- A stored value is (true value · R) modulo p (R23). -/
theorem trueValue_mul_radix (v : Nat) : s.trueValue v * (s.radix : ZMod s.mod) = v := by
  rw [State.trueValue, mul_assoc, mul_comm _ (s.radix : ZMod s.mod), h.radix_mul_inv, mul_one]

theorem trueValue_eq_iff {v : Nat} {x : ZMod s.mod} : s.trueValue v = x ↔ (v : ZMod s.mod) = x * s.radix := by
  constructor
  · rintro rfl
    exact (h.trueValue_mul_radix v).symm
  · intro e
    rw [State.trueValue, e, mul_assoc, h.radix_mul_inv, mul_one]

/-- Each field element has one stored value (R189). -/
theorem trueValue_inj {v w : Nat} (hv : v < s.mod) (hw : w < s.mod) : s.trueValue v = s.trueValue w ↔ v = w := by
  constructor
  · intro e
    have e' : (v : ZMod s.mod) = w := by rw [← h.trueValue_mul_radix v, e, h.trueValue_mul_radix]
    have := (ZMod.natCast_eq_natCast_iff _ _ _).1 e'
    rwa [Nat.ModEq, Nat.mod_eq_of_lt hv, Nat.mod_eq_of_lt hw] at this
  · rintro rfl
    rfl

@[simp] theorem trueValue_zero : s.trueValue 0 = 0 := by simp [State.trueValue]

theorem trueValue_eq_zero {v : Nat} (hv : v < s.mod) : s.trueValue v = 0 ↔ v = 0 := by
  rw [← h.trueValue_zero, h.trueValue_inj hv h.pos]

theorem rone_lt : s.rone < s.mod := by
  rw [h.rone]
  exact Nat.mod_lt _ h.pos

/-- `RONE` is the stored value of 1 (R34). -/
@[simp] theorem trueValue_rone : s.trueValue s.rone = 1 := by
  rw [h.trueValue_eq_iff, h.rone, one_mul, ZMod.natCast_mod]

/-- `RONE` is not 0 (R34). -/
theorem rone_ne_zero : s.rone ≠ 0 := by
  have : Fact (1 < s.mod) := ⟨h.one_lt⟩
  intro e
  have := h.trueValue_rone
  rw [e, h.trueValue_zero] at this
  exact zero_ne_one this

theorem trueValue_rsq : s.trueValue s.rsq = s.radix := by
  rw [h.trueValue_eq_iff, h.rsq, ZMod.natCast_mod, Nat.cast_mul]

theorem rsq_lt : s.rsq < s.mod := by
  rw [h.rsq]
  exact Nat.mod_lt _ h.pos

/-- The value before the conditional subtraction of R174: it is below 2·p and R times it is a·b + M·p. -/
theorem reduced {a b : Nat} (ha : a < s.mod) (hb : b < s.mod) :
    let t := reduceLimbs s.ctx s.params.n 0 (a * b) / s.radix
    t < 2 * s.mod ∧ ∃ M, t * s.radix = a * b + M * s.mod := by
  obtain ⟨M, hM, e, hd⟩ := reduceLimbs_spec s.ctx h.inv s.params.n 0 (a * b) (by simp)
  rw [Nat.mul_zero, pow_zero, Nat.mul_one] at e
  rw [Nat.zero_add] at hd
  have hp : s.ctx.p = s.mod := rfl
  rw [hp] at e
  have hM' : M < s.radix := hM
  have hd' : s.radix ∣ reduceLimbs s.ctx s.params.n 0 (a * b) := hd
  have hab : a * b < s.radix * s.mod := by
    calc a * b ≤ s.mod * b := Nat.mul_le_mul_right _ ha.le
      _ < s.mod * s.mod := Nat.mul_lt_mul_of_pos_left hb h.pos
      _ ≤ s.radix * s.mod := Nat.mul_le_mul_right _ h.upper.le
  have hMp : M * s.mod ≤ s.radix * s.mod := Nat.mul_le_mul_right _ hM'.le
  refine ⟨?_, M, ?_⟩
  · rw [Nat.div_lt_iff_lt_mul s.radix_pos, e]
    nlinarith
  · rw [Nat.div_mul_cancel hd', e]

theorem montMul_lt {a b : Nat} (ha : a < s.mod) (hb : b < s.mod) : montMul s.ctx a b < s.mod := by
  have hr := (h.reduced ha hb).1
  change (if s.mod ≤ reduceLimbs s.ctx s.params.n 0 (a * b) / s.radix
    then reduceLimbs s.ctx s.params.n 0 (a * b) / s.radix - s.mod
    else reduceLimbs s.ctx s.params.n 0 (a * b) / s.radix) < s.mod
  split_ifs <;> omega

/-- The product of the multiplier on true values (R174). -/
theorem trueValue_montMul {a b : Nat} (ha : a < s.mod) (hb : b < s.mod) :
    s.trueValue (montMul s.ctx a b) = s.trueValue a * s.trueValue b := by
  obtain ⟨-, M, e⟩ := h.reduced ha hb
  have cast : ((montMul s.ctx a b : ℕ) : ZMod s.mod) =
      ((reduceLimbs s.ctx s.params.n 0 (a * b) / s.radix : ℕ) : ZMod s.mod) := by
    change ((if s.mod ≤ reduceLimbs s.ctx s.params.n 0 (a * b) / s.radix
      then reduceLimbs s.ctx s.params.n 0 (a * b) / s.radix - s.mod
      else reduceLimbs s.ctx s.params.n 0 (a * b) / s.radix : ℕ) : ZMod s.mod) = _
    split_ifs with hle
    · rw [Nat.cast_sub hle]; simp
    · rfl
  have key : ((reduceLimbs s.ctx s.params.n 0 (a * b) / s.radix : ℕ) : ZMod s.mod) * s.radix = a * b := by
    have := congrArg (fun n : ℕ => (n : ZMod s.mod)) e
    simpa using this
  rw [State.trueValue, cast]
  have hu := h.radix_mul_inv
  calc ((reduceLimbs s.ctx s.params.n 0 (a * b) / s.radix : ℕ) : ZMod s.mod) * (s.radix : ZMod s.mod)⁻¹
      = ((reduceLimbs s.ctx s.params.n 0 (a * b) / s.radix : ℕ) : ZMod s.mod) *
          (s.radix * (s.radix : ZMod s.mod)⁻¹) * (s.radix : ZMod s.mod)⁻¹ := by rw [hu, mul_one]
    _ = ((reduceLimbs s.ctx s.params.n 0 (a * b) / s.radix : ℕ) : ZMod s.mod) * s.radix *
          (s.radix : ZMod s.mod)⁻¹ * (s.radix : ZMod s.mod)⁻¹ := by ring
    _ = a * b * (s.radix : ZMod s.mod)⁻¹ * (s.radix : ZMod s.mod)⁻¹ := by rw [key]
    _ = s.trueValue a * s.trueValue b := by rw [State.trueValue, State.trueValue]; ring

theorem trueValue_fadd (a b : Nat) : s.trueValue (fadd s.ctx a b) = s.trueValue a + s.trueValue b := by
  have e : ((fadd s.ctx a b : ℕ) : ZMod s.mod) = a + b := fadd_cast (c := s.ctx)
  rw [State.trueValue, e, add_mul]
  rfl

theorem trueValue_fsub {a b : Nat} (hb : b < s.mod) :
    s.trueValue (fsub s.ctx a b) = s.trueValue a - s.trueValue b := by
  have e : ((fsub s.ctx a b : ℕ) : ZMod s.mod) = a - b := fsub_cast (c := s.ctx) hb
  rw [State.trueValue, e, sub_mul]
  rfl

theorem trueValue_fneg {a : Nat} (ha : a < s.mod) : s.trueValue (fneg s.ctx a) = -s.trueValue a := by
  have e : ((fneg s.ctx a : ℕ) : ZMod s.mod) = -a := fneg_cast (c := s.ctx) ha
  rw [State.trueValue, e, neg_mul]
  rfl

theorem fadd_below {a b : Nat} (ha : a < s.mod) (hb : b < s.mod) : fadd s.ctx a b < s.mod := fadd_lt (c := s.ctx) ha hb

theorem fsub_below {a b : Nat} (ha : a < s.mod) (hb : b < s.mod) : fsub s.ctx a b < s.mod := fsub_lt (c := s.ctx) ha hb

theorem fneg_below (a : Nat) : fneg s.ctx a < s.mod := fneg_lt (c := s.ctx) h.pos

/-- The exponent loop from any accumulator: the bits i−1 .. 0 of the exponent (R175). -/
theorem expLoop_spec {x : Nat} (hx : x < s.mod) (e i : Nat) {acc : Nat} (hacc : acc < s.mod) :
    (expLoop s.ctx x e i acc).val < s.mod ∧
      s.trueValue (expLoop s.ctx x e i acc).val = s.trueValue acc ^ 2 ^ i * s.trueValue x ^ (e % 2 ^ i) := by
  induction i generalizing acc with
  | zero => exact ⟨hacc, by simp [expLoop, Nat.mod_one]⟩
  | succ i ih =>
    have hsq := h.montMul_lt hacc hacc
    have ht := h.montMul_lt hsq hx
    have vsq := h.trueValue_montMul hacc hacc
    have vt := h.trueValue_montMul hsq hx
    have hsel : (if e.testBit i then montMul s.ctx (montMul s.ctx acc acc) x else montMul s.ctx acc acc) < s.mod := by
      split_ifs <;> assumption
    obtain ⟨h1, h2⟩ := ih hsel
    refine ⟨h1, ?_⟩
    change s.trueValue (expLoop s.ctx x e i
      (if e.testBit i then montMul s.ctx (montMul s.ctx acc acc) x else montMul s.ctx acc acc)).val = _
    rw [h2]
    have hbit : e % 2 ^ (i + 1) = e % 2 ^ i + 2 ^ i * (e / 2 ^ i % 2) := by
      rw [pow_succ, Nat.mod_mul]
    rw [hbit, Nat.testBit_eq_decide_div_mod_eq]
    rcases Nat.mod_two_eq_zero_or_one (e / 2 ^ i) with e0 | e1
    · rw [e0, if_neg (by simp), vsq]
      simp only [Nat.mul_zero, Nat.add_zero]
      rw [← pow_two, ← pow_mul, pow_succ 2 i, mul_comm 2]
    · rw [e1, if_pos (by simp), vt, vsq]
      have e2 : 2 ^ (i + 1) = 2 * 2 ^ i := by ring
      rw [e2, mul_pow, ← pow_two, ← pow_mul, Nat.mul_one, pow_add]
      ring

/-- The exponentiation engine on true values, for an exponent of XLEN bits (R175). -/
theorem expCore_spec {x e : Nat} (hx : x < s.mod) (he : e < s.radix) :
    (expCore s.ctx x e).val < s.mod ∧ s.trueValue (expCore s.ctx x e).val = s.trueValue x ^ e := by
  obtain ⟨h1, h2⟩ := h.expLoop_spec hx e (64 * s.params.n) h.rone_lt
  refine ⟨h1, ?_⟩
  have e1 : s.trueValue (expCore s.ctx x e).val = s.trueValue s.rone ^ 2 ^ (64 * s.params.n) *
    s.trueValue x ^ (e % 2 ^ (64 * s.params.n)) := h2
  rw [e1, h.trueValue_rone, one_pow, one_mul, ← State.radix_eq, Nat.mod_eq_of_lt he]

/-! Stored values of known true values, for the point datapaths. -/

theorem val_mont {a b : Nat} {x y : ZMod s.mod} (ha : s.Val a x) (hb : s.Val b y) :
    s.Val (mont s.ctx a b).val (x * y) :=
  ⟨h.montMul_lt ha.below hb.below, by rw [mont_val, h.trueValue_montMul ha.below hb.below, ha.value, hb.value]⟩

theorem val_fadd {a b : Nat} {x y : ZMod s.mod} (ha : s.Val a x) (hb : s.Val b y) : s.Val (fadd s.ctx a b) (x + y) :=
  ⟨h.fadd_below ha.1 hb.1, by rw [h.trueValue_fadd, ha.2, hb.2]⟩

theorem val_fsub {a b : Nat} {x y : ZMod s.mod} (ha : s.Val a x) (hb : s.Val b y) : s.Val (fsub s.ctx a b) (x - y) :=
  ⟨h.fsub_below ha.1 hb.1, by rw [h.trueValue_fsub hb.1, ha.2, hb.2]⟩

theorem val_zero : s.Val 0 0 := ⟨h.pos, h.trueValue_zero⟩

theorem val_rone : s.Val s.rone 1 := ⟨h.rone_lt, h.trueValue_rone⟩

theorem val_eq_zero {a : Nat} {x : ZMod s.mod} (ha : s.Val a x) : a = 0 ↔ x = 0 := by
  rw [← ha.2, h.trueValue_eq_zero ha.1]

theorem val_inj {a b : Nat} {x y : ZMod s.mod} (ha : s.Val a x) (hb : s.Val b y) : a = b ↔ x = y := by
  rw [← ha.2, ← hb.2, h.trueValue_inj ha.1 hb.1]

/-- A triple below the modulus holds its own true coordinates. -/
theorem pointVal {p : Point} (hp : s.PointBelow p) : s.PointVal p (s.jac p) :=
  ⟨⟨hp.1, rfl⟩, ⟨hp.2.1, rfl⟩, ⟨hp.2.2, rfl⟩⟩

theorem pointBelow_jac {p : Point} {j : Jac (ZMod s.mod)} (hp : s.PointVal p j) : s.PointBelow p ∧ s.jac p = j := by
  obtain ⟨x, y, z⟩ := j
  obtain ⟨⟨h1, e1⟩, ⟨h2, e2⟩, ⟨h3, e3⟩⟩ := hp
  exact ⟨⟨h1, h2, h3⟩, (Jac.mk.injEq _ _ _ _ _ _).mpr ⟨e1, e2, e3⟩⟩

/-- The doubling datapath on true coordinates (R211). -/
theorem dblCore_spec (ha : s.curveA < s.mod) {p : Point} {j : Jac (ZMod s.mod)} (hp : s.PointVal p j) :
    s.PointVal (dblCore s.ctx p).val (jacDouble (s.trueValue s.curveA) j) := by
  obtain ⟨hx, hy, hz⟩ := hp
  have hA : s.Val s.ctx.a (s.trueValue s.curveA) := ⟨ha, rfl⟩
  unfold dblCore
  refine State.Val.bindPoint (h.val_mont hx hx) fun xx hxx => ?_
  refine State.Val.bindPoint (h.val_mont hy hy) fun yy hyy => ?_
  refine State.Val.bindPoint (h.val_mont hz hz) fun zz hzz => ?_
  refine State.Val.bindPoint (h.val_mont hx hyy) fun t1 ht1 => ?_
  refine State.Val.bindPoint (h.val_mont hzz hzz) fun z4 hz4 => ?_
  refine State.Val.bindPoint (h.val_mont hA hz4) fun az4 haz4 => ?_
  have hm := h.val_fadd (h.val_fadd (h.val_fadd hxx hxx) hxx) haz4
  refine State.Val.bindPoint (h.val_mont hm hm) fun mm hmm => ?_
  refine State.Val.bindPoint (h.val_mont hyy hyy) fun y4 hy4 => ?_
  have hs := h.val_fadd (h.val_fadd ht1 ht1) (h.val_fadd ht1 ht1)
  have hx3 := h.val_fsub hmm (h.val_fadd hs hs)
  refine State.Val.bindPoint (h.val_mont hm (h.val_fsub hs hx3)) fun t2 ht2 => ?_
  refine State.Val.bindPoint (h.val_mont hy hz) fun t3 ht3 => ?_
  have he2 := h.val_fadd hy4 hy4
  have he4 := h.val_fadd he2 he2
  have hy3 := h.val_fsub ht2 (h.val_fadd he4 he4)
  have hz3 := h.val_fadd ht3 ht3
  refine State.PointVal.cast (j := ⟨_, _, _⟩) ⟨hx3, hy3, hz3⟩ ?_ ?_ ?_ <;> simp only [jacDouble] <;> ring

/-- `Canon` of a triple of known true coordinates (R210). -/
theorem canon_holds {p : Point} {j : Jac (ZMod s.mod)} (hp : s.PointVal p j) : s.HoldsJac (canon s.ctx p) j := by
  have hz := h.val_eq_zero hp.z
  refine ⟨fun e => ?_, fun e => ?_⟩
  · rw [canon, if_pos (hz.2 e)]
    rfl
  · rw [canon, if_neg (fun e' => e (hz.1 e'))]
    exact h.pointBelow_jac hp

theorem infinity_below : s.PointBelow s.infinityPoint := ⟨h.rone_lt, h.rone_lt, h.pos⟩

theorem canon_below {p : Point} (hp : s.PointBelow p) : s.PointBelow (canon s.ctx p) := by
  unfold canon
  split_ifs
  · exact h.infinity_below
  · exact hp

/-- The doubling step of R213 and R216 (R210, R211). -/
theorem dblCanon_holds (ha : s.curveA < s.mod) {p : Point} {j : Jac (ZMod s.mod)} (hp : s.PointVal p j) :
    s.HoldsJac (dblCanon s.ctx p).val (jacDouble (s.trueValue s.curveA) j) :=
  h.canon_holds (h.dblCore_spec ha hp)

/-- The addition datapath (R212): the five-way select on true coordinates, then `Canon`. -/
theorem addCore_spec (ha : s.curveA < s.mod) {p q : Point} {j k : Jac (ZMod s.mod)} (hp : s.PointVal p j)
    (hq : s.PointVal q k) :
    ∃ d g : Point, s.PointVal d (jacDouble (s.trueValue s.curveA) j) ∧ s.PointVal g (jacSum j k) ∧
      d = (dblCore s.ctx p).val ∧
      (addCore s.ctx p q).val = canon s.ctx
        (if p.z = 0 then q else if q.z = 0 then p else if jacH j k = 0 ∧ jacR j k = 0 then d
         else if jacH j k = 0 then infinity s.ctx else g) := by
  obtain ⟨hx, hy, hz⟩ := hp
  obtain ⟨hx', hy', hz'⟩ := hq
  let P : Point → Prop := fun r => ∃ d g : Point, s.PointVal d (jacDouble (s.trueValue s.curveA) j) ∧
    s.PointVal g (jacSum j k) ∧ d = (dblCore s.ctx p).val ∧ r = canon s.ctx
      (if p.z = 0 then q else if q.z = 0 then p else if jacH j k = 0 ∧ jacR j k = 0 then d
       else if jacH j k = 0 then infinity s.ctx else g)
  change P (addCore s.ctx p q).val
  unfold addCore
  refine State.Val.bind P (h.val_mont hz hz) fun z1z1 h1 => ?_
  refine State.Val.bind P (h.val_mont hz' hz') fun z2z2 h2 => ?_
  refine State.Val.bind P (h.val_mont hx h2) fun u1 hu1 => ?_
  refine State.Val.bind P (h.val_mont hx' h1) fun u2 hu2 => ?_
  refine State.Val.bind P (h.val_mont hz' h2) fun t1 ht1 => ?_
  refine State.Val.bind P (h.val_mont hy ht1) fun s1 hs1 => ?_
  refine State.Val.bind P (h.val_mont hz h1) fun t2 ht2 => ?_
  refine State.Val.bind P (h.val_mont hy' ht2) fun s2 hs2 => ?_
  have hh := h.val_fsub hu2 hu1
  have hr := h.val_fsub hs2 hs1
  refine State.Val.bind P (h.val_mont hh hh) fun hh2 hhh2 => ?_
  refine State.Val.bind P (h.val_mont hh hhh2) fun hh3 hhh3 => ?_
  refine State.Val.bind P (h.val_mont hu1 hhh2) fun v hv => ?_
  refine State.Val.bind P (h.val_mont hr hr) fun rr hrr => ?_
  have hx3 := h.val_fsub (h.val_fsub hrr hhh3) (h.val_fadd hv hv)
  refine State.Val.bind P (h.val_mont hr (h.val_fsub hv hx3)) fun t3 ht3 => ?_
  refine State.Val.bind P (h.val_mont hs1 hhh3) fun t4 ht4 => ?_
  have hy3 := h.val_fsub ht3 ht4
  refine State.Val.bind P (h.val_mont hz hz') fun t5 ht5 => ?_
  refine State.Val.bind P (h.val_mont ht5 hh) fun z3 hz3 => ?_
  refine ⟨(dblCore s.ctx p).val, ⟨fsub s.ctx (fsub s.ctx rr hh3) (fadd s.ctx v v), fsub s.ctx t3 t4, z3⟩,
    h.dblCore_spec ha ⟨hx, hy, hz⟩, State.PointVal.cast (j := ⟨_, _, _⟩) ⟨hx3, hy3, hz3⟩ ?_ ?_ ?_, rfl, ?_⟩
  · simp only [jacSum, jacH, jacR]; ring
  · simp only [jacSum, jacH, jacR]; ring
  · simp only [jacSum, jacH]; ring
  have e1 : jacH j k = k.x * (j.z * j.z) - j.x * (k.z * k.z) := by simp only [jacH]; ring
  have e2 : jacR j k = k.y * (j.z * (j.z * j.z)) - j.y * (k.z * (k.z * k.z)) := by simp only [jacR]; ring
  rw [e1, e2]
  rw [Counted.bind_val, Counted.ret_val]
  rcases both_or_neither (h.val_eq_zero hh) with ⟨a, a'⟩ | ⟨a, a'⟩ <;>
    rcases both_or_neither (h.val_eq_zero hr) with ⟨b, b'⟩ | ⟨b, b'⟩ <;> simp only [a, a', b, b', and_self, and_false, false_and, if_true, if_false]

end State.FieldReady

end Sys2Proof.Machine
end

