-- ==== Sys2Proof/Laws/HostWindow.lean ====
section
/-! SUPPORT. What the map of the host window can give: the one offset of `CTRL` and the bounds of the two memory
windows. -/

namespace Sys2Proof.Machine

open Sys2Proof.Config

/-- A register below 0x0100 is none of the windows, and only offset 16 is `CTRL`. -/
theorem controlReg_some {k : Nat} {r : HostReg} (h : controlReg k = some r) :
    (r = .ctrl → k = 4) ∧ (∀ j, r ≠ .imem j) ∧ (∀ addr, r ≠ .dmem addr) := by
  unfold controlReg at h
  split at h <;> cases h <;> simp

/-- What a mapped offset is told by the kind of what it names. -/
theorem hostMap_some {p : Params} {off : Nat} {r : HostReg} (h : hostMap p off = some r) :
    (r = .ctrl → off / 4 = 4) ∧ (∀ k, r = .imem k → k < p.imemw) ∧ (∀ addr, r = .dmem addr → addr + 4 ≤ p.dmemb) := by
  have other : ∀ q : HostReg, some q = some r → (q ≠ .ctrl) → (∀ j, q ≠ .imem j) → (∀ addr, q ≠ .dmem addr) →
      (r = .ctrl → off / 4 = 4) ∧ (∀ k, r = .imem k → k < p.imemw) ∧ (∀ addr, r = .dmem addr → addr + 4 ≤ p.dmemb) := by
    intro q hq h1 h2 h3
    cases hq
    exact ⟨fun e => absurd e h1, fun k e => absurd e (h2 k), fun a e => absurd e (h3 a)⟩
  unfold hostMap at h
  by_cases h1 : off < 0x0100
  · rw [if_pos h1] at h
    obtain ⟨h1, h2, h3⟩ := controlReg_some h
    exact ⟨h1, fun k e => absurd e (h2 k), fun a e => absurd e (h3 a)⟩
  rw [if_neg h1] at h
  by_cases h2 : off < 0x0140
  · rw [if_pos h2] at h
    exact other _ h nofun nofun nofun
  rw [if_neg h2] at h
  by_cases h3 : off < 0x0800
  · rw [if_pos h3] at h
    cases h
  rw [if_neg h3] at h
  by_cases h4 : off < 0x0B00
  · rw [if_pos h4] at h
    cases hc : contextReg ((off - 0x0800) / 0x80) with
    | none => rw [hc] at h; cases h
    | some c => rw [hc] at h; exact other _ h nofun nofun nofun
  rw [if_neg h4] at h
  by_cases h5 : off < 0x0B08
  · rw [if_pos h5] at h
    exact other _ h nofun nofun nofun
  rw [if_neg h5] at h
  by_cases h6 : off < 0x1000
  · rw [if_pos h6] at h
    cases h
  rw [if_neg h6] at h
  by_cases h7 : off < 0x1800
  · rw [if_pos h7] at h
    exact other _ h nofun nofun nofun
  rw [if_neg h7] at h
  by_cases h8 : off < 0x10000
  · rw [if_pos h8] at h
    cases h
  rw [if_neg h8] at h
  by_cases h9 : off < 0x10000 + 4 * p.imemw
  · rw [if_pos h9] at h
    cases h
    refine ⟨nofun, fun k e => ?_, nofun⟩
    have := HostReg.imem.inj e
    omega
  rw [if_neg h9] at h
  by_cases h10 : off < 0x100000
  · rw [if_pos h10] at h
    cases h
  rw [if_neg h10] at h
  by_cases h11 : off - 0x100000 + 4 ≤ p.dmemb
  · rw [if_pos h11] at h
    cases h
    refine ⟨nofun, nofun, fun a e => ?_⟩
    have := HostReg.dmem.inj e
    omega
  · rw [if_neg h11] at h
    cases h

/-- A write reaches `CTRL` at the one offset of its row, with the width of the host bus (R42, R44). -/
theorem hostTarget_ctrl {s : State} {width off : Nat} (h : s.hostTarget width off = some .ctrl) :
    width = 4 ∧ off = 0x0010 := by
  unfold State.hostTarget at h
  split at h
  · rename_i hb
    have := (hostMap_some h).1 rfl
    exact ⟨hb.1, by omega⟩
  · cases h

end Sys2Proof.Machine
end

