-- ==== Sys2Proof/Laws/PerInstr.lean ====
section
/-! SUPPORT. The family `EncodesOpcode`: bits 31:24 of a command's word hold the opcode that the map R119 gives it (R110,
R119). One lemma per command; the three lemmas before them say it once per format. -/

namespace Sys2Proof.Laws

/-- The opcode column of R119. -/
def opcodeOf : Instr → Nat
  | .nop => 0x01
  | .halt => 0x02
  | .jmp _ => 0x08
  | .bfs _ _ => 0x09
  | .bfc _ _ => 0x0A
  | .dbnz _ _ => 0x0B
  | .ali _ _ => 0x10
  | .aaddi _ _ _ => 0x11
  | .ld _ _ _ => 0x18
  | .st _ _ _ => 0x19
  | .badd _ _ _ => 0x20
  | .badc _ _ _ => 0x21
  | .bsub _ _ _ => 0x22
  | .bsbb _ _ _ => 0x23
  | .bcmp _ _ => 0x24
  | .bshr1 _ _ => 0x25
  | .bmulw _ _ _ => 0x26
  | .btstz _ => 0x27
  | .bmov _ _ => 0x28
  | .bldi _ _ => 0x29
  | .bcsel _ _ _ _ => 0x2A
  | .modset _ => 0x40
  | .fadd _ _ _ => 0x41
  | .fsub _ _ _ => 0x42
  | .fneg _ _ => 0x43
  | .fmul _ _ _ => 0x44
  | .fsqr _ _ => 0x45
  | .finv _ _ => 0x46
  | .fsqrt _ _ => 0x47
  | .fexp _ _ _ => 0x48
  | .ftom _ _ => 0x49
  | .ffrm _ _ => 0x4A
  | .fone _ => 0x4B
  | .crvset _ _ _ => 0x60
  | .padd _ _ _ => 0x61
  | .pdbl _ _ => 0x62
  | .pmul _ _ _ => 0x63
  | .ponc _ => 0x64
  | .psgc _ => 0x65
  | .paff _ _ => 0x66
  | .peq _ _ => 0x67

/-- A word assembled by R127 has its opcode in bits 31:24. -/
theorem opcode_assemble (op : Nat) (x y : Fin 16) (low : Nat) (hop : op < 2 ^ 8) (hlow : y.val * 2 ^ 16 + low < 2 ^ 20) :
    opcodeField (assemble op x y low) = op := by
  have hx := x.isLt
  simp only [opcodeField, assemble, BitVec.toNat_ofNat]
  omega

theorem opcode_assembleR (op : Nat) (rd ra rb rc fn : Fin 16) (hop : op < 2 ^ 8) :
    opcodeField (assembleR op rd ra rb rc fn) = op :=
  opcode_assemble _ _ _ _ hop (by have := ra.isLt; have := rb.isLt; have := rc.isLt; have := fn.isLt; omega)

theorem opcode_assembleM (op : Nat) (x y : Fin 16) (imm : Imm16) (hop : op < 2 ^ 8) :
    opcodeField (assembleM op x y imm) = op :=
  opcode_assemble _ _ _ _ hop (by have := y.isLt; have := imm.isLt; omega)

theorem opcode_assembleI (op : Nat) (rd : Fin 16) (imm : Imm20) (hop : op < 2 ^ 8) :
    opcodeField (assembleI op rd imm) = op :=
  opcode_assemble _ _ _ _ hop (by have := imm.isLt; simpa using this)

/-- The word of `i` carries the opcode that R119 gives `i`. -/
def EncodesOpcode.Statement (i : Instr) : Prop := opcodeField (encode i) = opcodeOf i

theorem EncodesOpcode.nop : Statement (.nop) :=
  opcode_assembleR _ _ _ _ _ _ (by norm_num)
theorem EncodesOpcode.halt : Statement (.halt) :=
  opcode_assembleR _ _ _ _ _ _ (by norm_num)
theorem EncodesOpcode.jmp (imm : Imm16) : Statement (.jmp imm) :=
  opcode_assembleM _ _ _ _ (by norm_num)
theorem EncodesOpcode.bfs (sel : FlagSel) (imm : Imm16) : Statement (.bfs sel imm) :=
  opcode_assembleM _ _ _ _ (by norm_num)
theorem EncodesOpcode.bfc (sel : FlagSel) (imm : Imm16) : Statement (.bfc sel imm) :=
  opcode_assembleM _ _ _ _ (by norm_num)
theorem EncodesOpcode.dbnz (rs : RegNum) (imm : Imm16) : Statement (.dbnz rs imm) :=
  opcode_assembleM _ _ _ _ (by norm_num)
theorem EncodesOpcode.ali (rd : RegNum) (imm : Imm20) : Statement (.ali rd imm) :=
  opcode_assembleI _ _ _ (by norm_num)
theorem EncodesOpcode.aaddi (rd ra : RegNum) (imm : Imm16) : Statement (.aaddi rd ra imm) :=
  opcode_assembleM _ _ _ _ (by norm_num)
theorem EncodesOpcode.ld (rd ra : RegNum) (imm : Imm16) : Statement (.ld rd ra imm) :=
  opcode_assembleM _ _ _ _ (by norm_num)
theorem EncodesOpcode.st (rd ra : RegNum) (imm : Imm16) : Statement (.st rd ra imm) :=
  opcode_assembleM _ _ _ _ (by norm_num)
theorem EncodesOpcode.badd (rd ra rb : RegNum) : Statement (.badd rd ra rb) :=
  opcode_assembleR _ _ _ _ _ _ (by norm_num)
theorem EncodesOpcode.badc (rd ra rb : RegNum) : Statement (.badc rd ra rb) :=
  opcode_assembleR _ _ _ _ _ _ (by norm_num)
theorem EncodesOpcode.bsub (rd ra rb : RegNum) : Statement (.bsub rd ra rb) :=
  opcode_assembleR _ _ _ _ _ _ (by norm_num)
theorem EncodesOpcode.bsbb (rd ra rb : RegNum) : Statement (.bsbb rd ra rb) :=
  opcode_assembleR _ _ _ _ _ _ (by norm_num)
theorem EncodesOpcode.bcmp (ra rb : RegNum) : Statement (.bcmp ra rb) :=
  opcode_assembleR _ _ _ _ _ _ (by norm_num)
theorem EncodesOpcode.bshr1 (rd ra : RegNum) : Statement (.bshr1 rd ra) :=
  opcode_assembleR _ _ _ _ _ _ (by norm_num)
theorem EncodesOpcode.bmulw (rd ra rb : RegNum) : Statement (.bmulw rd ra rb) :=
  opcode_assembleR _ _ _ _ _ _ (by norm_num)
theorem EncodesOpcode.btstz (ra : RegNum) : Statement (.btstz ra) :=
  opcode_assembleR _ _ _ _ _ _ (by norm_num)
theorem EncodesOpcode.bmov (rd ra : RegNum) : Statement (.bmov rd ra) :=
  opcode_assembleR _ _ _ _ _ _ (by norm_num)
theorem EncodesOpcode.bldi (rd : RegNum) (imm : Imm20) : Statement (.bldi rd imm) :=
  opcode_assembleI _ _ _ (by norm_num)
theorem EncodesOpcode.bcsel (rd ra rb : RegNum) (sel : FlagSel) : Statement (.bcsel rd ra rb sel) :=
  opcode_assembleR _ _ _ _ _ _ (by norm_num)
theorem EncodesOpcode.modset (ra : RegNum) : Statement (.modset ra) :=
  opcode_assembleR _ _ _ _ _ _ (by norm_num)
theorem EncodesOpcode.fadd (rd ra rb : RegNum) : Statement (.fadd rd ra rb) :=
  opcode_assembleR _ _ _ _ _ _ (by norm_num)
theorem EncodesOpcode.fsub (rd ra rb : RegNum) : Statement (.fsub rd ra rb) :=
  opcode_assembleR _ _ _ _ _ _ (by norm_num)
theorem EncodesOpcode.fneg (rd ra : RegNum) : Statement (.fneg rd ra) :=
  opcode_assembleR _ _ _ _ _ _ (by norm_num)
theorem EncodesOpcode.fmul (rd ra rb : RegNum) : Statement (.fmul rd ra rb) :=
  opcode_assembleR _ _ _ _ _ _ (by norm_num)
theorem EncodesOpcode.fsqr (rd ra : RegNum) : Statement (.fsqr rd ra) :=
  opcode_assembleR _ _ _ _ _ _ (by norm_num)
theorem EncodesOpcode.finv (rd ra : RegNum) : Statement (.finv rd ra) :=
  opcode_assembleR _ _ _ _ _ _ (by norm_num)
theorem EncodesOpcode.fsqrt (rd ra : RegNum) : Statement (.fsqrt rd ra) :=
  opcode_assembleR _ _ _ _ _ _ (by norm_num)
theorem EncodesOpcode.fexp (rd ra rb : RegNum) : Statement (.fexp rd ra rb) :=
  opcode_assembleR _ _ _ _ _ _ (by norm_num)
theorem EncodesOpcode.ftom (rd ra : RegNum) : Statement (.ftom rd ra) :=
  opcode_assembleR _ _ _ _ _ _ (by norm_num)
theorem EncodesOpcode.ffrm (rd ra : RegNum) : Statement (.ffrm rd ra) :=
  opcode_assembleR _ _ _ _ _ _ (by norm_num)
theorem EncodesOpcode.fone (rd : RegNum) : Statement (.fone rd) :=
  opcode_assembleR _ _ _ _ _ _ (by norm_num)
theorem EncodesOpcode.crvset (ra rb rc : RegNum) : Statement (.crvset ra rb rc) :=
  opcode_assembleR _ _ _ _ _ _ (by norm_num)
theorem EncodesOpcode.padd (rd ra rb : RegNum) : Statement (.padd rd ra rb) :=
  opcode_assembleR _ _ _ _ _ _ (by norm_num)
theorem EncodesOpcode.pdbl (rd ra : RegNum) : Statement (.pdbl rd ra) :=
  opcode_assembleR _ _ _ _ _ _ (by norm_num)
theorem EncodesOpcode.pmul (rd ra rb : RegNum) : Statement (.pmul rd ra rb) :=
  opcode_assembleR _ _ _ _ _ _ (by norm_num)
theorem EncodesOpcode.ponc (ra : RegNum) : Statement (.ponc ra) :=
  opcode_assembleR _ _ _ _ _ _ (by norm_num)
theorem EncodesOpcode.psgc (ra : RegNum) : Statement (.psgc ra) :=
  opcode_assembleR _ _ _ _ _ _ (by norm_num)
theorem EncodesOpcode.paff (rd ra : RegNum) : Statement (.paff rd ra) :=
  opcode_assembleR _ _ _ _ _ _ (by norm_num)
theorem EncodesOpcode.peq (ra rb : RegNum) : Statement (.peq ra rb) :=
  opcode_assembleR _ _ _ _ _ _ (by norm_num)

end Sys2Proof.Laws
end

