-- ==== Sys2Proof/Machine/Assembly.lean ====
section
/-! DEFINITION. The assembler notation of a command and the pseudo-commands (`30_encoding.md` R125, R126). No command and
no host access depends on it. -/

namespace Sys2Proof.Machine

/-- The notation's name of a flag (R118, R125). -/
def flagName : Nat → String
  | 0 => "CY" | 1 => "Z" | 2 => "LT" | 3 => "EQ" | 4 => "NINV" | 5 => "NSQR" | 6 => "RNG" | 7 => "INF" | 8 => "IVP"
  | _ => "?"

/-- `Bn`, `An` or `Pn` (R125). -/
def regName (letter : String) (r : RegNum) : String := letter ++ toString r.val

/-- A memory operand `off(An)` with a signed decimal offset (R125). -/
def memName (imm : Imm16) (r : RegNum) : String := toString imm.toInt ++ "(" ++ regName "A" r ++ ")"

/-- A branch target relative to the branch itself, `.+k` or `.-k` (R125). -/
def targetName (imm : Imm16) : String := if imm.toInt < 0 then "." ++ toString imm.toInt else ".+" ++ toString imm.toInt

/-- A mnemonic and its operands, separated by commas, destination first (R125). -/
def asmLine (mnemonic : String) (operands : List String) : String :=
  if operands.isEmpty then mnemonic else mnemonic ++ " " ++ ", ".intercalate operands

/-- The assembler line of a command, operands in the order of R125. -/
def assembly : Instr → String
  | .nop => asmLine "NOP" []
  | .halt => asmLine "HALT" []
  | .jmp imm => asmLine "JMP" [targetName imm]
  | .bfs sel imm => asmLine "BFS" [flagName sel.val, targetName imm]
  | .bfc sel imm => asmLine "BFC" [flagName sel.val, targetName imm]
  | .dbnz rs imm => asmLine "DBNZ" [regName "A" rs, targetName imm]
  | .ali rd imm => asmLine "ALI" [regName "A" rd, toString imm.toNat]
  | .aaddi rd ra imm => asmLine "AADDI" [regName "A" rd, regName "A" ra, toString imm.toInt]
  | .ld rd ra imm => asmLine "LD" [regName "B" rd, memName imm ra]
  | .st rd ra imm => asmLine "ST" [regName "B" rd, memName imm ra]
  | .badd rd ra rb => asmLine "BADD" [regName "B" rd, regName "B" ra, regName "B" rb]
  | .badc rd ra rb => asmLine "BADC" [regName "B" rd, regName "B" ra, regName "B" rb]
  | .bsub rd ra rb => asmLine "BSUB" [regName "B" rd, regName "B" ra, regName "B" rb]
  | .bsbb rd ra rb => asmLine "BSBB" [regName "B" rd, regName "B" ra, regName "B" rb]
  | .bcmp ra rb => asmLine "BCMP" [regName "B" ra, regName "B" rb]
  | .bshr1 rd ra => asmLine "BSHR1" [regName "B" rd, regName "B" ra]
  | .bmulw rd ra rb => asmLine "BMULW" [regName "B" rd, regName "B" ra, regName "B" rb]
  | .btstz ra => asmLine "BTSTZ" [regName "B" ra]
  | .bmov rd ra => asmLine "BMOV" [regName "B" rd, regName "B" ra]
  | .bldi rd imm => asmLine "BLDI" [regName "B" rd, toString imm.toNat]
  | .bcsel rd ra rb sel => asmLine "BCSEL" [regName "B" rd, regName "B" ra, regName "B" rb, flagName sel.val]
  | .modset ra => asmLine "MODSET" [regName "B" ra]
  | .fadd rd ra rb => asmLine "FADD" [regName "B" rd, regName "B" ra, regName "B" rb]
  | .fsub rd ra rb => asmLine "FSUB" [regName "B" rd, regName "B" ra, regName "B" rb]
  | .fneg rd ra => asmLine "FNEG" [regName "B" rd, regName "B" ra]
  | .fmul rd ra rb => asmLine "FMUL" [regName "B" rd, regName "B" ra, regName "B" rb]
  | .fsqr rd ra => asmLine "FSQR" [regName "B" rd, regName "B" ra]
  | .finv rd ra => asmLine "FINV" [regName "B" rd, regName "B" ra]
  | .fsqrt rd ra => asmLine "FSQRT" [regName "B" rd, regName "B" ra]
  | .fexp rd ra rb => asmLine "FEXP" [regName "B" rd, regName "B" ra, regName "B" rb]
  | .ftom rd ra => asmLine "FTOM" [regName "B" rd, regName "B" ra]
  | .ffrm rd ra => asmLine "FFRM" [regName "B" rd, regName "B" ra]
  | .fone rd => asmLine "FONE" [regName "B" rd]
  | .crvset ra rb rc => asmLine "CRVSET" [regName "B" ra, regName "B" rb, regName "B" rc]
  | .padd rd ra rb => asmLine "PADD" [regName "P" rd, regName "P" ra, regName "P" rb]
  | .pdbl rd ra => asmLine "PDBL" [regName "P" rd, regName "P" ra]
  | .pmul rd ra rb => asmLine "PMUL" [regName "P" rd, regName "P" ra, regName "B" rb]
  | .ponc ra => asmLine "PONC" [regName "P" ra]
  | .psgc ra => asmLine "PSGC" [regName "P" ra]
  | .paff rd ra => asmLine "PAFF" [regName "P" rd, regName "P" ra]
  | .peq ra rb => asmLine "PEQ" [regName "P" ra, regName "P" rb]

/-- The pseudo-commands (R126). -/
inductive Pseudo where
  | bclr (rd : RegNum)
  | fdbl (rd ra : RegNum)
  | beq (imm : Imm16) | bne (imm : Imm16)
  | blt (imm : Imm16) | bge (imm : Imm16)
  | bcs (imm : Imm16) | bcc (imm : Imm16)
  | bz (imm : Imm16) | bnz (imm : Imm16)
deriving DecidableEq, Repr

/-- The command that a pseudo-command is an exact alias of (R126). -/
def Pseudo.expand : Pseudo → Instr
  | .bclr rd => .bldi rd 0
  | .fdbl rd ra => .fadd rd ra ra
  | .beq imm => .bfs 3 imm
  | .bne imm => .bfc 3 imm
  | .blt imm => .bfs 2 imm
  | .bge imm => .bfc 2 imm
  | .bcs imm => .bfs 0 imm
  | .bcc imm => .bfc 0 imm
  | .bz imm => .bfs 1 imm
  | .bnz imm => .bfc 1 imm

end Sys2Proof.Machine
end

