-- ==== Sys2Proof/Tests/Slice0.lean ====
section
/-! SUPPORT. The model's own tests. Expected values are those of `spec/95_test_vectors.md` (its sections are named at each
group) or worked by hand from the rule that is named. The theorems `witness_…` show that the hypotheses of the statements
in `Certificates/Slice0/Obligations.lean` can be met. -/

namespace Sys2Proof.Tests

set_option maxRecDepth 4000
set_option Elab.async false

open Sys2Proof.Machine Sys2Proof.Config

/-! ### Well-formedness: one ill-formed term for each check (R118, R121, R22) -/

theorem test_selector_9_refused : (Instr.bfs 9 3).fieldError = some .flagSelector := by decide
theorem test_selector_15_refused : (Instr.bfc 15 1).fieldError = some .flagSelector := by decide
theorem test_select_9_refused : (Instr.bcsel 0 1 2 9).fieldError = some .flagSelector := by decide
theorem test_pair_15_refused : (Instr.bmulw 15 1 2).fieldError = some .pairRegister := by decide
theorem test_triple_14_refused : (Instr.padd 14 7 4).fieldError = some .tripleRegister := by decide
theorem test_triple_15_refused : (Instr.peq 7 15).fieldError = some .tripleRegister := by decide
theorem test_highest_groups_accepted : (Instr.bmulw 14 1 2).wf ∧ (Instr.pmul 13 13 15).wf ∧ (Instr.bfs 8 0).wf := by decide

/-! ### Decoding: one word per command (spec section 2.1) -/

theorem test_decode_control :
    decode 0x01000000#32 = .ok .nop ∧ decode 0x02000000#32 = .ok .halt ∧ decode 0x0800FFFD#32 = .ok (.jmp (-3)) ∧
    decode 0x09300003#32 = .ok (.bfs 3 3) ∧ decode 0x0A400002#32 = .ok (.bfc 4 2) ∧
    decode 0x0B10FFFE#32 = .ok (.dbnz 1 (-2)) := by decide

theorem test_decode_memory :
    decode 0x10200100#32 = .ok (.ali 2 0x100) ∧ decode 0x1132FFF8#32 = .ok (.aaddi 3 2 (-8)) ∧
    decode 0x18120020#32 = .ok (.ld 1 2 32) ∧ decode 0x1930FFF8#32 = .ok (.st 3 0 (-8)) := by decide

theorem test_decode_big_integer :
    decode 0x20012000#32 = .ok (.badd 0 1 2) ∧ decode 0x21012000#32 = .ok (.badc 0 1 2) ∧
    decode 0x22012000#32 = .ok (.bsub 0 1 2) ∧ decode 0x23012000#32 = .ok (.bsbb 0 1 2) ∧
    decode 0x24012000#32 = .ok (.bcmp 1 2) ∧ decode 0x25010000#32 = .ok (.bshr1 0 1) ∧
    decode 0x26412000#32 = .ok (.bmulw 4 1 2) ∧ decode 0x27030000#32 = .ok (.btstz 3) ∧
    decode 0x28010000#32 = .ok (.bmov 0 1) ∧ decode 0x29512345#32 = .ok (.bldi 5 0x12345) ∧
    decode 0x2A012000#32 = .ok (.bcsel 0 1 2 0) := by decide

theorem test_decode_field :
    decode 0x40000000#32 = .ok (.modset 0) ∧ decode 0x41201000#32 = .ok (.fadd 2 0 1) ∧
    decode 0x42201000#32 = .ok (.fsub 2 0 1) ∧ decode 0x43200000#32 = .ok (.fneg 2 0) ∧
    decode 0x44312000#32 = .ok (.fmul 3 1 2) ∧ decode 0x45010000#32 = .ok (.fsqr 0 1) ∧
    decode 0x46010000#32 = .ok (.finv 0 1) ∧ decode 0x47010000#32 = .ok (.fsqrt 0 1) ∧
    decode 0x48012000#32 = .ok (.fexp 0 1 2) ∧ decode 0x49010000#32 = .ok (.ftom 0 1) ∧
    decode 0x4A010000#32 = .ok (.ffrm 0 1) ∧ decode 0x4BF00000#32 = .ok (.fone 15) := by decide

theorem test_decode_curve :
    decode 0x60001200#32 = .ok (.crvset 0 1 2) ∧ decode 0x61A74000#32 = .ok (.padd 10 7 4) ∧
    decode 0x62740000#32 = .ok (.pdbl 7 4) ∧ decode 0x63743000#32 = .ok (.pmul 7 4 3) ∧
    decode 0x64040000#32 = .ok (.ponc 4) ∧ decode 0x65040000#32 = .ok (.psgc 4) ∧
    decode 0x66A70000#32 = .ok (.paff 10 7) ∧ decode 0x6707A000#32 = .ok (.peq 7 10) := by decide

theorem test_decode_no_reserved_field :
    decode 0x10FFFFFF#32 = .ok (.ali 15 0xFFFFF) ∧ decode 0x29FFFFFF#32 = .ok (.bldi 15 0xFFFFF) ∧
    decode 0x11FFFFFF#32 = .ok (.aaddi 15 15 (-1)) ∧ decode 0x18FFFFFF#32 = .ok (.ld 15 15 (-1)) := by decide

/-- The illegal words of spec section 2.1. -/
theorem test_illegal_words : ∀ w ∈ [0x00000000#32, 0x01000001#32, 0x02800000#32, 0x08100003#32, 0x09310003#32,
    0x09900003#32, 0x0AF00001#32, 0x0B110001#32, 0x20012100#32, 0x20012001#32, 0x24112000#32, 0x25011000#32,
    0x26F12000#32, 0x27130000#32, 0x2A012009#32, 0x2A012010#32, 0x40100000#32, 0x46011000#32, 0x4B010000#32,
    0x60101200#32, 0x61E74000#32, 0x6174F000#32, 0x62741000#32, 0x64140000#32, 0x67174000#32, 0x03000000#32,
    0x2B000000#32, 0x4C000000#32, 0x68000000#32, 0xFFFFFFFF#32], ∀ i, decode w ≠ .ok i := by
  simp [decode, opcodeRow, opcodeField, regField, fnField, Instr.fieldError, selectorError, pairError, tripleError]

theorem test_table_word : decodeTableWord 32 0x44312000 = some (.fmul 3 1 2) ∧ decodeTableWord 32 0 = none := by decide

theorem test_assembly : assembly (.bfs 3 3) = "BFS EQ, .+3" ∧ assembly (.st 3 0 (-8)) = "ST B3, -8(A0)" ∧
    assembly (.pmul 7 4 3) = "PMUL P7, P4, B3" ∧ (Pseudo.bne 2).expand = .bfc 3 2 := by decide +kernel

/-! ### States -/

/-- A small instance after reset: N limbs, IMEMW = 64, DMEMB = 4096, the command at index 7. -/
def small (n : Nat) : State := { State.hardResetState { n := n, imemw := 64, dmemb := 4096 } 0 with pc := 7 }

/-- N = 1 and the modulus 103 latched. -/
def ready : State := (small 1).latchModulus 103

/-- The curve y² = x³ + 5 over 103 elements, whose 97 points are the order loaded. -/
def loaded : State := { ready with crvv := true, curveA := 0, curveB := 69, order := 97 }

/-- A state with some big registers and flags set. -/
def put (s : State) (regs : List (RegNum × Nat)) (flags : BitVec 9 := 0) : State :=
  { regs.foldl (fun s x => s.setB x.1 x.2) s with flags := flags }

/-- One step that runs a command word. -/
def run (s : State) (w : Nat) : State :=
  match step (s.withFetchWord 32 w) with
  | .next t => t
  | .fault _ => s
  | .refused _ => s

/-- What a completed command leaves of the control state, with the `MontMul` calls counted. -/
def completed (t : State) (calls : Nat) : Bool :=
  t.pc == 8 && t.instret == 1 && t.mulcnt == BitVec.ofNat 64 calls && t.run == .running && t.cause == .noFault

/-! ### Big integers (spec section 2.2) -/

theorem test_badd_carry : let t := run (put (small 1) [(1, 0xFFFFFFFFFFFFFFFF), (2, 1)]) 0x20012000
    t.getB 0 = 0 ∧ t.flags = 0b11#9 ∧ completed t 0 := by decide +kernel
theorem test_badd_same_register : let t := run (put (small 1) [(1, 0x8000000000000001)]) 0x20111000
    t.getB 1 = 2 ∧ t.flags = 1#9 := by decide +kernel
theorem test_badc_all_ones :
    let t := run (put (small 1) [(1, 0xFFFFFFFFFFFFFFFF), (2, 0xFFFFFFFFFFFFFFFF)] 1) 0x21012000
    t.getB 0 = 0xFFFFFFFFFFFFFFFF ∧ t.flags = 1#9 ∧ completed t 0 := by decide +kernel
theorem test_badc_no_carry : let t := run (put (small 1) [(1, 5), (2, 7)]) 0x21012000
    t.getB 0 = 12 ∧ t.flags = 0#9 := by decide +kernel
theorem test_bsub_borrow : let t := run (put (small 1) [(1, 3), (2, 5)]) 0x22012000
    t.getB 0 = 0xFFFFFFFFFFFFFFFE ∧ t.flags = 1#9 ∧ completed t 0 := by decide +kernel
theorem test_bsub_limb_boundary : let t := run (put (small 2) [(1, 0x10000000000000000), (2, 1)]) 0x22012000
    t.getB 0 = 0xFFFFFFFFFFFFFFFF ∧ t.flags = 0#9 := by decide +kernel
theorem test_bsbb_borrow_in : let t := run (put (small 1) [(1, 10), (2, 3)] 1) 0x23012000
    t.getB 0 = 6 ∧ t.flags = 0#9 ∧ completed t 0 := by decide +kernel
theorem test_bsbb_wrap_to_zero : let t := run (put (small 1) [(1, 0), (2, 0xFFFFFFFFFFFFFFFF)] 1) 0x23012000
    t.getB 0 = 0 ∧ t.flags = 0b11#9 := by decide +kernel
theorem test_bcmp_clears : let t := run (put (small 1) [(1, 5), (2, 3)] 0b1100) 0x24012000
    t.flags = 0#9 ∧ completed t 0 := by decide +kernel
theorem test_bcmp_keeps_others : let t := run (put (small 1) [(1, 3), (2, 5)] 0b11) 0x24012000
    t.flags = 0b111#9 := by decide +kernel
theorem test_bshr1_across_limbs : let t := run (put (small 2) [(1, 0x10000000000000001)]) 0x25010000
    t.getB 0 = 0x8000000000000000 ∧ t.flags = 1#9 ∧ completed t 0 := by decide +kernel
theorem test_bshr1_to_zero : let t := run (put (small 1) [(1, 1)]) 0x25010000
    t.getB 0 = 0 ∧ t.flags = 0b11#9 := by decide +kernel
theorem test_bmulw_halves : let t := run (put (small 1) [(1, 0xFFFFFFFFFFFFFFFF), (2, 2)]) 0x26412000
    t.getB 4 = 0xFFFFFFFFFFFFFFFE ∧ t.getB 5 = 1 ∧ t.flags = 0#9 ∧ completed t 0 := by decide +kernel
theorem test_bmulw_overlap : let t := run (put (small 1) [(1, 0x100000000), (2, 0x100000000)]) 0x26112000
    t.getB 1 = 0 ∧ t.getB 2 = 1 := by decide +kernel
theorem test_btstz_zero : let t := run (small 1) 0x27030000
    t.flags = 0b10#9 ∧ completed t 0 := by decide +kernel
theorem test_btstz_one : (run (put (small 1) [(3, 1)] 0b10) 0x27030000).flags = 0#9 := by decide +kernel
theorem test_bmov : let t := run (put (small 1) [(1, 9)] 0b11) 0x28010000
    t.getB 0 = 9 ∧ t.flags = 0b11#9 ∧ completed t 0 := by decide +kernel
theorem test_bldi_clears_high_bits : let t := run (put (small 1) [(5, 0xFFFFFFFFFFFFFFFF)]) 0x295FFFFF
    t.getB 5 = 0xFFFFF ∧ completed t 0 := by decide +kernel
theorem test_bcsel_taken : let t := run (put (small 1) [(1, 7), (2, 9)] 0x100) 0x2A012008
    t.getB 0 = 7 ∧ completed t 0 := by decide +kernel
theorem test_bcsel_not_taken : (run (put (small 1) [(1, 7), (2, 9)]) 0x2A112001).getB 1 = 9 := by decide +kernel

/-! ### The field (spec section 2.3) -/

theorem test_modset_constants : let t := run (put (small 1) [(0, 103)]) 0x40000000
    t.modv = true ∧ t.mod = 103 ∧ t.inv = 0x254813E22CBCE4A9 ∧ t.rone = 55 ∧ t.rsq = 38 ∧ completed t 0 := by
  decide +kernel
theorem test_modset_two_limbs : let t := run (put (small 2) [(0, 103)]) 0x40000000
    t.inv = 0x254813E22CBCE4A9 ∧ t.rone = 38 ∧ t.rsq = 2 := by decide +kernel
theorem test_fadd_wraps_to_zero : let t := run (put ready [(0, 48), (1, 55), (2, 9)]) 0x41201000
    t.getB 2 = 0 ∧ t.flags = 0b10#9 ∧ completed t 0 := by decide +kernel
theorem test_fadd_raw : (run (put ready [(0, 102), (1, 102)]) 0x41201000).getB 2 = 101 := by decide +kernel
theorem test_fsub_below_zero : let t := run (put ready [(0, 0), (1, 102), (2, 5)]) 0x42201000
    t.getB 2 = 1 ∧ t.flags = 0#9 ∧ completed t 0 := by decide +kernel
theorem test_fsub_zero : (run (put ready [(0, 69), (2, 5)]) 0x42200000).flags = 0b10#9 := by decide +kernel
theorem test_fneg : let t := run (put ready [(0, 69)]) 0x43200000
    t.getB 2 = 34 ∧ t.flags = 0#9 ∧ completed t 0 := by decide +kernel
theorem test_fneg_zero : let t := run (put ready [(0, 0), (2, 5)]) 0x43200000
    t.getB 2 = 0 ∧ t.flags = 0b10#9 := by decide +kernel
theorem test_fmul_stored : let t := run (put ready [(1, 69), (2, 76)]) 0x44012000
    t.getB 0 = 71 ∧ t.flags = 0#9 ∧ completed t 1 := by decide +kernel
theorem test_fmul_extra_bit :
    (run (put ((small 1).latchModulus 0xFFFFFFFFFFFFFFC5) [(1, 0xFFFFFFFFFFFFFFC4), (2, 0xFFFFFFFFFFFFFFC4)])
      0x44012000).getB 0 = 0xCBEEA4E1A08AD8C4 := by decide +kernel
theorem test_fsqr : let t := run (put ready [(1, 62)]) 0x45010000
    t.getB 0 = 83 ∧ completed t 1 := by decide +kernel
theorem test_finv : let t := run (put ready [(1, 69)] 0b10000) 0x46010000
    t.getB 0 = 11 ∧ t.flags = 0#9 ∧ t.errs = 0 ∧ completed t 128 := by decide +kernel
theorem test_finv_zero : let t := run (put ready [(1, 0), (0, 9)] 0b10) 0x46010000
    t.getB 0 = 9 ∧ t.flags = 0b10010#9 ∧ t.errs = 1#5 ∧ completed t 128 := by decide +kernel
theorem test_fsqrt : let t := run (put ready [(1, 14)]) 0x47010000
    t.getB 0 = 7 ∧ t.flags = 0#9 ∧ completed t 129 := by decide +kernel
theorem test_fsqrt_no_root : let t := run (put ready [(1, 62), (0, 9)]) 0x47010000
    t.getB 0 = 9 ∧ t.flags = 0b100000#9 ∧ t.errs = 2#5 ∧ completed t 129 := by decide +kernel
theorem test_fexp : let t := run (put ready [(1, 62), (2, 18446744073709551615)]) 0x48012000
    t.getB 0 = 48 ∧ completed t 128 := by decide +kernel
theorem test_fexp_zero_to_zero : let t := run (put ready [(1, 0), (2, 0), (0, 9)]) 0x48012000
    t.getB 0 = 55 ∧ t.flags = 0#9 := by decide +kernel
theorem test_ftom : let t := run (put ready [(1, 102)] 0b1000000) 0x49010000
    t.getB 0 = 48 ∧ t.flags = 0#9 ∧ completed t 1 := by decide +kernel
theorem test_ftom_modulus : let t := run (put ready [(1, 103), (0, 9)]) 0x49010000
    t.getB 0 = 9 ∧ t.flags = 0b1000000#9 ∧ t.errs = 4#5 ∧ completed t 0 := by decide +kernel
theorem test_ffrm : let t := run (put ready [(1, 102)]) 0x4A010000
    t.getB 0 = 88 ∧ completed t 1 := by decide +kernel
theorem test_fone : let t := run (put ready [(0, 9)] 0b10) 0x4B000000
    t.getB 0 = 55 ∧ t.flags = 0#9 ∧ completed t 0 := by decide +kernel

/-! ### The curve (spec section 2.4) -/

/-- G in the triple 4 and 2G in the triple 7. -/
def points : State := put loaded [(4, 7), (5, 44), (6, 55), (7, 85), (8, 58), (9, 88), (3, 3)]

theorem test_crvset : let t := run (put loaded [(0, 7), (1, 8), (2, 500)]) 0x60001200
    t.crvv = true ∧ t.curveA = 7 ∧ t.curveB = 8 ∧ t.order = 500 ∧ completed t 0 := by decide +kernel
theorem test_crvset_range : let t := run (put ready [(0, 5), (1, 103)]) 0x60001200
    t.cause = .operandRange ∧ t.einfo = 1 ∧ t.crvv = false := by decide +kernel
theorem test_pdbl : let t := run points 0x62740000
    t.getP 7 = ⟨85, 58, 88⟩ ∧ t.flags = 0#9 ∧ completed t 10 := by decide +kernel
theorem test_pdbl_canonical_infinity : let t := run (put loaded [(4, 9), (5, 9), (6, 0)]) 0x62740000
    t.getP 7 = ⟨55, 55, 0⟩ ∧ t.flags = 0b10000000#9 := by decide +kernel
theorem test_padd_generic : let t := run points 0x61A74000
    t.getP 10 = ⟨81, 29, 55⟩ ∧ t.flags = 0#9 ∧ completed t 26 := by decide +kernel
theorem test_padd_select :
    (run points 0x61A44000).getP 10 = ⟨85, 58, 88⟩ ∧
    (run (put points [(7, 7), (8, 59), (9, 55)]) 0x61A47000).getP 10 = ⟨55, 55, 0⟩ ∧
    (run (put points [(7, 1), (8, 2), (9, 0)]) 0x61A47000).getP 10 = ⟨7, 44, 55⟩ ∧
    (run (put points [(4, 1), (5, 2), (6, 0)]) 0x61A47000).getP 10 = ⟨85, 58, 88⟩ := by decide +kernel
/-- Section 2.5 of the vectors; then two windows that are not 0, with an operand off the curve and the coefficient a not 0:
calculated outside the model from the pseudocode of R211 to R213. -/
theorem test_pmul : let t := run points 0x63743000
    t.getP 7 = ⟨81, 29, 55⟩ ∧ t.flags = 0#9 ∧ completed t 1420 ∧
      (run (put { points with curveA := 7 } [(5, 55), (3, 35)]) 0x63743000).getP 7 = ⟨67, 42, 81⟩ := by decide +kernel
theorem test_pmul_order : let t := run (put points [(3, 97)]) 0x63743000
    t.getP 7 = ⟨55, 55, 0⟩ ∧ t.flags = 0b10000000#9 := by decide +kernel
theorem test_ponc_off_curve : let t := run (put loaded [(4, 7), (5, 55), (6, 55)]) 0x64040000
    t.flags = 0b100000000#9 ∧ t.errs = 8#5 ∧ completed t 9 := by decide +kernel
theorem test_ponc_on_curve : (run (put points [] 0b100000000) 0x64040000).flags = 0#9 := by decide +kernel
theorem test_psgc_passes : let t := run points 0x65040000
    t.flags = 0#9 ∧ completed t 1420 := by decide +kernel
theorem test_psgc_refuses :
    let t := run (put { ready with crvv := true, curveB := 62, order := 31 } [(4, 55), (5, 7), (6, 55)]) 0x65040000
    t.flags = 0b100000000#9 ∧ t.errs = 8#5 := by decide +kernel
theorem test_paff : let t := run points 0x66A70000
    t.getP 10 = ⟨67, 21, 55⟩ ∧ t.flags = 0#9 ∧ completed t 132 := by decide +kernel
theorem test_paff_infinity : let t := run (put points [(7, 9), (8, 9), (9, 0)]) 0x66A70000
    t.getP 10 = ⟨55, 55, 0⟩ ∧ t.flags = 0b10000000#9 := by decide +kernel
theorem test_peq_equal : let t := run (put points [(10, 67), (11, 21), (12, 55)]) 0x6707A000
    t.flags = 0b1000#9 ∧ completed t 8 := by decide +kernel
theorem test_peq_different : (run (put points [(10, 7), (11, 44), (12, 55)]) 0x6707A000).flags = 0#9 := by decide +kernel

/-! ### Control and memory (spec section 2.5) -/

/-- The same with address registers set. -/
def addr (s : State) (regs : List (RegNum × Word)) : State := regs.foldl (fun s x => s.setA x.1 x.2) s

theorem test_nop : let t := run (small 1) 0x01000000
    t.flags = 0 ∧ completed t 0 := by decide +kernel
theorem test_halt : let t := run (small 1) 0x02000000
    t.run = .done ∧ t.ip = 1 ∧ t.pc = 8 ∧ t.instret = 1 := by decide +kernel
theorem test_jmp : (run (small 1) 0x0800FFFD).pc = 4 ∧ (run { small 1 with pc := 0 } 0x0800FFFF).pc = 65535 := by
  decide +kernel
theorem test_bfs : (run (put (small 1) [] 0b1000) 0x09300003).pc = 10 ∧ (run (small 1) 0x09300003).pc = 8 := by
  decide +kernel
theorem test_bfc : (run (small 1) 0x0A400002).pc = 9 ∧ (run (put (small 1) [] 0b10000) 0x0A400002).pc = 8 := by
  decide +kernel
theorem test_dbnz_ends : let t := run (addr (small 1) [(1, 1)]) 0x0B10FFFE
    t.getA 1 = 0 ∧ t.pc = 8 := by decide +kernel
theorem test_dbnz_wraps : let t := run (addr (small 1) [(1, 0)]) 0x0B10FFFE
    t.getA 1 = 0xFFFFFFFF ∧ t.pc = 5 := by decide +kernel
theorem test_ali : let t := run (addr (small 1) [(2, 0xFFFFFFFF)]) 0x10200100
    t.getA 2 = 0x100 ∧ completed t 0 := by decide +kernel
theorem test_aaddi : let t := run (addr (small 1) [(2, 0)]) 0x1132FFF8
    t.getA 3 = 0xFFFFFFF8 ∧ t.getA 2 = 0 ∧ completed t 0 := by decide +kernel
theorem test_ld_last_address :
    let t := run (addr ((small 1).memWrite 0xFF8 8 0x0807060504030201) [(2, 0xFF8)]) 0x18120000
    t.getB 1 = 0x0807060504030201 ∧ completed t 0 := by decide +kernel
theorem test_ld_two_limbs :
    (run (addr ((small 2).memWrite 0x28 16 0x00000000000000020000000000000001) [(0, 0x28)]) 0x18100000).getB 1 =
      0x00000000000000020000000000000001 := by decide +kernel
theorem test_st_bytes : let t := run (addr (put (small 1) [(3, 0x1122334455667788)]) [(0, 0x10)]) 0x1930FFF8
    t.readByte 0x08 = 0x88#8 ∧ t.readByte 0x0F = 0x11#8 ∧ t.dmem.length = 8 ∧ completed t 0 := by decide +kernel
theorem test_st_address_wraps : let t := run (addr (put (small 1) [(1, 0xAA)]) [(2, 0xFFFFFFFF)]) 0x19120001
    t.readByte 0 = 0xAA#8 ∧ t.readByte 1 = 0#8 := by decide +kernel

/-! ### One trigger for every fault code (spec section 2.6) -/

/-- What a fault of the command at index 7 leaves. -/
def faulted (t : State) (code : Cause) (info : Word) : Bool :=
  t.cause == code && t.einfo == info && t.epc == 7 && t.pc == 7 && t.ip == 2 && t.run == .faulted && t.instret == 0

theorem test_fault_codes :
    faulted (run (small 1) 0x47011000) .illegalCommand 0x47011000 ∧
    faulted (run (addr (small 1) [(0, 0xFF9)]) 0x19000000) .memMisaligned 0xFF9 ∧
    faulted (run (addr (small 1) [(0, 0xFFFFFFF8)]) 0x19000000) .memRange 0xFFFFFFF8 ∧
    faulted (run (small 1) 0x61036000) .noModulus 0 ∧
    faulted (run ready 0x40000000) .modulusLocked 0 ∧
    faulted (run (put (small 1) [(5, 1)]) 0x40050000) .badModulus 5 ∧
    faulted (run (put ready [(1, 5), (2, 103)]) 0x44012000) .operandRange 2 ∧
    faulted (run (put ready [(3, 500)]) 0x61036000) .noCurve 0 ∧
    faulted (run (put ((small 1).latchModulus 0xFFFFFFFFFFFFFFC5) [(1, 4)]) 0x47010000) .sqrtModulus 0 := by
  decide +kernel


/-! ### The host window and reset (R41 to R49, R330, R331) -/

/-- The state after the given turns. -/
def turns (s : State) (l : List Turn) : State :=
  match Host.Core.run Sys2Proof.core l.length { s with turns := l } with
  | .next t => t
  | .fault _ => s
  | .refused _ => s

theorem test_fetch_range : turns { small 1 with pc := 64, run := .running } [.sequencer] =
    { small 1 with pc := 64, epc := 64, cause := .ifetchRange, ip := 2, run := .faulted } := by decide +kernel

theorem test_host_identification :
    (turns (small 1) [.host (.read 4 0)]).response = some ⟨false, 0x4B535631⟩ ∧
    (turns (small 1) [.host (.read 4 4)]).response = some ⟨false, 0x00101001⟩ ∧
    (turns ready [.host (.read 4 0x14)]).response = some ⟨false, 4⟩ := by decide +kernel

theorem test_host_loads_and_starts :
    let t := turns { small 1 with pc := 0 } [.host (.write 4 0x10000 0x01000000), .host (.write 4 0x10004 0x02000000),
      .host (.write 4 0x10 1), .sequencer, .sequencer, .sequencer]
    t.run = .done ∧ t.pc = 2 ∧ t.instret = 2 ∧ t.ip = 1 := by decide +kernel

theorem test_host_refusals :
    (turns (small 1) [.host (.read 2 0)]).errs = 16 ∧ (turns (small 1) [.host (.read 4 2)]).errs = 16 ∧
    (turns (small 1) [.host (.write 4 0x48 0)]).errs = 16 ∧
    (turns { small 1 with run := .running } [.host (.write 4 0x20 3)]).pc = 7 ∧
    (turns { small 1 with run := .faulted } [.host (.write 4 0x10 1)]).run = .faulted := by decide +kernel

theorem test_host_windows :
    (turns (small 2) [.host (.write 4 0x108C 0xABCD)]).getB 1 = 0xABCD * 2 ^ 96 ∧
    (turns (small 1) [.host (.write 4 0x1088 0xABCD)]).getB 1 = 0 ∧
    (turns (small 1) [.host (.write 4 0x13C 5)]).getA 15 = 5 ∧
    (turns { small 1 with ip := 3 } [.host (.write 4 0x1C 1)]).ip = 2 := by decide +kernel

theorem test_soft_reset_keeps_memory :
    let t := turns ((small 1).memWrite 8 1 0x5A) [.host (.write 4 0x10 3)]
    t.run = .idle ∧ t.pc = 0 ∧ t.readByte 8 = 0x5A#8 := by decide +kernel

theorem test_hard_reset_refuses_host :
    let t := turns { ready with run := .faulted } [.assertReset, .host (.read 4 0)]
    t.modv = false ∧ t.run = .idle ∧ t.errs = 0 ∧ t.response = some ⟨true, 0⟩ := by decide +kernel

/-! ### Witnesses: fetching, faults, control -/

/-- A word at the index the next step fetches. -/
def fetching (w : Word) : State := { small 1 with pc := 0, run := .running, imem := [(0, w)] }

theorem fetching_fetches (w : Word) : (fetching w).Fetches w := ⟨rfl, rfl, rfl, Nat.zero_lt_succ 63, rfl⟩

theorem witness_DecodeOfEncode : (Instr.pmul 13 13 15).wf ∧ (Instr.bcsel 15 15 15 8).wf := by decide

theorem witness_EncodeOfDecode : decode 0x26E12000#32 = .ok (.bmulw 14 1 2) := by decide

theorem witness_UnassignedOpcodes :
    (fetching 0x07FFFFFF).Fetches 0x07FFFFFF ∧ unassigned ((0x07FFFFFF#32).toNat / 2 ^ 24) = true ∧
    (fetching 0xFFFFFFFF).Fetches 0xFFFFFFFF ∧ unassigned ((0xFFFFFFFF#32).toNat / 2 ^ 24) = true ∧
    (fetching 0x09900003).Fetches 0x09900003 ∧ 9 ≤ (0x09900003#32).toNat / 2 ^ 20 % 16 ∧
    (fetching 0x2A01200F).Fetches 0x2A01200F ∧ 9 ≤ (0x2A01200F#32).toNat % 16 :=
  ⟨fetching_fetches _, by decide, fetching_fetches _, by decide, fetching_fetches _, by decide, fetching_fetches _,
    by decide⟩

theorem witness_ReservedBits : (fetching 0x2A012010).Fetches 0x2A012010 ∧
    (0x2A012010#32).toNat &&& reservedBits ((0x2A012010#32).toNat / 2 ^ 24) ≠ 0 := ⟨fetching_fetches _, by decide⟩

theorem witness_RegisterGroups :
    ((fetching 0x26F12000).Fetches 0x26F12000 ∧ (0x26F12000#32).toNat / 2 ^ 20 % 16 = 15) ∧
    ((fetching 0x6174E000).Fetches 0x6174E000 ∧
      ∃ lo ∈ tripleFields ((0x6174E000#32).toNat / 2 ^ 24), 14 ≤ (0x6174E000#32).toNat / 2 ^ lo % 16) ∧
    ((13 : RegNum).val ≤ 13) := ⟨⟨fetching_fetches _, by decide⟩, ⟨fetching_fetches _, by decide⟩, by decide⟩

theorem witness_StepOfSequencer :
    ((fetching 0x01000000).Fetches 0x01000000 ∧ decode 0x01000000#32 = .ok .nop) ∧
    ((small 1).run ≠ .running ∧ (small 1).turns = []) ∧
    ({ small 1 with resetInput := true, turns := [.sequencer] }).resetInput = true :=
  ⟨⟨fetching_fetches _, by decide⟩, by decide, rfl⟩

theorem witness_FetchRange :
    (let s : State := { small 1 with pc := 64, run := .running }
     s.turns = [] ∧ s.resetInput = false ∧ s.run = .running ∧ s.params.imemw ≤ s.pc.toNat) ∧
    (let s : State := { State.hardResetState ⟨1, 65536, 4096⟩ 0 with pc := 65535, run := .running, imem := [(0, 7)] }
     s.params.imemw = 65536 ∧ s.pc = 65535#16 ∧ s.fetchWord 0 = 7 ∧ s.turns = [] ∧ s.resetInput = false ∧
       s.run = .running) ∧
    (let s : State := { small 1 with run := .running }
     s.turns = [] ∧ s.resetInput = false ∧ s.run = .running ∧ s.params.imemw ≤ (s.pc + 57#16).toNat ∧
       s.flag .ivp = false ∧ (Flag.ivp, (8 : FlagSel).val) ∈ flagSelectors ∧ (s.getA 3).toNat ≠ 1) := by
  decide +kernel

theorem witness_MissingContext :
    (needsModulus (.fone 0) = true ∧ (small 1).modv = false ∧ (Instr.fone 0).wf) ∧
    (needsCurve (.peq 0 13) = true ∧ ready.modv = true ∧ ready.crvv = false ∧ (Instr.peq 0 13).wf) ∧
    (((small 1).latchModulus 101).modv = true ∧ ((small 1).latchModulus 101).mod % 4 ≠ 3) := by decide +kernel

theorem witness_ModsetFaults : ready.modv = true ∧ (small 1).modv = false ∧ (put (small 1) [(5, 1)]).getB 5 < 3 ∧
    (put (small 1) [(5, 4)]).getB 5 % 2 = 0 := by decide +kernel

theorem witness_OperandRange :
    let s := put points [(8, 103)]
    let i := Instr.padd 10 4 7
    i.wf ∧ needsModulus i = true ∧ s.modv = true ∧ s.crvv = true ∧
      (storedRegs i = [4, 5, 6, 7] ++ 8 :: [9] ∧ (∀ r ∈ [4, 5, 6, 7], s.getB r < s.mod) ∧ s.mod ≤ s.getB 8) ∧
      (∀ r ∈ storedRegs i, points.getB r < points.mod) ∧ points.mod % 4 = 3 := by decide +kernel

theorem witness_AddressChecks :
    (((addr (small 1) [(2, 4092)]).effectiveAddress 2 (-3)).toNat % 8 ≠ 0) ∧
    (let s := addr (small 1) [(2, 4092)]
     let ea := (s.effectiveAddress 2 4).toNat
     ea % 8 = 0 ∧ s.params.dmemb < ea + 8 * s.params.n) := by decide +kernel

theorem witness_ControlTransfer : (Flag.ivp, (8 : FlagSel).val) ∈ flagSelectors ∧
    (Flag.cy, (0 : FlagSel).val) ∈ flagSelectors := by decide

/-- The last legal address, for `LD` and `ST` alike. -/
theorem witness_Load :
    let s := addr (small 1) [(2, 4096)]
    let ea := (s.effectiveAddress 2 (-8)).toNat
    ea % 8 = 0 ∧ ea + 8 * s.params.n = s.params.dmemb := by decide +kernel

theorem witness_Store : let s := addr (small 1) [(2, 0xFFFFFFFF)]
    let ea := (s.effectiveAddress 2 1).toNat
    ea = 0 ∧ ea % 8 = 0 ∧ ea + 8 * s.params.n ≤ s.params.dmemb := by decide +kernel

/-- Two accesses of 16 bytes that overlap in eight. -/
theorem witness_LoadSeesStore :
    let s := addr (small 2) [(2, 0x28)]
    let ea := (s.effectiveAddress 2 0).toNat
    let eb := (s.effectiveAddress 2 8).toNat
    ea % 8 = 0 ∧ ea + 8 * s.params.n ≤ s.params.dmemb ∧ eb % 8 = 0 ∧ eb + 8 * s.params.n ≤ s.params.dmemb ∧
      ea ≤ eb ∧ eb < ea + 16 := by decide +kernel

theorem witness_Addition :
    (Instr.badd 0 1 2 = .badd 0 1 2 ∧ false = false) ∧ (Instr.badc 0 1 2 = .badc 0 1 2 ∧ true = (put (small 1) [] 1).flag .cy) := by
  decide +kernel

theorem witness_Subtraction :
    (Instr.bsub 0 1 2 = .bsub 0 1 2 ∧ false = false) ∧ (Instr.bsbb 0 1 2 = .bsbb 0 1 2 ∧ true = (put (small 1) [] 1).flag .cy) := by
  decide +kernel

theorem witness_WideProduct : (14 : RegNum).val ≤ 14 := by decide

theorem witness_MoveImmediateSelect : 1 ≤ (small 1).params.n ∧
    (Flag.ivp, (8 : FlagSel).val) ∈ flagSelectors := by decide

theorem witness_DoubleWidthChains : (5 : RegNum) ≠ 6 ∧ (5 : RegNum) ≠ 2 ∧ (5 : RegNum) ≠ 4 := by decide

/-! ### Witnesses: the field and the curve -/

theorem ready_fieldReady : ready.FieldReady :=
  ⟨by decide +kernel, by decide +kernel, by decide +kernel, by decide +kernel, by decide +kernel, by decide +kernel,
    by decide +kernel⟩

theorem witness_ModsetLatches :
    let s := put (small 1) [(0, 3)]
    s.modv = false ∧ s.getB 0 % 2 = 1 ∧ 3 ≤ s.getB 0 := by decide +kernel

theorem witness_MontgomeryProduct : ready.FieldReady ∧ 102 < ready.mod := ⟨ready_fieldReady, by decide +kernel⟩

theorem witness_ExponentiationEngine : ready.FieldReady ∧ 102 < ready.mod ∧ 2 ^ 64 - 1 < 2 ^ (64 * ready.params.n) :=
  ⟨ready_fieldReady, by decide +kernel, by decide +kernel⟩

theorem put_ready (regs : List (RegNum × Nat)) : (put ready regs).FieldReady := by
  have key : ∀ (l : List (RegNum × Nat)) (s : State), s.FieldReady →
      (l.foldl (fun s x => s.setB x.1 x.2) s).FieldReady := by
    intro l
    induction l with
    | nil => exact fun s hs => hs
    | cons x l ih => exact fun s hs => ih _ ⟨hs.1, hs.2, hs.3, hs.4, hs.5, hs.6, hs.7⟩
  have h := key regs ready ready_fieldReady
  exact ⟨h.1, h.2, h.3, h.4, h.5, h.6, h.7⟩

/-- The operands of `FADD`, `FSUB`, `FNEG`, `FMUL`, `FSQR`, `FEXP`, `FFRM` at the ends of their range. -/
theorem witness_FieldAddSubNeg : let s := put ready [(0, 102), (1, 0)]
    s.FieldReady ∧ (∀ r ∈ [(0 : RegNum)], s.getB r < s.mod) ∧ ∀ r ∈ [(1 : RegNum)], s.getB r < s.mod :=
  ⟨put_ready _, by decide +kernel, by decide +kernel⟩

theorem witness_FieldProductsPowers : let s := put ready [(0, 102), (1, 2 ^ 64 - 1)]
    s.FieldReady ∧ s.Stored [0] ∧ s.mod ≤ s.getB 1 ∧ (put ready [(0, 102)]).Stored [0, 1] :=
  ⟨put_ready _, by unfold State.Stored; decide +kernel, by decide +kernel, by unfold State.Stored; decide +kernel⟩

theorem prime_103 : Nat.Prime 103 := by norm_num

theorem witness_FieldInverse :
    (put ready [(0, 102)]).FieldReady ∧ (put ready [(0, 102)]).Stored [0] ∧ (put ready [(0, 102)]).getB 0 ≠ 0 ∧
    (put ready []).Stored [0] ∧ (put ready []).getB 0 = 0 ∧ ready.mod.Prime :=
  ⟨put_ready _, by unfold State.Stored; decide +kernel, by decide +kernel, by unfold State.Stored; decide +kernel,
    by decide +kernel, prime_103⟩

theorem ready_mod : ready.mod = 103 := rfl

/-- The true value of a stored value of the small field, from its definition (spec section 2.3, the stored values). -/
theorem ready_trueValue {v x : Nat} (h : v % 103 = x * 55 % 103) : ready.trueValue v = (x : ZMod ready.mod) := by
  rw [ready_fieldReady.trueValue_eq_iff]
  have hr : ((ready.radix : ℕ) : ZMod ready.mod) = ((55 : ℕ) : ZMod ready.mod) :=
    (ZMod.natCast_eq_natCast_iff' _ _ _).2 (by decide +kernel)
  rw [hr, ← Nat.cast_mul]
  exact (ZMod.natCast_eq_natCast_iff' _ _ _).2 h

/-- 1 is a square and 3 is none. -/
theorem witness_FieldRoot :
    ready.mod % 4 = 3 ∧ ready.mod.Prime ∧
    (ready.trueValue 55 ^ ((ready.mod + 1) / 4)) ^ 2 = ready.trueValue 55 ∧
    (ready.trueValue 62 ^ ((ready.mod + 1) / 4)) ^ 2 ≠ ready.trueValue 62 := by
  rw [ready_trueValue (v := 55) (x := 1) rfl, ready_trueValue (v := 62) (x := 3) rfl]
  refine ⟨rfl, prime_103, ?_, ?_⟩
  · simp
  · change (((3 : ℕ) : ZMod 103) ^ ((103 + 1) / 4)) ^ 2 ≠ ((3 : ℕ) : ZMod 103)
    decide +kernel

theorem witness_ToMontgomery : (put ready [(0, 102)]).FieldReady ∧ (put ready [(0, 102)]).getB 0 < ready.mod ∧
    (put ready [(0, 103)]).FieldReady ∧ ready.mod ≤ (put ready [(0, 103)]).getB 0 :=
  ⟨put_ready _, by decide +kernel, put_ready _, by decide +kernel⟩

theorem witness_FromMontgomeryAndOne : (put ready [(0, 102)]).FieldReady ∧ (put ready [(0, 102)]).Stored [0] ∧
    (put ready [(0, 102)]).getB 0 < ready.mod :=
  ⟨put_ready _, by unfold State.Stored; decide +kernel, by decide +kernel⟩

theorem witness_FieldLaws : ready.FieldReady ∧ 102 < ready.mod ∧ ready.mod.Prime ∧ (102 : Nat) ≠ 0 :=
  ⟨ready_fieldReady, by decide +kernel, prime_103, by decide⟩

theorem witness_CrvsetLoads : (put ready [(0, 102), (1, 102), (2, 500)]).FieldReady ∧
    (put ready [(0, 102), (1, 102), (2, 500)]).Stored [0, 1] :=
  ⟨put_ready _, by unfold State.Stored; decide +kernel⟩

theorem points_curveReady : points.CurveReady :=
  ⟨⟨by decide +kernel, by decide +kernel, by decide +kernel, by decide +kernel, by decide +kernel, by decide +kernel,
    by decide +kernel⟩, by decide +kernel, by decide +kernel, by decide +kernel, by decide +kernel⟩

/-- The hypotheses of PointDouble, PointAdd, DoubleIsSelfSum, OnCurveTest, SubgroupTest and PointEquality, with the triples
13, 4 and 7. -/
theorem witness_curve_operands : points.CurveReady ∧ (13 : RegNum).val ≤ 13 ∧ points.Stored (tripleRegs 4) ∧
    points.Stored (tripleRegs 7) ∧ points.Stored (tripleRegs 13) :=
  ⟨points_curveReady, by decide, by unfold State.Stored; decide +kernel, by unfold State.Stored; decide +kernel,
    by unfold State.Stored; decide +kernel⟩

theorem points_trueValue {v x : Nat} (h : v % 103 = x * 55 % 103) : points.trueValue v = (x : ZMod points.mod) :=
  ready_trueValue h

/-- (2, 42) is a nonsingular point of y² = x³ + 5 over 103 elements. -/
theorem generator_nonsingular : points.curve.Nonsingular ((2 : ℕ) : ZMod points.mod) ((42 : ℕ) : ZMod points.mod) := by
  have ha : points.curve.a₄ = ((0 : ℕ) : ZMod points.mod) := points_trueValue rfl
  have hb : points.curve.a₆ = ((5 : ℕ) : ZMod points.mod) := points_trueValue rfl
  rw [WeierstrassCurve.Affine.nonsingular_iff, WeierstrassCurve.Affine.equation_iff, ha, hb]
  have key : ((42 : ℕ) : ZMod 103) ^ 2 + 0 * ((2 : ℕ) : ZMod 103) * ((42 : ℕ) : ZMod 103) + 0 * ((42 : ℕ) : ZMod 103) =
      ((2 : ℕ) : ZMod 103) ^ 3 + 0 * ((2 : ℕ) : ZMod 103) ^ 2 + ((0 : ℕ) : ZMod 103) * ((2 : ℕ) : ZMod 103) +
        ((5 : ℕ) : ZMod 103) ∧
      (0 * ((42 : ℕ) : ZMod 103) ≠
          3 * ((2 : ℕ) : ZMod 103) ^ 2 + 2 * 0 * ((2 : ℕ) : ZMod 103) + ((0 : ℕ) : ZMod 103) ∨
        ((42 : ℕ) : ZMod 103) ≠ -((42 : ℕ) : ZMod 103) - 0 * ((2 : ℕ) : ZMod 103) - 0) := by
    decide +kernel
  exact key

/-- The hypotheses of GroupSum, GroupMultiple and the last clauses of SubgroupTest and PointEquality: over a prime modulus
the triple 4 stands for (2, 42) and the triple 13 for infinity. -/
theorem witness_group_operands : points.mod.Prime ∧ points.CurveReady ∧ points.Stored (tripleRegs 4) ∧
    points.Stored (tripleRegs 13) ∧
    points.Represents (points.getP 4) (.some _ _ generator_nonsingular) ∧ points.Represents (points.getP 13) .zero := by
  have hP : points.getP 4 = ⟨7, 44, 55⟩ := by decide +kernel
  have hz : points.trueValue 55 = ((1 : ℕ) : ZMod points.mod) := points_trueValue rfl
  refine ⟨prime_103, witness_curve_operands.1, witness_curve_operands.2.2.1, witness_curve_operands.2.2.2.2, .inr ?_, .inl ⟨by decide +kernel, rfl⟩⟩
  rw [hP]
  refine ⟨by decide, _, _, generator_nonsingular, rfl, ?_, ?_⟩
  · change points.trueValue 7 = ((2 : ℕ) : ZMod points.mod) * points.trueValue 55 ^ 2
    rw [hz, points_trueValue (v := 7) (x := 2) rfl]
    simp
  · change points.trueValue 44 = ((42 : ℕ) : ZMod points.mod) * points.trueValue 55 ^ 3
    rw [hz, points_trueValue (v := 44) (x := 42) rfl]
    simp

theorem witness_ScalarMultiple : points.CurveReady ∧ (put points [(3, 0)]).getB 3 = 0 ∧ (put points [(3, 1)]).getB 3 = 1 ∧
    (points.getP 4).z ≠ 0 ∧ (points.getP 13).z = 0 :=
  ⟨points_curveReady, by decide +kernel, by decide +kernel, by decide +kernel, by decide +kernel⟩

theorem witness_AffineForm : (points.getP 7).z ≠ 0 ∧ (points.getP 4).z = points.rone ∧ (points.getP 13).z = 0 ∧
    points.mod.Prime := ⟨by decide +kernel, by decide +kernel, by decide +kernel, prime_103⟩

/-! ### Witnesses: the machine and the host -/

theorem witness_ConstantStructure :
    let s : State := { put ready [(1, 102)] with run := .running }
    let s' : State := { put ready [(1, 0)] with run := .running }
    s.run = .running ∧ (∃ t, exec (.ftom 0 1) s = .next t ∧ t.run ≠ .faulted) ∧ s.getB 1 < s.mod ∧
      s'.run = .running ∧ (∃ t, exec (.ftom 0 1) s' = .next t ∧ t.run ≠ .faulted) ∧ s'.getB 1 < s'.mod ∧
      s.params = s'.params ∧ s.mulcnt = s'.mulcnt ∧ s.instret = s'.instret :=
  ⟨rfl, ⟨_, rfl, by decide +kernel⟩, by decide +kernel, rfl, ⟨_, rfl, by decide +kernel⟩, by decide +kernel, rfl, rfl,
    rfl⟩

theorem witness_ResetLegal : reference.wf ∧ (Params.mk 16 65536 (2 ^ 20)).wf ∧ (Params.mk 1 1 8).wf := by decide

/-- Also the hypothesis of StateTransitions. -/
theorem witness_StepKeepsLegal : State.reset.Legal ∧ step State.reset = .next State.reset := by
  refine ⟨⟨by decide, .nil, by simp [State.reset, State.hardResetState], .nil,
    by simp [State.reset, State.hardResetState], ?_, ⟨?_, ?_, ?_, ?_⟩, by decide, fun _ => ⟨rfl, rfl⟩⟩, rfl⟩
  · intro i
    simp only [State.reset, State.hardResetState, Vector.getElem_replicate]
    exact Nat.two_pow_pos _
  · intro h
    cases h
  · exact fun _ => ⟨rfl, rfl, rfl, rfl, rfl⟩
  · intro h
    cases h
  · exact fun _ => ⟨rfl, rfl, rfl⟩

theorem witness_SoftReset :
    let s : State := { ready with run := .faulted, turns := [.host (.write 4 0x0010 3)] }
    s.turns = .host (.write 4 0x0010 3) :: [] ∧ s.resetInput = false ∧ (3#32).getLsbD 1 = true := by decide

theorem witness_HardReset :
    (let s : State := { ready with
       run := .running, turns := [.assertReset, .sequencer, .host (.read 4 0), .releaseReset] }
     s.resetInput = false ∧ s.turns = [.assertReset, .sequencer, .host (.read 4 0), .releaseReset]) ∧
    (let s : State := { ready with resetInput := true, turns := [.host (.write 4 0x0010 1), .releaseReset] }
     s.resetInput = true ∧ s.turns = .host (.write 4 0x0010 1) :: [.releaseReset]) := by decide

theorem witness_ModulusWriteOnce :
    let s : State := { ready with run := .running, imem := [(7, 0x40000000)] }
    (∃ t, step s = .next t) ∧ s.modv = true ∧ ¬ s.ResetTurn := by
  refine ⟨⟨_, rfl⟩, rfl, ?_⟩
  rintro (⟨rest, h⟩ | ⟨v, rest, h, -⟩) <;> cases h

theorem witness_CommandsKeepHostState :
    ∃ t, exec (.modset 0) (put (small 1) [(0, 103)]) = .next t := ⟨_, rfl⟩

/-- A refused access, an accepted read, an accepted write and a write that is ignored, each at the edge of its window. -/
theorem witness_HostRefusals :
    ({ small 1 with run := .running, turns := [.host (.write 4 0x1000 0)] }).Refuses (.write 4 0x1000 0) ∧
    (small 1).Refuses (.read 4 0x0048) ∧ ¬ (small 1).Refuses (.read 4 0x100FFC) ∧
    ¬ (small 1).Refuses (.write 4 0x100FC 0) ∧ ¬ (small 1).Refuses (.write 4 0x0B04 0) := by
  simp [State.Refuses, offsetMapped, writeGuarded, readGuarded, small, State.hardResetState]

theorem witness_StartControl :
    ({ small 1 with run := .faulted, turns := [.host (.write 4 0x0010 1)] }).turns = .host (.write 4 0x0010 1) :: [] ∧
    (1#32).getLsbD 0 = true ∧ (1#32).getLsbD 1 = false ∧ (3#32).getLsbD 1 = true ∧ (4#32).getLsbD 0 = false := by decide

theorem witness_StatusAndIdentification :
    let s : State := { small 1 with turns := [.host (.read 4 0x0014)] }
    s.turns = .host (.read 4 0x0014) :: [] ∧ s.resetInput = false ∧ s.params.wf ∧
      0x0014 ∈ [0x0000, 0x0004, 0x0008, 0x000C, 0x0014] := by decide

/-- A register read in any `STATE`, the last address register, the last word of the last context window, and a write of
each kind. -/
theorem witness_ControlRegisterWindow :
    (let s : State := { ready with run := .running, turns := [.host (.read 4 0x0044)] }
     s.resetInput = false ∧ s.turns = .host (.read 4 0x0044) :: []) ∧
    (let s : State := { ready with turns := [.host (.read 4 (0x0A80 + 8 * 15 + 4 * 1))] }
     s.resetInput = false ∧ s.run ≠ .running ∧ s.turns = .host (.read 4 0x0AFC) :: []) ∧
    (let s : State := { ready with turns := [.host (.write 4 (0x0100 + 4 * 15) 5)] }
     s.resetInput = false ∧ s.run ≠ .running ∧ s.turns = .host (.write 4 0x013C 5) :: []) := by decide

theorem witness_BigRegisterWindow :
    let s : State := { small 1 with turns := [.host (.read 4 (0x1000 + 0x80 * 15 + 8 * 15 + 4))] }
    s.resetInput = false ∧ s.run ≠ .running ∧ s.turns = .host (.read 4 0x17FC) :: [] ∧ s.params.n ≤ 15 ∧
      0 < s.params.n := by decide

theorem witness_MemoryWindows :
    (let s : State := { small 1 with turns := [.host (.write 4 (0x10000 + 4 * 63) 7)] }
     s.resetInput = false ∧ s.run ≠ .running ∧ 63 < s.params.imemw ∧ s.params.imemw ≤ 65536 ∧
       s.turns = .host (.write 4 0x100FC 7) :: []) ∧
    (let s : State := { small 1 with turns := [.host (.read 4 (0x100000 + 4092))] }
     4092 % 4 = 0 ∧ 4092 + 4 ≤ s.params.dmemb ∧ s.turns = .host (.read 4 0x100FFC) :: [] ∧ 4092 = 4088 + 4 * 1 ∧
       1 < 2 * s.params.n) := by decide

end Sys2Proof.Tests
end

/-! PROOFS. What a command can do, said once for all of them: what its checks have found when they pass or fail, and what
its completed state can differ in (`commandDone_cases`). -/

namespace Sys2Proof.Machine

open Sys2Proof.Config

section Checks

variable {s : State}

/-- The first fault of a list of checks is the fault of one of them. -/
theorem firstTrap_mem {l : List (Option Trap)} {t : Trap} (h : firstTrap l = some t) : some t ∈ l := by
  induction l with
  | nil => cases h
  | cons o l ih =>
    cases o with
    | some u => exact Option.some.inj h ▸ List.mem_cons_self
    | none => exact List.mem_cons_of_mem _ (ih h)

/-- A list of checks passes exactly when each of them does (R288). -/
theorem firstTrap_eq_none {l : List (Option Trap)} : firstTrap l = none ↔ ∀ o ∈ l, o = none := by
  induction l with
  | nil => simp
  | cons o l ih => cases o <;> simp [ih]

theorem State.noModulus_eq_none : s.noModulus = none ↔ s.modv = true := by
  cases h : s.modv <;> simp [State.noModulus, h]

theorem State.fieldChecks_eq_none {regs : List RegNum} :
    s.fieldChecks regs = none ↔ s.modv = true ∧ ∀ r ∈ regs, s.getB r < s.mod := by
  simp [State.fieldChecks, firstTrap_eq_none, State.noModulus_eq_none, State.operandRange_eq_none]

theorem State.modsetChecks_eq_none {ra : RegNum} :
    s.modsetChecks ra = none ↔ s.modv = false ∧ s.getB ra % 2 = 1 ∧ 3 ≤ s.getB ra := by
  simp [State.modsetChecks, firstTrap_eq_none]

theorem State.memoryAccess_eq_none {ea : Word} :
    s.memoryAccess ea = none ↔ ea.toNat % 8 = 0 ∧ ea.toNat + s.params.bigBytes ≤ s.params.dmemb := by
  unfold State.memoryAccess
  split_ifs <;> simp <;> omega

/-- Every check names a fault: its code is not 0 (R281). -/
def Trap.Names (o : Option Trap) : Prop := ∀ t, o = some t → t.cause ≠ .noFault

theorem Trap.Names.firstTrap {l : List (Option Trap)} (h : ∀ o ∈ l, Trap.Names o) : Trap.Names (firstTrap l) :=
  fun t ht => h _ (firstTrap_mem ht) t rfl

theorem illegalFields_names (i : Instr) : Trap.Names (illegalFields i) := by
  unfold illegalFields
  cases i.fieldError <;> simp [Trap.Names]

theorem State.noModulus_names : Trap.Names s.noModulus := by
  cases h : s.modv <;> simp [Trap.Names, State.noModulus, h]

theorem State.noCurve_names : Trap.Names s.noCurve := by
  cases h : s.crvv <;> simp [Trap.Names, State.noCurve, h]

theorem State.operandRange_names (regs : List RegNum) : Trap.Names (s.operandRange regs) := by
  unfold State.operandRange
  cases regs.find? (fun r => decide (s.mod ≤ s.getB r)) <;> simp [Trap.Names]

theorem State.memoryAccess_names (ea : Word) : Trap.Names (s.memoryAccess ea) := by
  unfold State.memoryAccess
  split_ifs <;> simp [Trap.Names]

theorem State.fieldChecks_names (regs : List RegNum) : Trap.Names (s.fieldChecks regs) :=
  .firstTrap (by simp [State.noModulus_names, State.operandRange_names])

theorem State.curveChecks_names (i : Instr) (regs : List RegNum) : Trap.Names (s.curveChecks i regs) :=
  .firstTrap (by
    simp [illegalFields_names, State.noModulus_names, State.noCurve_names, State.operandRange_names])

theorem State.modsetChecks_names (ra : RegNum) : Trap.Names (s.modsetChecks ra) := by
  refine .firstTrap (List.forall_mem_cons.2 ⟨?_, List.forall_mem_singleton.2 ?_⟩) <;>
    split_ifs <;> simp [Trap.Names]

theorem State.fsqrtChecks_names (ra : RegNum) : Trap.Names (s.fsqrtChecks ra) := by
  refine .firstTrap (List.forall_mem_cons.2 ⟨State.noModulus_names, List.forall_mem_cons.2 ⟨?_,
    List.forall_mem_singleton.2 (State.operandRange_names _)⟩⟩)
  split_ifs <;> simp [Trap.Names]

/-- The checks of every command name a fault when they find one. -/
theorem commandChecks_names (i : Instr) (s : State) : Trap.Names (commandChecks i s) := by
  cases i with
  | bfs | bfc | bmulw | bcsel => exact illegalFields_names _
  | ld | st => exact State.memoryAccess_names _
  | modset => exact State.modsetChecks_names _
  | fsqrt => exact State.fsqrtChecks_names _
  | fadd | fsub | fneg | fmul | fsqr | finv | fexp | ftom | ffrm | fone | crvset => exact State.fieldChecks_names _
  | padd | pdbl | pmul | ponc | psgc | paff | peq => exact State.curveChecks_names _ _
  | nop | halt | jmp | dbnz | ali | aaddi | badd | badc | bsub | bsbb | bcmp | bshr1 | btstz | bmov | bldi => nofun

/-- A fault of the fetch or of the decoder names a fault (R281). -/
theorem State.fetchDecode_names {t : Trap} (h : s.fetchDecode = .error t) : t.cause ≠ .noFault := by
  unfold State.fetchDecode State.fetch at h
  split_ifs at h
  · simp only at h
    cases hd : decode (s.fetchWord s.pc.toNat) with
    | ok i => rw [hd] at h; cases h
    | error e => rw [hd] at h; cases h; nofun
  · cases h
    nofun

/-- Beyond command memory the fetch faults (R28). -/
theorem State.fetchDecode_of_ge (h : s.params.imemw ≤ s.pc.toNat) :
    s.fetchDecode = .error { cause := .ifetchRange, info := 0 } := by
  unfold State.fetchDecode State.fetch
  rw [if_neg (Nat.not_lt.2 h)]

/-- A command that the fetch delivers is the one its word decodes to (R28, R248). -/
theorem State.decode_of_fetchDecode {i : Instr} (h : s.fetchDecode = .ok i) :
    decode (s.fetchWord s.pc.toNat) = .ok i := by
  unfold State.fetchDecode State.fetch at h
  split_ifs at h
  · simp only at h
    cases hd : decode (s.fetchWord s.pc.toNat) with
    | ok j => rw [hd] at h; cases h; rfl
    | error e => rw [hd] at h; cases h

end Checks

/-! ### What a completed command can differ in -/

/-- `t` is `s` after writes of registers, flags, `pc` and the counters only; `ERRS` only gains bits, and not `HOSTERR`
(R31); a big register is written modulo 2^XLEN (R21). -/
structure State.Computes (s t : State) : Prop where
  rest : t = { s with
    b := t.b, a := t.a, pc := t.pc, flags := t.flags, errs := t.errs, mulcnt := t.mulcnt, instret := t.instret }
  errs : ∃ sticky : BitVec 5, t.errs = s.errs ||| sticky ∧ sticky.getLsbD 4 = false
  registers : ∀ i : RegNum, t.b[i.val] = s.b[i.val] ∨ t.b[i.val] < s.radix

namespace State.Computes

variable {s t u : State}

/-- A write that leaves the big registers and `ERRS` alone. -/
theorem of_rest (hrest : t = { s with a := t.a, pc := t.pc, flags := t.flags, mulcnt := t.mulcnt, instret := t.instret }) :
    s.Computes t where
  rest := by rw [hrest]
  errs := ⟨0, by rw [hrest]; simp, rfl⟩
  registers i := .inl (by rw [hrest])

theorem radix (h : s.Computes t) : t.radix = s.radix := by
  rw [h.rest]
  rfl

theorem trans (h : s.Computes t) (h' : t.Computes u) : s.Computes u where
  rest := by
    rw [h'.rest, h.rest]
  errs := by
    obtain ⟨x, hx, hx4⟩ := h.errs
    obtain ⟨y, hy, hy4⟩ := h'.errs
    exact ⟨x ||| y, by rw [hy, hx, BitVec.or_assoc], by rw [BitVec.getLsbD_or, hx4, hy4, Bool.or_false]⟩
  registers i := by
    rcases h'.registers i with e | e
    · exact e ▸ h.registers i
    · exact .inr (h.radix ▸ e)

theorem refl (s : State) : s.Computes s := of_rest rfl

theorem setA (h : s.Computes t) (i : RegNum) (v : Word) : s.Computes (t.setA i v) := h.trans (of_rest rfl)

theorem addMul (h : s.Computes t) (k : Nat) : s.Computes (t.addMul k) := h.trans (of_rest rfl)

theorem completeAt (h : s.Computes t) (next : CmdIndex) : s.Computes (t.completeAt next) := h.trans (of_rest rfl)

theorem complete (h : s.Computes t) : s.Computes t.complete := h.completeAt _

theorem branchIf (h : s.Computes t) (taken : Bool) (imm : Imm16) : s.Computes (t.branchIf taken imm) := h.completeAt _

theorem setB (h : s.Computes t) (i : RegNum) (v : Nat) : s.Computes (t.setB i v) :=
  h.trans
    { rest := rfl
      errs := ⟨0, by simp, rfl⟩
      registers := fun j => by
        rw [State.setB_b, Vector.getElem_set]
        split_ifs
        · exact .inr (Nat.mod_lt _ t.radix_pos)
        · exact .inl rfl }

/-- No flag's write sets `HOSTERR` (R31). -/
theorem sticky_hostErr (f : Flag) : f.sticky.getLsbD 4 = false := by
  cases f <;> rfl

theorem setFlag (h : s.Computes t) (f : Flag) (v : Bool) : s.Computes (t.setFlag f v) :=
  h.trans
    { rest := rfl
      errs := by
        cases v with
        | false => exact ⟨0, by simp, rfl⟩
        | true => exact ⟨f.sticky, rfl, sticky_hostErr f⟩
      registers := fun _ => .inl rfl }

theorem setCarryZero (h : s.Computes t) (carry : Bool) (v : Nat) : s.Computes (t.setCarryZero carry v) :=
  (h.setFlag _ _).setFlag _ _

theorem putField (h : s.Computes t) (rd : RegNum) (v : Nat) : s.Computes (t.putField rd v) :=
  (h.setB _ _).setFlag _ _

theorem completeField (h : s.Computes t) (rd : RegNum) (r : Counted Nat) : s.Computes (t.completeField rd r) :=
  ((h.putField _ _).addMul _).complete

theorem setP (h : s.Computes t) (rd : RegNum) (p : Point) : s.Computes (t.setP rd p) :=
  ((h.setB _ _).setB _ _).setB _ _

theorem completePoint (h : s.Computes t) (rd : RegNum) (r : Counted Point) : s.Computes (t.completePoint rd r) :=
  (((h.setP _ _).setFlag _ _).addMul _).complete

theorem completePaff (h : s.Computes t) (rd : RegNum) (z : Nat) (r : Counted Point) : s.Computes (t.completePaff rd z r) :=
  (((h.setP _ _).setFlag _ _).addMul _).complete

theorem completeTest (h : s.Computes t) (f : Flag) (r : Counted Bool) : s.Computes (t.completeTest f r) :=
  ((h.setFlag _ _).addMul _).complete

theorem completeFinv (h : s.Computes t) (rd : RegNum) (x : Nat) (r : Counted Nat) : s.Computes (t.completeFinv rd x r) := by
  unfold State.completeFinv
  split_ifs
  · exact ((h.setFlag _ _).addMul _).complete
  · exact (((h.setFlag _ _).putField _ _).addMul _).complete

theorem completeFsqrt (h : s.Computes t) (rd : RegNum) (x : Nat) (r : Counted (Nat × Nat)) :
    s.Computes (t.completeFsqrt rd x r) := by
  unfold State.completeFsqrt
  split_ifs
  · exact (((h.setFlag _ _).putField _ _).addMul _).complete
  · exact ((h.setFlag _ _).addMul _).complete

theorem completeFtom (h : s.Computes t) (rd : RegNum) (x : Nat) : s.Computes (t.completeFtom rd x) := by
  unfold State.completeFtom
  split_ifs
  · exact (h.setFlag _ _).complete
  · exact (h.setFlag _ _).completeField _ _

end State.Computes

/-- What a completed command can differ in (R30, R31): four commands write more than registers, flags, `pc` and counters,
and each of them one thing more. -/
theorem commandDone_cases (i : Instr) (s : State) :
    s.Computes (commandDone i s) ∨
    (i = .halt ∧ commandDone i s = State.complete { s with run := .done, ip := s.ip ||| 0b01#2 }) ∨
    (∃ rd ra imm, i = .st rd ra imm ∧ commandDone i s =
      (s.memWrite (s.effectiveAddress ra imm).toNat s.params.bigBytes (s.getB rd)).complete) ∨
    (∃ ra, i = .modset ra ∧ commandDone i s = (s.latchModulus (s.getB ra)).complete) ∨
    (∃ ra rb rc, i = .crvset ra rb rc ∧ commandDone i s =
      State.complete { s with crvv := true, curveA := s.getB ra, curveB := s.getB rb, order := s.getB rc }) := by
  have start := State.Computes.refl s
  cases i with
  | halt => exact .inr (.inl ⟨rfl, rfl⟩)
  | st rd ra imm => exact .inr (.inr (.inl ⟨rd, ra, imm, rfl, rfl⟩))
  | modset ra => exact .inr (.inr (.inr (.inl ⟨ra, rfl, rfl⟩)))
  | crvset ra rb rc => exact .inr (.inr (.inr (.inr ⟨ra, rb, rc, rfl, rfl⟩)))
  | nop => exact .inl start.complete
  | jmp | bfs | bfc => exact .inl (start.branchIf _ _)
  | dbnz => exact .inl ((start.setA _ _).branchIf _ _)
  | ali | aaddi => exact .inl (start.setA _ _).complete
  | ld | bmov | bldi | bcsel => exact .inl (start.setB _ _).complete
  | badd | badc | bsub | bsbb | bshr1 => exact .inl ((start.setB _ _).setCarryZero _ _).complete
  | bcmp => exact .inl ((start.setFlag _ _).setFlag _ _).complete
  | btstz => exact .inl (start.setFlag _ _).complete
  | bmulw => exact .inl ((start.setB _ _).setB _ _).complete
  | fadd | fsub | fneg | fmul | fsqr | fexp | ffrm => exact .inl (start.completeField _ _)
  | finv => exact .inl (start.completeFinv _ _ _)
  | fsqrt => exact .inl (start.completeFsqrt _ _ _)
  | ftom => exact .inl (start.completeFtom _ _)
  | fone => exact .inl ((start.setB _ _).setFlag _ _).complete
  | padd | pdbl | pmul => exact .inl (start.completePoint _ _)
  | ponc | psgc | peq => exact .inl (start.completeTest _ _)
  | paff => exact .inl (start.completePaff _ _ _)

end Sys2Proof.Machine

/-! PROOFS. The host window: the map of R44 read both ways (the offset of each register), and what one access of the host
does, as an inversion (`hostAccess_cases`) and as a rule for each kind of access (`step_read`, `step_write`,
`step_refused`). -/

namespace Sys2Proof.Machine

open Sys2Proof.Config

/-! ### The map and its inverse -/

/-- The number of a context window (R47). -/
def ContextReg.index : ContextReg → Nat
  | .mod => 0 | .rone => 1 | .rsq => 2 | .curveA => 3 | .curveB => 4 | .order => 5

/-- The offset at which R44 to R49 put a register: the inverse of `hostMap` (`hostMap_offset`,
`offset_of_hostMap`). -/
def HostReg.offset : HostReg → Nat
  | .id => 0x0000 | .param => 0x0004 | .imemsz => 0x0008 | .dmemsz => 0x000C
  | .ctrl => 0x0010 | .status => 0x0014 | .ien => 0x0018 | .ip => 0x001C
  | .pc => 0x0020 | .flags => 0x0024 | .errs => 0x0028 | .cause => 0x002C
  | .epc => 0x0030 | .einfo => 0x0034 | .mulcntLo => 0x0038 | .mulcntHi => 0x003C
  | .instretLo => 0x0040 | .instretHi => 0x0044
  | .a i => 0x0100 + 4 * i.val
  | .context c k => 0x0800 + 0x80 * c.index + 4 * k
  | .inv k => 0x0B00 + 4 * k
  | .b i k => 0x1000 + 0x80 * i.val + 4 * k
  | .imem k => 0x10000 + 4 * k
  | .dmem addr => 0x100000 + addr

/-- The words and addresses that each window has under the given parameters. A byte of `DMEM` is behind the end of the
`IMEM` window, which is so for every legal `IMEMW`. -/
def HostReg.InWindow (p : Params) : HostReg → Prop
  | .context _ k | .b _ k => k < 32
  | .inv k => k < 2
  | .imem k => k < p.imemw
  | .dmem addr => addr % 4 = 0 ∧ addr + 4 ≤ p.dmemb ∧ 0x10000 + 4 * p.imemw ≤ 0x100000 + addr
  | _ => True

theorem controlReg_offset {k : Nat} {r : HostReg} (h : controlReg k = some r) (p : Params) :
    r.InWindow p ∧ r.offset = 4 * k := by
  unfold controlReg at h
  split at h <;> cases h <;> exact ⟨trivial, rfl⟩

theorem contextReg_index {k : Nat} {c : ContextReg} (h : contextReg k = some c) : c.index = k := by
  unfold contextReg at h
  split at h <;> cases h <;> rfl

theorem contextReg_of_index (c : ContextReg) : contextReg c.index = some c := by
  cases c <;> rfl

theorem ContextReg.index_lt (c : ContextReg) : c.index < 6 := by
  cases c <;> decide

/-- Above the register windows the map is that of the two memories (R48, R49). -/
theorem hostMap_memories {p : Params} {off : Nat} (h : 0x10000 ≤ off) :
    hostMap p off =
      if off < 0x10000 + 4 * p.imemw then some (.imem ((off - 0x10000) / 4))
      else if off < 0x100000 then none
      else if off - 0x100000 + 4 ≤ p.dmemb then some (.dmem (off - 0x100000))
      else none := by
  rw [hostMap, if_neg (by omega), if_neg (by omega), if_neg (by omega), if_neg (by omega), if_neg (by omega),
    if_neg (by omega), if_neg (by omega), if_neg (by omega)]

/-- A register is mapped at its offset (R44 to R49). -/
theorem hostMap_offset {p : Params} {r : HostReg} (h : r.InWindow p) : hostMap p r.offset = some r := by
  cases r with
  | a i =>
    have e : Fin.ofNat 16 ((0x0100 + 4 * i.val - 0x0100) / 4) = i := Fin.ext (by rw [Fin.val_ofNat]; omega)
    rw [HostReg.offset, hostMap, if_neg (by omega), if_pos (by omega), e]
  | context c k =>
    have hc := c.index_lt
    have hk : k < 32 := h
    have e1 : (0x0800 + 0x80 * c.index + 4 * k - 0x0800) / 0x80 = c.index := by omega
    have e2 : (0x0800 + 0x80 * c.index + 4 * k - 0x0800) % 0x80 / 4 = k := by omega
    rw [HostReg.offset, hostMap, if_neg (by omega), if_neg (by omega), if_neg (by omega), if_pos (by omega), e1, e2,
      contextReg_of_index, Option.map_some]
  | inv k =>
    have hk : k < 2 := h
    have e : (0x0B00 + 4 * k - 0x0B00) / 4 = k := by omega
    rw [HostReg.offset, hostMap, if_neg (by omega), if_neg (by omega), if_neg (by omega), if_neg (by omega),
      if_pos (by omega), e]
  | b i k =>
    have hk : k < 32 := h
    have e1 : Fin.ofNat 16 ((0x1000 + 0x80 * i.val + 4 * k - 0x1000) / 0x80) = i :=
      Fin.ext (by rw [Fin.val_ofNat]; omega)
    have e2 : (0x1000 + 0x80 * i.val + 4 * k - 0x1000) % 0x80 / 4 = k := by omega
    rw [HostReg.offset, hostMap, if_neg (by omega), if_neg (by omega), if_neg (by omega), if_neg (by omega),
      if_neg (by omega), if_neg (by omega), if_pos (by omega), e1, e2]
  | imem k =>
    have hk : k < p.imemw := h
    have e : (0x10000 + 4 * k - 0x10000) / 4 = k := by omega
    rw [HostReg.offset, hostMap_memories (by omega), if_pos (by omega), e]
  | dmem addr =>
    obtain ⟨_, hd, hi⟩ := h
    have e : 0x100000 + addr - 0x100000 = addr := by omega
    rw [HostReg.offset, hostMap_memories (by omega), if_neg (by omega), if_neg (by omega), e, if_pos hd]
  | _ => rfl

theorem HostReg.offset_aligned {p : Params} {r : HostReg} (h : r.InWindow p) : r.offset % 4 = 0 := by
  cases r <;> simp only [HostReg.offset, HostReg.InWindow] at h ⊢ <;> omega

theorem controlReg_of_lt {k : Nat} (h : k < 18) : ∃ r, controlReg k = some r := by
  interval_cases k <;> exact ⟨_, rfl⟩

theorem contextReg_of_lt {k : Nat} (h : k < 6) : ∃ c, contextReg k = some c := by
  interval_cases k <;> exact ⟨_, rfl⟩

theorem HostReg.offsetMapped {p : Params} {r : HostReg} (h : r.InWindow p) : offsetMapped p r.offset := by
  unfold Machine.offsetMapped
  cases r with
  | context c k =>
    have := c.index_lt
    simp only [HostReg.InWindow, HostReg.offset] at h ⊢
    omega
  | _ => simp only [HostReg.InWindow, HostReg.offset] at h ⊢; omega

/-- At every aligned offset that R44 maps there stands a register. -/
theorem exists_of_offsetMapped {p : Params} {off : Nat} (ha : off % 4 = 0) (h : offsetMapped p off) :
    ∃ r : HostReg, r.InWindow p ∧ r.offset = off := by
  rcases h with h | ⟨h1, h2⟩ | ⟨h1, h2⟩ | ⟨h1, h2⟩ | ⟨h1, h2⟩ | ⟨h1, h2⟩
  · obtain ⟨r, hr⟩ := controlReg_of_lt (k := off / 4) (by omega)
    obtain ⟨hw, ho⟩ := controlReg_offset hr p
    exact ⟨r, hw, by omega⟩
  · exact ⟨.a ⟨(off - 0x0100) / 4, by omega⟩, trivial, by simp only [HostReg.offset]; omega⟩
  · by_cases hi : off < 0x0B00
    · obtain ⟨c, hc⟩ := contextReg_of_lt (k := (off - 0x0800) / 0x80) (by omega)
      have := contextReg_index hc
      exact ⟨.context c ((off - 0x0800) % 0x80 / 4), by simp only [HostReg.InWindow]; omega,
        by simp only [HostReg.offset]; omega⟩
    · exact ⟨.inv ((off - 0x0B00) / 4), by simp only [HostReg.InWindow]; omega, by simp only [HostReg.offset]; omega⟩
  · exact ⟨.b ⟨(off - 0x1000) / 0x80, by omega⟩ ((off - 0x1000) % 0x80 / 4), by simp only [HostReg.InWindow]; omega,
      by simp only [HostReg.offset]; omega⟩
  · exact ⟨.imem ((off - 0x10000) / 4), by simp only [HostReg.InWindow]; omega, by simp only [HostReg.offset]; omega⟩
  · by_cases hi : off < 0x10000 + 4 * p.imemw
    · exact ⟨.imem ((off - 0x10000) / 4), by simp only [HostReg.InWindow]; omega, by simp only [HostReg.offset]; omega⟩
    · exact ⟨.dmem (off - 0x100000), by simp only [HostReg.InWindow]; omega, by simp only [HostReg.offset]; omega⟩

theorem controlReg_eq_none {k : Nat} (h : 18 ≤ k) : controlReg k = none := by
  obtain ⟨m, rfl⟩ := Nat.exists_eq_add_of_le' h
  rfl

/-- No register stands at an aligned offset that R44 does not map: one case for each gap of the map. -/
theorem hostMap_eq_none {p : Params} {off : Nat} (ha : off % 4 = 0) (h : ¬ offsetMapped p off) : hostMap p off = none := by
  unfold offsetMapped at h
  have gaps : off < 0x0100 ∨ (0x0140 ≤ off ∧ off < 0x0800) ∨ (0x0B08 ≤ off ∧ off < 0x1000) ∨
      (0x1800 ≤ off ∧ off < 0x10000) ∨ (0x10000 + 4 * p.imemw ≤ off ∧ 0x10000 ≤ off) := by omega
  rcases gaps with h1 | ⟨h1, h2⟩ | ⟨h1, h2⟩ | ⟨h1, h2⟩ | ⟨h1, h2⟩
  · rw [hostMap, if_pos h1, controlReg_eq_none (by omega)]
  · rw [hostMap, if_neg (by omega), if_neg (by omega), if_pos (by omega)]
  · rw [hostMap, if_neg (by omega), if_neg (by omega), if_neg (by omega), if_neg (by omega), if_neg (by omega),
      if_pos (by omega)]
  · rw [hostMap, if_neg (by omega), if_neg (by omega), if_neg (by omega), if_neg (by omega), if_neg (by omega),
      if_neg (by omega), if_neg (by omega), if_pos (by omega)]
  · rw [hostMap_memories h2, if_neg (by omega), ite_eq_left_iff]
    exact fun _ => if_neg (by omega)

/-- What the map gives at an aligned offset stands at that offset (R44). -/
theorem offset_of_hostMap {p : Params} {off : Nat} {r : HostReg} (ha : off % 4 = 0) (h : hostMap p off = some r) :
    r.InWindow p ∧ r.offset = off := by
  by_cases hm : offsetMapped p off
  · obtain ⟨q, hw, rfl⟩ := exists_of_offsetMapped ha hm
    obtain rfl : q = r := Option.some.inj ((hostMap_offset hw).symm.trans h)
    exact ⟨hw, rfl⟩
  · rw [hostMap_eq_none ha hm] at h
    cases h

/-- The offset of a register tells whether it is read in any `STATE` (R44, R45). -/
theorem HostReg.readAnyTime_iff (r : HostReg) : r.readAnyTime = true ↔ ¬ readGuarded r.offset := by
  cases r <;> simp [HostReg.readAnyTime, readGuarded, HostReg.offset] <;> omega

/-- The offset of a register tells whether a write of it is not refused in any `STATE` (R44, R45). -/
theorem HostReg.writeAnyTime_iff {p : Params} {r : HostReg} (h : r.InWindow p) :
    r.writeAnyTime = true ↔ ¬ writeGuarded r.offset := by
  cases r with
  | context c k =>
    have := c.index_lt
    simp only [HostReg.InWindow] at h
    simp [HostReg.writeAnyTime, writeGuarded, HostReg.offset]
    omega
  | _ => simp_all [HostReg.writeAnyTime, writeGuarded, HostReg.offset, HostReg.InWindow] <;> omega

/-! ### One access -/

section Access

variable {s : State}

/-- A register of the window is the target of an access at its offset with the width of the bus (R44, R45). -/
theorem State.hostTarget_offset {r : HostReg} (h : r.InWindow s.params) : s.hostTarget 4 r.offset = some r := by
  unfold State.hostTarget
  rw [if_pos ⟨rfl, HostReg.offset_aligned h⟩, hostMap_offset h]

theorem State.offset_of_hostTarget {width off : Nat} {r : HostReg} (h : s.hostTarget width off = some r) :
    width = 4 ∧ r.InWindow s.params ∧ r.offset = off := by
  unfold State.hostTarget at h
  split_ifs at h with hb
  exact ⟨hb.1, offset_of_hostMap hb.2 h⟩

/-- A read that is accepted (R45). -/
theorem State.hostAccess_read {r : HostReg} (hw : r.InWindow s.params) (hok : r.readAnyTime = true ∨ s.run ≠ .running) :
    s.hostAccess (.read 4 r.offset) = (s, accepted (s.hostValue r)) := by
  have hg : (r.readAnyTime || s.run != .running) = true := by
    simpa using hok
  simp only [State.hostAccess, State.hostTarget_offset hw, hg, if_true]

/-- A write of `CTRL` (R42). -/
theorem State.hostAccess_ctrl (v : Word) : s.hostAccess (.write 4 0x0010 v) = s.writeCtrl v := rfl

/-- A write of another register that is not refused (R45). -/
theorem State.hostAccess_write {r : HostReg} {v : Word} (hw : r.InWindow s.params) (hc : r ≠ .ctrl)
    (hok : r.writeAnyTime = true ∨ s.run ≠ .running) :
    s.hostAccess (.write 4 r.offset v) = (s.hostStore r v, accepted 0) := by
  have hg : (r.writeAnyTime || s.run != .running) = true := by
    simpa using hok
  simp only [State.hostAccess, State.hostTarget_offset hw, hg, if_true]

/-- A refused access (R45). -/
theorem State.hostAccess_refused {a : HostAccess} (h : s.Refuses a) : s.hostAccess a = (s.hostError, refusedAccess) := by
  cases a with
  | read width off =>
    cases ht : s.hostTarget width off with
    | none => simp only [State.hostAccess, ht]
    | some r =>
      obtain ⟨rfl, hw, rfl⟩ := State.offset_of_hostTarget ht
      have hg : s.run = .running ∧ readGuarded r.offset := by
        simpa [State.Refuses, HostReg.offset_aligned hw, HostReg.offsetMapped hw] using h
      have hr : ¬ (r.readAnyTime || s.run != .running) = true := by simp [r.readAnyTime_iff, hg]
      simp only [State.hostAccess, ht, if_neg hr]
  | write width off v =>
    cases ht : s.hostTarget width off with
    | none => simp only [State.hostAccess, ht]
    | some r =>
      obtain ⟨rfl, hw, rfl⟩ := State.offset_of_hostTarget ht
      have hg : s.run = .running ∧ writeGuarded r.offset := by
        simpa [State.Refuses, HostReg.offset_aligned hw, HostReg.offsetMapped hw] using h
      have hr : ¬ (r.writeAnyTime || s.run != .running) = true := by simp [HostReg.writeAnyTime_iff hw, hg]
      have hc : r ≠ .ctrl := by
        rintro rfl
        exact absurd hg.2 (by simp [writeGuarded, HostReg.offset])
      simp only [State.hostAccess, ht, if_neg hr]

/-- An access that R45 does not refuse names a register of the window. -/
theorem State.exists_of_not_refuses_read {width off : Nat} (h : ¬ s.Refuses (.read width off)) :
    ∃ r : HostReg, width = 4 ∧ r.InWindow s.params ∧ r.offset = off ∧ (r.readAnyTime = true ∨ s.run ≠ .running) := by
  simp only [State.Refuses, not_or, not_not, not_and] at h
  obtain ⟨hwidth, ha, hm, hg⟩ := h
  obtain ⟨r, hw, rfl⟩ := exists_of_offsetMapped ha hm
  exact ⟨r, hwidth, hw, rfl, by rw [r.readAnyTime_iff]; tauto⟩

theorem State.exists_of_not_refuses_write {width off : Nat} {v : Word} (h : ¬ s.Refuses (.write width off v)) :
    ∃ r : HostReg, width = 4 ∧ r.InWindow s.params ∧ r.offset = off ∧ (r.writeAnyTime = true ∨ s.run ≠ .running) := by
  simp only [State.Refuses, not_or, not_not, not_and] at h
  obtain ⟨hwidth, ha, hm, hg⟩ := h
  obtain ⟨r, hw, rfl⟩ := exists_of_offsetMapped ha hm
  exact ⟨r, hwidth, hw, rfl, by rw [HostReg.writeAnyTime_iff hw]; tauto⟩

/-- The states from which START is accepted, and the others (R42). -/
theorem RunState.startable_or_not (r : RunState) : (r = .idle ∨ r = .done) ∨ (r = .running ∨ r = .faulted) := by
  cases r <;> simp

theorem State.writeCtrl_reset {v : Word} (h : v.getLsbD 1 = true) : s.writeCtrl v = (s.softReset, accepted 0) := by
  rw [State.writeCtrl, if_pos h]

theorem State.writeCtrl_start {v : Word} (h1 : v.getLsbD 1 = false) (h0 : v.getLsbD 0 = true)
    (hr : s.run = .idle ∨ s.run = .done) : s.writeCtrl v = ({ s with run := .running }, accepted 0) := by
  rw [State.writeCtrl, if_neg (Bool.eq_false_iff.1 h1), if_pos h0]
  rcases hr with hr | hr <;> rw [hr]

theorem State.writeCtrl_refused {v : Word} (h1 : v.getLsbD 1 = false) (h0 : v.getLsbD 0 = true)
    (hr : s.run = .running ∨ s.run = .faulted) : s.writeCtrl v = (s.hostError, refusedAccess) := by
  rw [State.writeCtrl, if_neg (Bool.eq_false_iff.1 h1), if_pos h0]
  rcases hr with hr | hr <;> rw [hr]

theorem State.writeCtrl_ignored {v : Word} (h1 : v.getLsbD 1 = false) (h0 : v.getLsbD 0 = false) :
    s.writeCtrl v = (s, accepted 0) := by
  rw [State.writeCtrl, if_neg (Bool.eq_false_iff.1 h1), if_neg (Bool.eq_false_iff.1 h0)]

/-- What an access of the host can do to the state (R42, R45). -/
theorem State.hostAccess_cases (s : State) (a : HostAccess) :
    (s.hostAccess a).1 = s ∨ (s.hostAccess a).1 = s.hostError ∨
    (∃ v, a = .write 4 0x0010 v ∧ v.getLsbD 1 = true ∧ (s.hostAccess a).1 = s.softReset) ∨
    (∃ v, a = .write 4 0x0010 v ∧ v.getLsbD 0 = true ∧ v.getLsbD 1 = false ∧ (s.run = .idle ∨ s.run = .done) ∧
      (s.hostAccess a).1 = { s with run := .running }) ∨
    (∃ (r : HostReg) (v : Word), r.InWindow s.params ∧ (s.hostAccess a).1 = s.hostStore r v) := by
  by_cases hf : s.Refuses a
  · exact .inr (.inl (by rw [State.hostAccess_refused hf]))
  cases a with
  | read width off =>
    obtain ⟨r, rfl, hw, rfl, hok⟩ := State.exists_of_not_refuses_read hf
    exact .inl (by rw [State.hostAccess_read hw hok])
  | write width off v =>
    obtain ⟨r, rfl, hw, rfl, hok⟩ := State.exists_of_not_refuses_write hf
    by_cases hc : r = .ctrl
    · subst hc
      change (s.writeCtrl v).1 = s ∨ (s.writeCtrl v).1 = s.hostError ∨ _
      cases h1 : v.getLsbD 1 with
      | true => exact .inr (.inr (.inl ⟨v, rfl, h1, congrArg Prod.fst (State.writeCtrl_reset h1)⟩))
      | false =>
        cases h0 : v.getLsbD 0 with
        | false => exact .inl (by rw [State.writeCtrl_ignored h1 h0])
        | true =>
          rcases s.run.startable_or_not with hr | hr
          · exact .inr (.inr (.inr (.inl ⟨v, rfl, h0, h1, hr, congrArg Prod.fst (State.writeCtrl_start h1 h0 hr)⟩)))
          · exact .inr (.inl (by rw [State.writeCtrl_refused h1 h0 hr]))
    · exact .inr (.inr (.inr (.inr ⟨r, v, hw, by rw [State.hostAccess_write hw hc hok]⟩)))

end Access

/-! ### The step that takes the host's turn -/

section Turns

variable {s : State} {rest : List Turn}

/-- The host's turn, with the reset input released (R45). -/
theorem step_host {a : HostAccess} (h : s.turns = .host a :: rest) (hr : s.resetInput = false) :
    step s = .next { (State.hostAccess { s with turns := rest } a).1 with
      response := some (State.hostAccess { s with turns := rest } a).2 } := by
  simp only [step_cons h, State.takeTurn, State.hostTurn, hr, Bool.false_eq_true, if_false]

/-- No register of the host window shows the waiting turns. -/
theorem State.hostValue_turns (r : HostReg) : State.hostValue { s with turns := rest } r = s.hostValue r := by
  cases r with
  | context c k => cases c <;> rfl
  | _ => rfl

/-- No write of the host touches the waiting turns. -/
theorem State.hostStore_turns (r : HostReg) (v : Word) :
    State.hostStore { s with turns := rest } r v = { s.hostStore r v with turns := rest } := by
  cases r with
  | b i k =>
    simp only [State.hostStore]
    split_ifs <;> rfl
  | _ => rfl

/-- An accepted read answers the register's value and changes nothing (R45). -/
theorem step_read {r : HostReg} {data : Word} (h : s.turns = .host (.read 4 r.offset) :: rest)
    (hr : s.resetInput = false) (hw : r.InWindow s.params) (hok : r.readAnyTime = true ∨ s.run ≠ .running)
    (hd : s.hostValue r = data) :
    step s = .next { s with turns := rest, response := some { busError := false, data := data } } := by
  rw [step_host h hr, State.hostAccess_read (s := { s with turns := rest }) hw hok, State.hostValue_turns, hd, accepted]

/-- An accepted write of a register other than `CTRL` stores the datum (R45). -/
theorem step_write {r : HostReg} {v : Word} (h : s.turns = .host (.write 4 r.offset v) :: rest)
    (hr : s.resetInput = false) (hw : r.InWindow s.params) (hc : r ≠ .ctrl)
    (hok : r.writeAnyTime = true ∨ s.run ≠ .running) :
    step s = .next { s.hostStore r v with turns := rest, response := some { busError := false, data := 0 } } := by
  rw [step_host h hr, State.hostAccess_write (s := { s with turns := rest }) hw hc hok, State.hostStore_turns, accepted]

/-- No write of `CTRL` touches the waiting turns. -/
theorem State.writeCtrl_turns (v : Word) :
    State.writeCtrl { s with turns := rest } v = ({ (s.writeCtrl v).1 with turns := rest }, (s.writeCtrl v).2) := by
  cases h1 : v.getLsbD 1 with
  | true =>
    rw [State.writeCtrl_reset h1, State.writeCtrl_reset h1]
    rfl
  | false =>
    cases h0 : v.getLsbD 0 with
    | false => rw [State.writeCtrl_ignored h1 h0, State.writeCtrl_ignored h1 h0]
    | true =>
      rcases s.run.startable_or_not with hr | hr
      · rw [State.writeCtrl_start h1 h0 hr, State.writeCtrl_start (s := { s with turns := rest }) h1 h0 hr]
      · rw [State.writeCtrl_refused h1 h0 hr, State.writeCtrl_refused (s := { s with turns := rest }) h1 h0 hr]
        rfl

/-- A write of `CTRL` (R42). -/
theorem step_ctrl {v : Word} (h : s.turns = .host (.write 4 0x0010 v) :: rest) (hr : s.resetInput = false) :
    step s = .next { (s.writeCtrl v).1 with turns := rest, response := some (s.writeCtrl v).2 } := by
  rw [step_host h hr, State.hostAccess_ctrl, State.writeCtrl_turns]

/-- A refused access sets `HOSTERR` (R45). -/
theorem step_refused {a : HostAccess} (h : s.turns = .host a :: rest) (hr : s.resetInput = false) (hf : s.Refuses a) :
    step s = .next { s.hostError with turns := rest, response := some { busError := true, data := 0 } } := by
  have hf' : State.Refuses { s with turns := rest } a := by cases a <;> exact hf
  rw [step_host h hr, State.hostAccess_refused hf', State.hostError, refusedAccess]
  rfl

end Turns

end Sys2Proof.Machine

/-! PROOFS. The obligations about the host window: refusals, `CTRL`, identification and `STATUS`, the control registers,
the B window and the two memory windows. -/

namespace Sys2Proof.Machine

open Sys2Proof.Config

/-! ### Refusals -/

/-- The read-only rows of R44: their writes are ignored (R45). -/
theorem State.hostStore_readOnly {s : State} {r : HostReg} (v : Word)
    (h : r.offset < 0x0018 ∨ (0x002C ≤ r.offset ∧ r.offset < 0x0100) ∨ (0x0800 ≤ r.offset ∧ r.offset < 0x1000)) :
    s.hostStore r v = s := by
  cases r with
  | ien | ip | pc | flags | errs => simp [HostReg.offset] at h
  | a i | b i k | imem k | dmem addr => simp only [HostReg.offset] at h; omega
  | _ => rfl

/-- Settles O55: each clause is the rule of its kind of access, at the register that stands at the offset. -/
theorem hostRefusals : Obligations.HostRefusals := by
  intro s a rest hturn hr
  refine ⟨fun hf => step_refused hturn hr hf, ?_, ?_⟩
  · rintro width off rfl hf
    obtain ⟨r, rfl, hw, rfl, hok⟩ := State.exists_of_not_refuses_read hf
    exact ⟨_, step_read hturn hr hw hok rfl⟩
  · rintro width off v rfl hf hoff
    obtain ⟨r, rfl, hw, rfl, hok⟩ := State.exists_of_not_refuses_write hf
    have hc : r ≠ .ctrl := by
      rintro rfl
      exact hoff rfl
    refine ⟨_, step_write hturn hr hw hc hok, rfl, rfl, fun ho => ?_⟩
    rw [State.hostStore_readOnly v ho]

/-! ### `CTRL` -/

/-- Settles O56: the four cases of a write are the four equations of `writeCtrl`. -/
theorem startControl : Obligations.StartControl := by
  intro s rest hr
  refine ⟨fun h => step_read (r := .ctrl) h hr trivial (.inl rfl) rfl, fun v h => ?_⟩
  refine ⟨_, step_ctrl h hr, fun h1 => ?_, fun h1 h0 hrun => ?_, fun h1 h0 hrun => ?_, fun h1 h0 => ?_⟩
  · rw [State.writeCtrl_reset h1]
  · rw [State.writeCtrl_start h1 h0 hrun]
  · rw [State.writeCtrl_refused h1 h0 hrun]
    rfl
  · rw [State.writeCtrl_ignored h1 h0]

/-! ### Identification and `STATUS` -/

theorem RunState.code_lt (r : RunState) : r.code < 4 := by
  cases r <;> decide

theorem State.toNat_statusWord (s : State) :
    s.statusWord.toNat = s.run.code + 4 * s.modv.toNat + 8 * s.crvv.toNat + 16 * s.irq.toNat := by
  have hrun := s.run.code_lt
  have hmodv := s.modv.toNat_le
  have hcrvv := s.crvv.toNat_le
  have hirq := s.irq.toNat_le
  rw [State.statusWord, BitVec.toNat_ofNat]
  omega

/-- A bit of a word, by the word's number. -/
theorem getLsbD_of_toNat {w : Word} {k : Nat} {b : Bool} (h : w.toNat / 2 ^ k % 2 = b.toNat) : w.getLsbD k = b := by
  rw [BitVec.getLsbD, Nat.testBit_eq_decide_div_mod_eq, h]
  cases b <;> rfl

/-- `STATUS` by its fields (R43). -/
theorem State.statusWord_fields (s : State) :
    s.statusWord.toNat % 4 = s.run.code ∧ s.statusWord.getLsbD 2 = s.modv ∧ s.statusWord.getLsbD 3 = s.crvv ∧
      s.statusWord.getLsbD 4 = s.irq ∧ s.statusWord.toNat < 2 ^ 5 := by
  have hword := s.toNat_statusWord
  have hrun := s.run.code_lt
  have hmodv := s.modv.toNat_le
  have hcrvv := s.crvv.toNat_le
  have hirq := s.irq.toNat_le
  exact ⟨by omega, getLsbD_of_toNat (by omega), getLsbD_of_toNat (by omega), getLsbD_of_toNat (by omega), by omega⟩

/-- Settles O57. -/
theorem statusAndIdentification : Obligations.StatusAndIdentification := by
  intro s rest hr ⟨hn1, hn16, _, himem, _, _, hdmem⟩
  refine ⟨fun off h hoff => ?_, fun off v h hoff => ?_⟩
  · simp only [List.mem_cons, List.not_mem_nil, or_false] at hoff
    rcases hoff with rfl | rfl | rfl | rfl | rfl
    · exact ⟨_, step_read (r := .id) h hr trivial (.inl rfl) rfl, fun _ => rfl, nofun, nofun, nofun, nofun⟩
    · refine ⟨_, step_read (r := .param) h hr trivial (.inl rfl) rfl, nofun, fun _ => ?_, nofun, nofun, nofun⟩
      rw [State.hostValue, BitVec.toNat_ofNat]
      omega
    · refine ⟨_, step_read (r := .imemsz) h hr trivial (.inl rfl) rfl, nofun, nofun, fun _ => ?_, nofun, nofun⟩
      rw [State.hostValue, BitVec.toNat_ofNat]
      omega
    · refine ⟨_, step_read (r := .dmemsz) h hr trivial (.inl rfl) rfl, nofun, nofun, nofun, fun _ => ?_, nofun⟩
      rw [State.hostValue, BitVec.toNat_ofNat]
      omega
    · refine ⟨_, step_read (r := .status) h hr trivial (.inl rfl) rfl, nofun, nofun, nofun, nofun, fun _ => ?_⟩
      exact s.statusWord_fields
  · simp only [List.mem_cons, List.not_mem_nil, or_false] at hoff
    rcases hoff with rfl | rfl | rfl | rfl | rfl
    · exact ⟨_, step_write (r := .id) h hr trivial nofun (.inl rfl), rfl⟩
    · exact ⟨_, step_write (r := .param) h hr trivial nofun (.inl rfl), rfl⟩
    · exact ⟨_, step_write (r := .imemsz) h hr trivial nofun (.inl rfl), rfl⟩
    · exact ⟨_, step_write (r := .dmemsz) h hr trivial nofun (.inl rfl), rfl⟩
    · exact ⟨_, step_write (r := .status) h hr trivial nofun (.inl rfl), rfl⟩

/-! ### The control registers, the A window and the context windows -/

/-- A flag is the bit of `FLAGS` that its selector names (R29, R118). -/
theorem flag_of_selector {f : Flag} {k : Nat} (h : (f, k) ∈ flagSelectors) : k = f.bit.val := by
  simp only [flagSelectors, List.mem_cons, Prod.mk.injEq, List.not_mem_nil, or_false] at h
  rcases h with ⟨rfl, rfl⟩ | ⟨rfl, rfl⟩ | ⟨rfl, rfl⟩ | ⟨rfl, rfl⟩ | ⟨rfl, rfl⟩ | ⟨rfl, rfl⟩ | ⟨rfl, rfl⟩ | ⟨rfl, rfl⟩ |
    ⟨rfl, rfl⟩ <;> rfl

/-- The 32-bit word h of limb j of a big register, limbs j ≥ N being 0 (R46, R47). -/
theorem bigWord_limb (n v j h : Nat) (hh : h ≤ 1) :
    bigWord n v (2 * j + h) = if j < n then BitVec.ofNat 32 (v / 2 ^ (64 * j + 32 * h)) else 0 := by
  have hk : 2 * j + h < 2 * n ↔ j < n := by omega
  have he : 32 * (2 * j + h) = 64 * j + 32 * h := by omega
  simp only [bigWord, hk, he]

/-- A 32-bit word of a 64-bit register (R40, R47). -/
theorem ofNat_toNat_div (x : Limb) (k : Nat) : BitVec.ofNat 32 (x.toNat / 2 ^ k) = x.extractLsb' k 32 := by
  rw [BitVec.extractLsb', Nat.shiftRight_eq_div_pow]

/-- A context window reads as its register, word by word (R47). -/
theorem step_readContext {s : State} {rest : List Turn} (c : ContextReg) {j h : Nat} (hr : s.resetInput = false)
    (hrun : s.run ≠ .running) (hj : j ≤ 15) (hh : h ≤ 1)
    (hturn : s.turns = .host (.read 4 (0x0800 + 0x80 * c.index + 8 * j + 4 * h)) :: rest) :
    step s = .next { s with turns := rest, response := some {
      busError := false
      data := if j < s.params.n then BitVec.ofNat 32 (s.contextValue c / 2 ^ (64 * j + 32 * h)) else 0 } } := by
  have ho : 0x0800 + 0x80 * c.index + 8 * j + 4 * h = (HostReg.context c (2 * j + h)).offset := by
    simp only [HostReg.offset]
    omega
  have hw : (HostReg.context c (2 * j + h)).InWindow s.params := by
    simp only [HostReg.InWindow]
    omega
  exact step_read (ho ▸ hturn) hr hw (.inr hrun) (bigWord_limb _ _ _ _ hh)

/-- The state after an accepted write, whatever name it has (R45). -/
theorem eq_of_step_write {s t : State} {rest : List Turn} {r : HostReg} {off : Nat} {v : Word} (ht : step s = .next t)
    (h : s.turns = .host (.write 4 off v) :: rest) (hr : s.resetInput = false) (ho : off = r.offset)
    (hw : r.InWindow s.params) (hc : r ≠ .ctrl) (hok : r.writeAnyTime = true ∨ s.run ≠ .running) :
    t = { s.hostStore r v with turns := rest, response := t.response } := by
  subst ho
  have e := Host.Outcome.next.inj (ht.symm.trans (step_write h hr hw hc hok))
  rw [e]

/-- Settles O58: each row is the register of the map at that offset. -/
theorem controlRegisterWindow : Obligations.ControlRegisterWindow := by
  intro s rest r v hr
  refine ⟨fun f k h => ?_, fun off data h => ?_, fun base value j h hm hj hh hrun hturn => ?_, fun off h => ?_⟩
  · have hk := f.bit.isLt
    rw [flag_of_selector h, State.flag, BitVec.getLsbD_setWidth, decide_eq_true (by omega), Bool.true_and]
  · rintro (hm | ⟨hrun, hm⟩)
    · simp only [List.mem_cons, Prod.mk.injEq, List.not_mem_nil, or_false] at hm
      rcases hm with ⟨rfl, rfl⟩ | ⟨rfl, rfl⟩ | ⟨rfl, rfl⟩ | ⟨rfl, rfl⟩ | ⟨rfl, rfl⟩ | ⟨rfl, rfl⟩ | ⟨rfl, rfl⟩ |
        ⟨rfl, rfl⟩ | ⟨rfl, rfl⟩ | ⟨rfl, rfl⟩ | ⟨rfl, rfl⟩ | ⟨rfl, rfl⟩
      · exact step_read (r := .ien) h hr trivial (.inl rfl) rfl
      · exact step_read (r := .ip) h hr trivial (.inl rfl) rfl
      · exact step_read (r := .pc) h hr trivial (.inl rfl) rfl
      · exact step_read (r := .flags) h hr trivial (.inl rfl) rfl
      · exact step_read (r := .errs) h hr trivial (.inl rfl) rfl
      · exact step_read (r := .cause) h hr trivial (.inl rfl) (by rw [State.hostValue]; cases s.cause <;> rfl)
      · exact step_read (r := .epc) h hr trivial (.inl rfl) rfl
      · exact step_read (r := .einfo) h hr trivial (.inl rfl) rfl
      · exact step_read (r := .mulcntLo) h hr trivial (.inl rfl) rfl
      · exact step_read (r := .mulcntHi) h hr trivial (.inl rfl) rfl
      · exact step_read (r := .instretLo) h hr trivial (.inl rfl) rfl
      · exact step_read (r := .instretHi) h hr trivial (.inl rfl) rfl
    · simp only [List.mem_cons, Prod.mk.injEq, List.not_mem_nil, or_false] at hm
      rcases hm with ⟨rfl, rfl⟩ | ⟨rfl, rfl⟩ | ⟨rfl, rfl⟩
      · exact step_read (r := .a r) h hr trivial (.inr hrun) rfl
      · exact step_read (r := .inv 0) h hr Nat.zero_lt_two (.inr hrun) (ofNat_toNat_div _ _)
      · exact step_read (r := .inv 1) h hr Nat.one_lt_two (.inr hrun) (ofNat_toNat_div _ _)
  · simp only [List.mem_cons, Prod.mk.injEq, List.not_mem_nil, or_false] at hm
    rcases hm with ⟨rfl, rfl⟩ | ⟨rfl, rfl⟩ | ⟨rfl, rfl⟩ | ⟨rfl, rfl⟩ | ⟨rfl, rfl⟩ | ⟨rfl, rfl⟩
    · exact step_readContext .mod hr hrun hj hh hturn
    · exact step_readContext .rone hr hrun hj hh hturn
    · exact step_readContext .rsq hr hrun hj hh hturn
    · exact step_readContext .curveA hr hrun hj hh hturn
    · exact step_readContext .curveB hr hrun hj hh hturn
    · exact step_readContext .order hr hrun hj hh hturn
  · obtain ⟨t, ht⟩ : ∃ t, step s = .next t := ⟨_, step_host h hr⟩
    refine ⟨t, ht, fun ho => ?_, fun ho => ?_, fun hrun => ⟨fun ho => ?_, fun ho => ?_, fun ho => ?_, fun ho => ?_⟩⟩
    · exact eq_of_step_write (r := .ien) ht h hr ho trivial nofun (.inl rfl)
    · exact eq_of_step_write (r := .ip) ht h hr ho trivial nofun (.inl rfl)
    · exact eq_of_step_write (r := .pc) ht h hr ho trivial nofun (.inr hrun)
    · exact eq_of_step_write (r := .flags) ht h hr ho trivial nofun (.inr hrun)
    · exact eq_of_step_write (r := .errs) ht h hr ho trivial nofun (.inr hrun)
    · have e := eq_of_step_write (r := .a r) ht h hr ho trivial nofun (.inr hrun)
      refine ⟨?_, fun q hq => ?_, ?_⟩
      · rw [e]
        exact s.getA_setA_same r v
      · rw [e]
        exact (s.getA_setA r q v).trans (if_neg hq)
      · rw [e]
        rfl

/-! ### The B window -/

/-- Replacing a 32-bit word of a number changes those 32 bits and no other (R46). -/
theorem testBit_setBigWord (x k b : Nat) (w : Word) :
    (setBigWord x k w).testBit b = if 32 * k ≤ b ∧ b < 32 * k + 32 then w.getLsbD (b - 32 * k) else x.testBit b := by
  have hlow : x % 2 ^ (32 * k) < 2 ^ (32 * k) := Nat.mod_lt _ (Nat.two_pow_pos _)
  have hsum : setBigWord x k w =
      2 ^ (32 * k) * (2 ^ 32 * (x / 2 ^ (32 * (k + 1))) + w.toNat) + x % 2 ^ (32 * k) := by
    unfold setBigWord
    ring
  rw [hsum, Nat.testBit_two_pow_mul_add _ hlow, Nat.testBit_two_pow_mul_add _ w.isLt, Nat.testBit_mod_two_pow,
    Nat.testBit_div_two_pow]
  by_cases h1 : b < 32 * k
  · rw [if_pos h1, if_neg (by omega), decide_eq_true h1, Bool.true_and]
  · rw [if_neg h1]
    by_cases h2 : b < 32 * k + 32
    · rw [if_pos (by omega), if_pos (by omega)]
      rfl
    · rw [if_neg (by omega), if_neg (by omega)]
      congr 1
      omega

/-- A number of XLEN bits keeps that width when one of its words is replaced. -/
theorem setBigWord_lt {x k n : Nat} {w : Word} (hx : x < 2 ^ (64 * n)) (hk : k < 2 * n) :
    setBigWord x k w < 2 ^ (64 * n) := by
  refine Nat.lt_pow_two_of_testBit _ fun b hb => ?_
  rw [testBit_setBigWord, if_neg (by omega)]
  exact Nat.testBit_lt_two_pow (hx.trans_le (Nat.pow_le_pow_right (by norm_num) hb))

/-- Settles O59: the words of `B[i]` are those of `bigWord` and `setBigWord`. -/
theorem bigRegisterWindow : Obligations.BigRegisterWindow := by
  intro s rest i j h hr hrun hj hh off
  have ho : off = (HostReg.b i (2 * j + h)).offset := by
    simp only [HostReg.offset, off]
    omega
  have hw : (HostReg.b i (2 * j + h)).InWindow s.params := by
    simp only [HostReg.InWindow]
    omega
  refine ⟨fun hturn => step_read (ho ▸ hturn) hr hw (.inr hrun) (bigWord_limb _ _ _ _ hh), fun v hturn => ?_⟩
  obtain ⟨t, ht⟩ : ∃ t, step s = .next t := ⟨_, step_host hturn hr⟩
  have e := eq_of_step_write ht hturn hr ho hw nofun (.inr hrun)
  simp only [State.hostStore] at e
  refine ⟨t, ht, ?_⟩
  by_cases hjn : j < s.params.n
  · rw [if_pos (by omega)] at e
    have hlt : setBigWord (s.getB i) (2 * j + h) v < s.radix := setBigWord_lt (s.getB_lt i) (by omega)
    have hget : ∀ r, t.getB r = (s.setB i (setBigWord (s.getB i) (2 * j + h) v)).getB r := fun r => by
      rw [e]
      rfl
    refine ⟨by rw [e]; rfl, fun r hri => ?_, fun hn => by omega, fun _ k => ?_⟩
    · rw [hget, s.getB_setB, if_neg hri]
    · have he : 32 * (2 * j + h) = 64 * j + 32 * h := by omega
      rw [hget, s.getB_setB_same, Nat.mod_eq_of_lt hlt, testBit_setBigWord, he]
  · rw [if_neg (by omega)] at e
    have hget : ∀ r, t.getB r = s.getB r := fun r => by
      rw [e]
      rfl
    exact ⟨by rw [e], fun r _ => hget r, fun _ => hget i, fun hn => absurd hn hjn⟩

/-! ### The memory windows -/

/-- A little-endian number is the number of its first k bytes and that of the bytes above them (R82). -/
theorem readLE_add (f : Nat → Byte) (addr k m : Nat) :
    readLE f addr (k + m) = readLE f addr k + 2 ^ (8 * k) * readLE f (addr + k) m := by
  induction k generalizing addr with
  | zero => simp [readLE]
  | succ k ih =>
    have hp : 2 ^ (8 * (k + 1)) = 2 ^ 8 * 2 ^ (8 * k) := by rw [← Nat.pow_add]; congr 1; omega
    have ha : addr + 1 + k = addr + (k + 1) := by omega
    rw [Nat.succ_add, readLE, readLE, ih, ha, hp]
    ring

/-- Some bytes in the middle of a little-endian number (R84). -/
theorem readLE_slice (f : Nat → Byte) {addr k m n : Nat} (h : k + m ≤ n) :
    readLE f addr n / 2 ^ (8 * k) % 2 ^ (8 * m) = readLE f (addr + k) m := by
  obtain ⟨l, rfl⟩ := Nat.exists_eq_add_of_le h
  rw [Nat.add_assoc, readLE_add, Nat.add_mul_div_left _ _ (Nat.two_pow_pos _), Nat.div_eq_of_lt (readLE_lt _ _ _),
    Nat.zero_add, readLE_add, Nat.add_mul_mod_self_left, Nat.mod_eq_of_lt (readLE_lt _ _ _)]

theorem State.toNat_readWord (s : State) (addr : Nat) : (s.readWord addr).toNat = s.memRead addr 4 := by
  rw [State.readWord, BitVec.toNat_ofNat]
  exact Nat.mod_eq_of_lt (readLE_lt _ _ 4)

/-- Settles O60. -/
theorem memoryWindows : Obligations.MemoryWindows := by
  intro s rest hr hrun
  refine ⟨fun k v hk hsize => ⟨fun hturn => ?_, fun hturn => ?_⟩, fun addr v ha hd hsize => ?_⟩
  · refine ⟨_, step_write (r := .imem k) hturn hr hk nofun (.inr hrun), fun m => ?_, rfl⟩
    exact s.fetchWord_storeCommand k m v
  · exact step_read (r := .imem k) hturn hr hk (.inr hrun) rfl
  · have hw : (HostReg.dmem addr).InWindow s.params := ⟨ha, hd, by omega⟩
    refine ⟨fun hturn => ?_, fun hturn => ?_⟩
    · refine ⟨_, step_write (r := .dmem addr) hturn hr hw nofun (.inr hrun), fun x => ?_, rfl⟩
      exact s.readByte_memWrite addr 4 v.toNat x
    · refine ⟨_, step_read (r := .dmem addr) hturn hr hw (.inr hrun) rfl, fun k hk => ?_, ?_⟩
      · rw [State.hostValue, s.toNat_readWord, State.memRead, readLE_slice (m := 1) _ (by omega), readLE, readLE]
        omega
      · rintro base m rfl hm
        rw [State.hostValue, s.toNat_readWord, State.memRead, State.memRead]
        have e := readLE_slice s.readByte (addr := base) (k := 4 * m) (m := 4) (n := 8 * s.params.n) (by omega)
        rw [← e]
        congr 3
        omega

end Sys2Proof.Machine

/-! PROOFS. The invariant: the state after a reset is legal, and every step keeps a legal state legal. First each thing
that a step can write, then the command, the host's access and the step. -/

namespace Sys2Proof.Machine

open Sys2Proof.Config

/-- The context is legal by its own registers and the parameters alone. -/
theorem State.ContextLegal.of_rest {s t : State} (h : s.ContextLegal) (hrest : t = { s with
    b := t.b, a := t.a, pc := t.pc, flags := t.flags, errs := t.errs, run := t.run, cause := t.cause, epc := t.epc,
    einfo := t.einfo, ien := t.ien, ip := t.ip, mulcnt := t.mulcnt, instret := t.instret, imem := t.imem, dmem := t.dmem,
    epoch := t.epoch, resetInput := t.resetInput, turns := t.turns, response := t.response }) : t.ContextLegal := by
  rw [hrest]
  exact
    { latched := fun hm => { h.latched hm with }
      empty := h.empty
      loaded := fun hc => { h.loaded hc with field := { (h.loaded hc).field with } }
      unloaded := h.unloaded }

namespace State.Legal

variable {s t : State}

/-- Legality says nothing of `A`, `pc`, `FLAGS`, `ERRS`, the interrupt registers, the counters and the inputs; of the big
registers it asks that each is below 2^XLEN. -/
theorem of_rest (h : s.Legal) (hb : ∀ i : RegNum, t.b[i.val] < s.radix) (hrest : t = { s with
    b := t.b, a := t.a, pc := t.pc, flags := t.flags, errs := t.errs, ien := t.ien, ip := t.ip, mulcnt := t.mulcnt,
    instret := t.instret, epoch := t.epoch, resetInput := t.resetInput, turns := t.turns, response := t.response }) :
    t.Legal := by
  rw [hrest]
  exact
    { params := h.params
      dmem := h.dmem
      dmemBelow := h.dmemBelow
      imem := h.imem
      imemBelow := h.imemBelow
      registers := hb
      context := h.context.of_rest rfl
      faulted := h.faulted
      noRecord := h.noRecord }

theorem withTurns (h : s.Legal) (rest : List Turn) : State.Legal { s with turns := rest } := h.of_rest h.registers rfl

theorem withResponse (h : s.Legal) (r : Option HostResponse) : State.Legal { s with response := r } :=
  h.of_rest h.registers rfl

theorem complete (h : s.Legal) : s.complete.Legal := h.of_rest h.registers rfl

theorem computes (h : s.Legal) (hc : s.Computes t) : t.Legal :=
  h.of_rest (fun i => (hc.registers i).elim (fun e => e ▸ h.registers i) id) (by rw [hc.rest])

theorem setB (h : s.Legal) (i : RegNum) (v : Nat) : (s.setB i v).Legal := h.computes ((Computes.refl s).setB i v)

/-- Outside FAULTED the record is empty (R38). -/
theorem cause_of_run (h : s.Legal) (hr : s.run ≠ .faulted) : s.cause = .noFault :=
  not_not.1 fun hc => hr (h.faulted.2 hc)

/-- The sequencer starts or ends a run, without a fault (R37). -/
theorem withRun (h : s.Legal) {r : RunState} (hs : s.run ≠ .faulted) (hr : r ≠ .faulted) :
    State.Legal { s with run := r } :=
  { h with
    context := h.context.of_rest rfl
    faulted := iff_of_false hr (not_not.2 (h.cause_of_run hs)) }

/-- Fault entry fills the record (R290). -/
theorem raise (h : s.Legal) {trap : Trap} (hc : trap.cause ≠ .noFault) : (s.raise trap).Legal :=
  { h with
    context := h.context.of_rest rfl
    faulted := iff_of_true rfl hc
    noRecord := fun e => absurd e hc }

/-- A write within `DMEM` (R50). -/
theorem memWrite (h : s.Legal) {addr n : Nat} (v : Nat) (hn : addr + n ≤ s.params.dmemb) : (s.memWrite addr n v).Legal :=
  { h with
    dmem := storeLE_wf h.dmem _ _ _
    dmemBelow := storeLE_below h.dmemBelow _ _ _ hn
    context := h.context.of_rest rfl }

/-- A write within `IMEM` (R50). -/
theorem storeCommand (h : s.Legal) {k : Nat} (w : Word) (hk : k < s.params.imemw) : (s.storeCommand k w).Legal :=
  { h with
    imem := Memory.store_wf h.imem _ _
    imemBelow := Memory.store_below h.imemBelow hk _
    context := h.context.of_rest rfl }

/-- `MODSET` of an odd value from 3 on latches a legal field context, over which no curve is loaded (R32 to R36). -/
theorem latchModulus (h : s.Legal) {v : Nat} (hm : s.modv = false) (hodd : v % 2 = 1) (hlow : 3 ≤ v) (hup : v < s.radix) :
    (s.latchModulus v).Legal := by
  obtain ⟨_, _, _, _, hcrvv⟩ := h.context.empty hm
  have hinv : (v * (BitVec.ofNat 64 (negInverse v)).toNat) % 2 ^ 64 = 2 ^ 64 - 1 := by
    rw [BitVec.toNat_ofNat, Nat.mul_mod, Nat.mod_mod, ← Nat.mul_mod, negInverse_spec hodd]
  exact
    { h with
      context :=
        { latched := fun _ =>
            { latched := rfl, odd := hodd, lower := hlow, upper := hup, inv := hinv, rone := rfl, rsq := rfl }
          empty := nofun
          loaded := fun hc => absurd (hcrvv.symm.trans hc) nofun
          unloaded := h.context.unloaded } }

/-- `CRVSET` of coefficients below the modulus loads a legal curve context (R36). -/
theorem loadCurve (h : s.Legal) {a b order : Nat} (hm : s.modv = true) (ha : a < s.mod) (hb : b < s.mod)
    (ho : order < s.radix) :
    State.Legal { s with crvv := true, curveA := a, curveB := b, order := order } := by
  have hfield := h.context.latched hm
  exact
    { h with
      context :=
        { latched := fun _ => { hfield with }
          empty := fun e => absurd (hm.symm.trans e) nofun
          loaded := fun _ => { field := { hfield with }, loaded := rfl, a := ha, b := hb, order := ho }
          unloaded := nofun } }

/-- The state after a hard reset (R52). -/
theorem hardReset {p : Params} (hp : p.wf) (epoch : Nat) : (State.hardResetState p epoch).Legal where
  params := hp
  dmem := List.Pairwise.nil
  dmemBelow := nofun
  imem := List.Pairwise.nil
  imemBelow := nofun
  registers i := by
    simp only [State.hardResetState, Vector.getElem_replicate]
    exact State.radix_pos _
  context :=
    { latched := nofun
      empty := fun _ => ⟨rfl, rfl, rfl, rfl, rfl⟩
      loaded := nofun
      unloaded := fun _ => ⟨rfl, rfl, rfl⟩ }
  faulted := iff_of_false nofun (not_not.2 rfl)
  noRecord _ := ⟨rfl, rfl⟩

/-- A soft reset keeps the memories (R331). -/
theorem softReset (h : s.Legal) : s.softReset.Legal :=
  { hardReset h.params s.epoch with
    dmem := h.dmem
    dmemBelow := h.dmemBelow
    imem := h.imem
    imemBelow := h.imemBelow
    context := (hardReset h.params s.epoch).context.of_rest rfl }

/-- Asserting the reset input resets every register and starts a new epoch of the memories (R330). -/
theorem assertReset (h : s.Legal) : s.assertReset.Legal :=
  (hardReset h.params (s.epoch + 1)).of_rest (hardReset h.params (s.epoch + 1)).registers rfl

/-- A command that passes its checks (R248). -/
theorem commandDone (h : s.Legal) (hrun : s.run = .running) {i : Instr} (hchecks : commandChecks i s = none) :
    (commandDone i s).Legal := by
  rcases commandDone_cases i s with hc | ⟨rfl, e⟩ | ⟨rd, ra, imm, rfl, e⟩ | ⟨ra, rfl, e⟩ | ⟨ra, rb, rc, rfl, e⟩
  · exact h.computes hc
  · have hs : s.run ≠ .faulted := by rw [hrun]; nofun
    rw [e]
    exact (h.withRun hs (r := .done) nofun).of_rest h.registers rfl
  · obtain ⟨_, hrange⟩ := State.memoryAccess_eq_none.1 hchecks
    rw [e]
    exact (h.memWrite _ hrange).complete
  · obtain ⟨hm, hodd, hlow⟩ := State.modsetChecks_eq_none.1 hchecks
    rw [e]
    exact (h.latchModulus hm hodd hlow (s.getB_lt ra)).complete
  · obtain ⟨hm, hrange⟩ := State.fieldChecks_eq_none.1 hchecks
    rw [e]
    exact (h.loadCurve hm (hrange ra (by simp)) (hrange rb (by simp)) (s.getB_lt rc)).complete

theorem exec (h : s.Legal) (hrun : s.run = .running) {i : Instr} (he : exec i s = .next t) : t.Legal := by
  rcases exec_next he with ⟨trap, hchecks, rfl⟩ | ⟨hchecks, rfl⟩
  · exact h.raise (commandChecks_names i s trap hchecks)
  · exact h.commandDone hrun hchecks

/-- An accepted write of the host (R45 to R49). -/
theorem hostStore (h : s.Legal) {r : HostReg} (hw : r.InWindow s.params) (v : Word) : (s.hostStore r v).Legal := by
  cases r with
  | b i k =>
    simp only [State.hostStore]
    split_ifs
    · exact h.setB _ _
    · exact h
  | imem k => exact h.storeCommand v hw
  | dmem addr =>
    obtain ⟨_, hd, _⟩ := hw
    exact h.memWrite _ hd
  | ien | ip | pc | flags | errs | a => exact h.of_rest h.registers rfl
  | _ => exact h

theorem hostAccess (h : s.Legal) (a : HostAccess) : (s.hostAccess a).1.Legal := by
  rcases s.hostAccess_cases a with e | e | ⟨v, _, _, e⟩ | ⟨v, _, _, _, hrun, e⟩ | ⟨r, v, hw, e⟩ <;> rw [e]
  · exact h
  · exact h.of_rest h.registers rfl
  · exact h.softReset
  · have hs : s.run ≠ .faulted := by rcases hrun with hrun | hrun <;> rw [hrun] <;> nofun
    exact h.withRun hs nofun
  · exact h.hostStore hw v

theorem hostTurn (h : s.Legal) (a : HostAccess) : (s.hostTurn a).Legal := by
  unfold State.hostTurn
  split_ifs
  · exact h.withResponse _
  · exact (h.hostAccess a).withResponse _

end State.Legal

/-- The sequencer steps only in RUNNING (R305). -/
theorem State.run_of_mayStep {s : State} (h : s.mayStep = true) : s.run = .running := by
  simp only [State.mayStep, Bool.and_eq_true, beq_iff_eq] at h
  exact h.1

/-- Settles O48, by the list of what a step can do. -/
theorem stepKeepsLegal : Obligations.StepKeepsLegal := by
  intro s t h hstep
  obtain ⟨u, hu, hcases⟩ := step_cases hstep
  have hu : u.Legal := by
    rcases hu with rfl | ⟨rest, rfl⟩
    · exact h
    · exact h.withTurns rest
  rcases hcases with rfl | ⟨trap, _, hf, rfl⟩ | ⟨i, hm, _, he⟩ | ⟨a, _, _, _, rfl⟩ | ⟨_, _, _, _, rfl⟩ | ⟨_, _, _, rfl⟩
  · exact hu
  · exact hu.raise (State.fetchDecode_names hf)
  · exact hu.exec (State.run_of_mayStep hm) he
  · exact hu.hostTurn a
  · exact hu.assertReset
  · exact hu.of_rest hu.registers rfl

/-- The reference parameters of R7 are legal. -/
theorem reference_wf : reference.wf := by
  decide

/-- Settles O49. -/
theorem resetLegal : Obligations.ResetLegal :=
  ⟨State.Legal.hardReset reference_wf 0, fun _ epoch hp => State.Legal.hardReset hp epoch⟩

end Sys2Proof.Machine

/-! PROOFS. What a command leaves to the host, the transitions of `STATE`, and fetches beyond command memory. -/

namespace Sys2Proof.Machine

open Sys2Proof.Config

/-! ### What no command writes -/

/-- The frame of a command, whether it completes or faults: `ERRS` and `IP` only gain bits, and not `HOSTERR`; the
parameters, `IEN`, command memory and the inputs stay; the context is `MODSET`'s and `CRVSET`'s. -/
structure Executes (i : Instr) (s t : State) : Prop where
  host : t.params = s.params ∧ t.ien = s.ien ∧ t.resetInput = s.resetInput ∧ t.turns = s.turns
  commands : t.imem = s.imem ∧ t.epoch = s.epoch
  errs : ∃ sticky : BitVec 5, t.errs = s.errs ||| sticky ∧ sticky.getLsbD 4 = false
  ip : ∃ bits : BitVec 2, t.ip = s.ip ||| bits
  field : (∀ ra, i ≠ .modset ra) →
    t.modv = s.modv ∧ t.mod = s.mod ∧ t.inv = s.inv ∧ t.rone = s.rone ∧ t.rsq = s.rsq
  curve : (∀ ra rb rc, i ≠ .crvset ra rb rc) →
    t.crvv = s.crvv ∧ t.curveA = s.curveA ∧ t.curveB = s.curveB ∧ t.order = s.order

namespace Executes

variable {i : Instr} {s t : State}

/-- A command that writes neither the context nor, but for new bits, `ERRS` and `IP`. -/
theorem of_rest (herrs : ∃ sticky : BitVec 5, t.errs = s.errs ||| sticky ∧ sticky.getLsbD 4 = false)
    (hip : ∃ bits : BitVec 2, t.ip = s.ip ||| bits) (hrest : t = { s with
      b := t.b, a := t.a, pc := t.pc, flags := t.flags, errs := t.errs, run := t.run, cause := t.cause, epc := t.epc,
      einfo := t.einfo, ip := t.ip, mulcnt := t.mulcnt, instret := t.instret, dmem := t.dmem }) :
    Executes i s t where
  host := by rw [hrest]; exact ⟨rfl, rfl, rfl, rfl⟩
  commands := by rw [hrest]; exact ⟨rfl, rfl⟩
  errs := herrs
  ip := hip
  field _ := by rw [hrest]; exact ⟨rfl, rfl, rfl, rfl, rfl⟩
  curve _ := by rw [hrest]; exact ⟨rfl, rfl, rfl, rfl⟩

theorem errs_same (h : t.errs = s.errs) : ∃ sticky : BitVec 5, t.errs = s.errs ||| sticky ∧ sticky.getLsbD 4 = false :=
  ⟨0, by rw [h]; simp, rfl⟩

theorem ip_same (h : t.ip = s.ip) : ∃ bits : BitVec 2, t.ip = s.ip ||| bits := ⟨0, by rw [h]; simp⟩

theorem of_raise (trap : Trap) : Executes i s (s.raise trap) := of_rest (errs_same rfl) ⟨_, rfl⟩ rfl

theorem of_computes (h : s.Computes t) : Executes i s t :=
  of_rest h.errs (ip_same (by rw [h.rest])) (by rw [h.rest])

theorem of_commandDone (i : Instr) (s : State) : Executes i s (commandDone i s) := by
  rcases commandDone_cases i s with hc | ⟨rfl, e⟩ | ⟨rd, ra, imm, rfl, e⟩ | ⟨ra, rfl, e⟩ | ⟨ra, rb, rc, rfl, e⟩
  · exact of_computes hc
  · rw [e]
    exact of_rest (errs_same rfl) ⟨_, rfl⟩ rfl
  · rw [e]
    exact of_rest (errs_same rfl) (ip_same rfl) rfl
  · rw [e]
    exact
      { host := ⟨rfl, rfl, rfl, rfl⟩
        commands := ⟨rfl, rfl⟩
        errs := errs_same rfl
        ip := ip_same rfl
        field := fun h => absurd rfl (h ra)
        curve := fun _ => ⟨rfl, rfl, rfl, rfl⟩ }
  · rw [e]
    exact
      { host := ⟨rfl, rfl, rfl, rfl⟩
        commands := ⟨rfl, rfl⟩
        errs := errs_same rfl
        ip := ip_same rfl
        field := fun _ => ⟨rfl, rfl, rfl, rfl, rfl⟩
        curve := fun h => absurd rfl (h ra rb rc) }

theorem of_exec (h : exec i s = .next t) : Executes i s t := by
  rcases exec_next h with ⟨trap, _, rfl⟩ | ⟨_, rfl⟩
  · exact of_raise trap
  · exact of_commandDone i s

end Executes

/-- A register that only gains bits keeps those that it has. -/
theorem and_or_absorb {w : Nat} (x y : BitVec w) : x &&& (x ||| y) = x := by
  ext k
  rw [BitVec.getElem_and, BitVec.getElem_or]
  cases x[k] <;> rfl

/-- Settles O54. -/
theorem commandsKeepHostState : Obligations.CommandsKeepHostState := by
  intro i s t h
  obtain ⟨⟨hparams, hien, hreset, hturns⟩, ⟨himem, hepoch⟩, ⟨sticky, herrs, h4⟩, ⟨bits, hip⟩, hfield, hcurve⟩ :=
    Executes.of_exec h
  refine ⟨fun k => ?_, hparams, hien, ?_, ?_, ?_, hreset, hturns, hfield, hcurve⟩
  · rw [State.fetchWord, State.fetchWord, himem, hepoch]
  · rw [herrs, and_or_absorb]
  · rw [herrs, BitVec.getLsbD_or, h4, Bool.or_false]
  · rw [hip, and_or_absorb]

/-! ### The transitions of `STATE` -/

/-- Only `HALT` ends a run without a fault (R37, R251). -/
theorem run_commandDone (i : Instr) (s : State) :
    (commandDone i s).run = s.run ∨ (i = .halt ∧ (commandDone i s).run = .done) := by
  rcases commandDone_cases i s with hc | ⟨rfl, e⟩ | ⟨_, _, _, _, e⟩ | ⟨_, _, e⟩ | ⟨_, _, _, _, e⟩
  · exact .inl (by rw [hc.rest])
  · exact .inr ⟨rfl, by rw [e]; rfl⟩
  all_goals exact .inl (by rw [e]; rfl)

/-- No write but that of `CTRL` changes `STATE` (R37). -/
theorem State.run_hostStore (s : State) (r : HostReg) (v : Word) : (s.hostStore r v).run = s.run := by
  cases r with
  | b i k =>
    simp only [State.hostStore]
    split_ifs <;> rfl
  | _ => rfl

/-- The host changes `STATE` by a start or by a soft reset only (R37, R42). -/
theorem State.run_hostTurn (s : State) (a : HostAccess) :
    (s.hostTurn a).run = s.run ∨
    (∃ v, a = .write 4 0x0010 v ∧ v.getLsbD 0 = true ∧ v.getLsbD 1 = false ∧ (s.run = .idle ∨ s.run = .done) ∧
      (s.hostTurn a).run = .running) ∨
    (∃ v, a = .write 4 0x0010 v ∧ v.getLsbD 1 = true ∧ s.resetInput = false ∧ (s.hostTurn a).run = .idle) := by
  unfold State.hostTurn
  cases hr : s.resetInput with
  | true => exact .inl rfl
  | false =>
    simp only [Bool.false_eq_true, if_false]
    rcases s.hostAccess_cases a with e | e | ⟨v, ha, h1, e⟩ | ⟨v, ha, h0, h1, hrun, e⟩ | ⟨r, v, _, e⟩ <;> rw [e]
    · exact .inl rfl
    · exact .inl rfl
    · exact .inr (.inr ⟨v, ha, h1, trivial, rfl⟩)
    · exact .inr (.inl ⟨v, ha, h0, h1, hrun, rfl⟩)
    · exact .inl (s.run_hostStore r v)

/-- Settles O52, by the list of what a step can do. -/
theorem stateTransitions : Obligations.StateTransitions := by
  intro s t hstep
  obtain ⟨u, hu, hcases⟩ := step_cases hstep
  obtain ⟨hrun, hpc, hword⟩ : u.run = s.run ∧ u.pc = s.pc ∧ ∀ k, u.fetchWord k = s.fetchWord k := by
    rcases hu with rfl | ⟨rest, rfl⟩ <;> exact ⟨rfl, rfl, fun _ => rfl⟩
  rcases hcases with rfl | ⟨trap, hm, hf, rfl⟩ | ⟨i, hm, hf, he⟩ | ⟨a, rest, ht, rfl, rfl⟩ | ⟨rest, ht, _, _, rfl⟩ |
    ⟨_, _, _, rfl⟩
  · exact .inl hrun
  · have hs := hrun.symm.trans (State.run_of_mayStep hm)
    exact .inr (.inr (.inr (.inl ⟨hs, rfl, State.fetchDecode_names hf, hpc⟩)))
  · have hs := hrun.symm.trans (State.run_of_mayStep hm)
    rcases exec_next he with ⟨trap, hchecks, rfl⟩ | ⟨_, rfl⟩
    · exact .inr (.inr (.inr (.inl ⟨hs, rfl, commandChecks_names i u trap hchecks, hpc⟩)))
    · rcases run_commandDone i u with e | ⟨rfl, e⟩
      · exact .inl (e.trans hrun)
      · have hd := State.decode_of_fetchDecode hf
        rw [hword, hpc] at hd
        exact .inr (.inr (.inl ⟨hs, e, hd⟩))
  · rcases State.run_hostTurn { s with turns := rest } a with e | ⟨v, rfl, h0, h1, hidle, e⟩ | ⟨v, rfl, h1, hr, e⟩
    · exact .inl e
    · exact .inr (.inl ⟨by simpa using hidle, e, v, rest, ht, h0, h1⟩)
    · exact .inr (.inr (.inr (.inr ⟨.inr ⟨v, rest, ht, h1, hr⟩, e⟩)))
  · exact .inr (.inr (.inr (.inr ⟨.inl ⟨rest, ht⟩, rfl⟩)))
  · exact .inl hrun

/-! ### Fetches beyond command memory -/

/-- A running sequencer whose `pc` is beyond command memory takes IFETCH_RANGE (R28, R290). -/
theorem step_fetchRange {s : State} (hturns : s.turns = []) (hreset : s.resetInput = false) (hrun : s.run = .running)
    (hpc : s.params.imemw ≤ s.pc.toNat) : step s = .next (faultState s .ifetchRange 0) := by
  have hm : s.mayStep = true := by simp [State.mayStep, hrun, hreset]
  rw [step_nil hturns, State.sequencerStep, if_pos hm, State.fetchDecode_of_ge hpc]
  rfl

/-- A flag is `FLAGS` at its selector (R29, R118). -/
theorem State.flagAt_eq_flag {s : State} {f : Flag} {sel : FlagSel} (h : (f, sel.val) ∈ flagSelectors) :
    s.flagAt sel = s.flag f := by
  rw [State.flagAt, State.flag, flag_of_selector h]

theorem selectorError_of_flag {f : Flag} {sel : FlagSel} (h : (f, sel.val) ∈ flagSelectors) : selectorError sel = none := by
  have hk := flag_of_selector h
  have := f.bit.isLt
  rw [selectorError, if_pos (by omega)]

/-- A taken branch completes: `pc` is its target, and the run goes on (R252 to R255). -/
theorem exec_of_branches {s : State} {i : Instr} {imm : Imm16} (h : s.Branches i imm) :
    ∃ t, exec i s = .next t ∧ t = { s with a := t.a, pc := s.pc + imm, instret := t.instret } := by
  rcases h with rfl | ⟨f, sel, hsel, ⟨rfl, hf⟩ | ⟨rfl, hf⟩⟩ | ⟨r, rfl, hr⟩
  · exact ⟨_, rfl, rfl⟩
  · have hwf : (Instr.bfs sel imm).wf := selectorError_of_flag hsel
    refine ⟨_, exec_completes (illegalFields_none hwf), ?_⟩
    rw [commandDone, State.flagAt_eq_flag hsel, hf]
    rfl
  · have hwf : (Instr.bfc sel imm).wf := selectorError_of_flag hsel
    refine ⟨_, exec_completes (illegalFields_none hwf), ?_⟩
    rw [commandDone, State.flagAt_eq_flag hsel, hf]
    rfl
  · have hne : (s.getA r - 1 != 0) = true := by
      rw [bne_iff_ne, Ne, sub_eq_zero]
      exact fun e => hr (by rw [e]; rfl)
    refine ⟨_, exec_completes rfl, ?_⟩
    simp only [commandDone, hne]
    rfl

/-- Settles O8. -/
theorem fetchRange : Obligations.FetchRange := by
  refine ⟨fun s => step_fetchRange, fun s w hsize hpc hw => ?_, fun s i imm hturns hreset hrun hb hrange => ?_⟩
  · have hpc0 : s.pc + 1 = 0 := by rw [hpc]; rfl
    refine ⟨_, rfl, hpc0, rfl, fun hturns hreset hrun => ⟨hturns, hreset, hrun, ?_, ?_⟩⟩
    · change (s.pc + 1).toNat < s.params.imemw
      rw [hpc0, hsize]
      decide
    · change s.fetchWord (s.pc + 1).toNat = w
      rw [hpc0]
      exact hw
  · obtain ⟨t, he, ht⟩ := exec_of_branches hb
    refine ⟨t, he, by rw [ht], by rw [ht]; exact hrun, step_fetchRange ?_ ?_ ?_ ?_⟩
    · rw [ht]; exact hturns
    · rw [ht]; exact hreset
    · rw [ht]; exact hrun
    · rw [ht]; exact hrange

end Sys2Proof.Machine

/-! PROOFS. Operand memory: byte k of a little-endian number, `LD` and `ST` at a legal address, and a load after a store. -/

namespace Sys2Proof.Machine

/-! ### Little-endian numbers and their bytes -/

@[simp] theorem readLE_one (f : Nat → Byte) (addr : Nat) : readLE f addr 1 = (f addr).toNat := by
  rw [readLE, readLE, Nat.mul_zero, Nat.add_zero]

/-- A little-endian read is the sum of R82: byte k has the weight 2^(8k). -/
theorem readLE_eq_sum (f : Nat → Byte) (addr n : Nat) :
    readLE f addr n = ∑ k ∈ Finset.range n, (f (addr + k)).toNat * 2 ^ (8 * k) := by
  induction n with
  | zero => rfl
  | succ n ih => rw [readLE_add, readLE_one, ih, Finset.sum_range_succ, Nat.mul_comm (2 ^ (8 * n))]

theorem State.byte_memRead (s : State) {addr n k : Nat} (hk : k < n) :
    s.memRead addr n / 2 ^ (8 * k) % 2 ^ 8 = (s.readByte (addr + k)).toNat := by
  rw [State.memRead, ← readLE_one]
  exact readLE_slice (m := 1) _ hk

theorem State.readByte_memWrite_inside (s : State) (addr v : Nat) {n k : Nat} (hk : k < n) :
    (s.memWrite addr n v).readByte (addr + k) = BitVec.ofNat 8 (v / 2 ^ (8 * k)) := by
  rw [State.readByte_memWrite, if_pos (by omega), Nat.add_sub_cancel_left]

theorem State.readByte_memWrite_outside (s : State) {addr n x : Nat} (v : Nat) (hx : x < addr ∨ addr + n ≤ x) :
    (s.memWrite addr n v).readByte x = s.readByte x := by
  rw [State.readByte_memWrite, if_neg (by omega)]

/-- A read after a write, one byte: the written byte where the two overlap, the earlier byte elsewhere (R92). -/
theorem State.toNat_readByte_memWrite (s : State) (addr n v x : Nat) :
    ((s.memWrite addr n v).readByte x).toNat =
      if addr ≤ x ∧ x < addr + n then v / 2 ^ (8 * (x - addr)) % 2 ^ 8 else (s.readByte x).toNat := by
  rw [State.readByte_memWrite, apply_ite BitVec.toNat, BitVec.toNat_ofNat]

/-- Settles O19. -/
theorem byteOrder : Obligations.ByteOrder := fun s addr n v =>
  ⟨readLE_eq_sum s.readByte addr n, fun _ => s.readByte_memWrite_inside addr v, fun _ => s.readByte_memWrite_outside v⟩

/-! ### `LD` and `ST` at a legal address -/

/-- `LD` at a legal address completes: the register holds the 8·N bytes (R259). -/
theorem exec_ld {s : State} (rd : RegNum) {ra : RegNum} {imm : Imm16} (ha : (s.effectiveAddress ra imm).toNat % 8 = 0)
    (hb : (s.effectiveAddress ra imm).toNat + 8 * s.params.n ≤ s.params.dmemb) :
    exec (.ld rd ra imm) s =
      .next (s.setB rd (s.memRead (s.effectiveAddress ra imm).toNat (8 * s.params.n))).complete :=
  exec_completes (i := .ld rd ra imm) (s.memoryAccess_none ha hb)

/-- `ST` at a legal address completes: the 8·N bytes hold the register (R260). -/
theorem exec_st {s : State} (rs : RegNum) {ra : RegNum} {imm : Imm16} (ha : (s.effectiveAddress ra imm).toNat % 8 = 0)
    (hb : (s.effectiveAddress ra imm).toNat + 8 * s.params.n ≤ s.params.dmemb) :
    exec (.st rs ra imm) s =
      .next (s.memWrite (s.effectiveAddress ra imm).toNat (8 * s.params.n) (s.getB rs)).complete :=
  exec_completes (i := .st rs ra imm) (s.memoryAccess_none ha hb)

/-- A register takes the 8·N bytes that a load reads whole: they are below 2^XLEN (R83). -/
theorem State.getB_load (s : State) (rd : RegNum) (addr : Nat) :
    ((s.setB rd (s.memRead addr (8 * s.params.n))).complete).getB rd = s.memRead addr (8 * s.params.n) := by
  rw [State.complete_eq, State.getB_completeAt, State.getB_setB_same]
  exact Nat.mod_eq_of_lt (s.memRead_lt addr)

/-- Settles O18: the load reads the memory that the store wrote, byte by byte. -/
theorem loadSeesStore : Obligations.LoadSeesStore := by
  intro s rs rd ra rb imm imm' ea eb hea heaSize heb hebSize
  let t := (s.memWrite ea (8 * s.params.n) (s.getB rs)).complete
  have hu := t.getB_load rd eb
  refine ⟨t, _, exec_st rs hea heaSize, exec_ld (s := t) rd heb hebSize, fun hab => ?_, fun k hk => ?_⟩
  · calc _ = t.memRead eb (8 * s.params.n) := hu
      _ = (s.memWrite ea (8 * s.params.n) (s.getB rs)).memRead ea (8 * s.params.n) := by rw [← hab]; rfl
      _ = s.getB rs % s.radix := by rw [State.memRead_memWrite, State.radix_eq_bytes]; rfl
      _ = s.getB rs := Nat.mod_eq_of_lt (s.getB_lt rs)
  · calc _ = t.memRead eb (8 * s.params.n) / 2 ^ (8 * k) % 2 ^ 8 := congrArg (· / 2 ^ (8 * k) % 2 ^ 8) hu
      _ = (t.readByte (eb + k)).toNat := t.byte_memRead hk
      _ = _ := s.toNat_readByte_memWrite ea (8 * s.params.n) (s.getB rs) (eb + k)

end Sys2Proof.Machine

/-! PROOFS. The encoding: a word of each format is known by its fields, hence the decoder is the inverse of the encoder on
well-formed commands (`decode_eq_ok_iff`). -/

namespace Sys2Proof

/-! ### The checks on the fields of a term -/

theorem selectorError_eq_none {sel : FlagSel} : selectorError sel = none ↔ sel.val ≤ 8 := by simp [selectorError]

theorem pairError_eq_none {r : RegNum} : pairError r = none ↔ r.val ≤ 14 := by simp [pairError]

theorem tripleError_eq_none {rs : List RegNum} : tripleError rs = none ↔ ∀ r ∈ rs, r.val ≤ 13 := by simp [tripleError]

/-! ### The fields of a word -/

theorem toNat_assembleR (op : Nat) (rd ra rb rc fn : Fin 16) :
    (assembleR op rd ra rb rc fn).toNat =
      (op * 2 ^ 24 + rd.val * 2 ^ 20 + ra.val * 2 ^ 16 + (rb.val * 2 ^ 12 + rc.val * 2 ^ 8 + fn.val)) % 2 ^ 32 :=
  BitVec.toNat_ofNat ..

theorem toNat_assembleM (op : Nat) (x y : Fin 16) (imm : Imm16) :
    (assembleM op x y imm).toNat = (op * 2 ^ 24 + x.val * 2 ^ 20 + y.val * 2 ^ 16 + imm.toNat) % 2 ^ 32 :=
  BitVec.toNat_ofNat ..

theorem toNat_assembleI (op : Nat) (rd : Fin 16) (imm : Imm20) :
    (assembleI op rd imm).toNat = (op * 2 ^ 24 + rd.val * 2 ^ 20 + imm.toNat) % 2 ^ 32 := by
  simp [assembleI, assemble]

section Fields

variable {w : Word} {op : Nat}

/-- `NOP` and `HALT` use no field of format R (R119, R120). -/
theorem payload_eq_zero_iff :
    w.toNat % 0x1000000 = 0 ↔
      regField w 20 = 0 ∧ regField w 16 = 0 ∧ regField w 12 = 0 ∧ regField w 8 = 0 ∧ fnField w = 0 := by
  simp only [regField, fnField, Fin.ext_iff, Fin.val_ofNat, Fin.val_zero]
  omega

/-- `fn` of `BCSEL` is its selector below four bits that must be 0 (R118, R120). -/
theorem fnField_eq_val_iff {sel : Fin 16} : fnField w = sel.val ↔ regField w 0 = sel ∧ fnField w / 2 ^ 4 = 0 := by
  simp only [regField, fnField, Fin.ext_iff, Fin.val_ofNat]
  omega

/-- A word of format R is known by its fields (R111, R127). -/
theorem assembleR_eq_iff {rd ra rb rc fn : Fin 16} (hop : op < 2 ^ 8) :
    assembleR op rd ra rb rc fn = w ↔
      opcodeField w = op ∧ regField w 20 = rd ∧ regField w 16 = ra ∧ regField w 12 = rb ∧ regField w 8 = rc ∧
        fnField w = fn.val := by
  simp only [← BitVec.toNat_inj, toNat_assembleR, opcodeField, regField, fnField, Fin.ext_iff, Fin.val_ofNat]
  omega

/-- A word of format M or B is known by its fields (R112, R114, R127). -/
theorem assembleM_eq_iff {x y : Fin 16} {imm : Imm16} (hop : op < 2 ^ 8) :
    assembleM op x y imm = w ↔
      opcodeField w = op ∧ regField w 20 = x ∧ regField w 16 = y ∧ immField16 w = imm := by
  simp only [← BitVec.toNat_inj, toNat_assembleM, opcodeField, regField, immField16, Fin.ext_iff, Fin.val_ofNat,
    BitVec.toNat_ofNat]
  omega

/-- A word of format I is known by its fields (R113, R127). -/
theorem assembleI_eq_iff {rd : Fin 16} {imm : Imm20} (hop : op < 2 ^ 8) :
    assembleI op rd imm = w ↔ opcodeField w = op ∧ regField w 20 = rd ∧ immField20 w = imm := by
  simp only [← BitVec.toNat_inj, toNat_assembleI, opcodeField, regField, immField20, Fin.ext_iff, Fin.val_ofNat,
    BitVec.toNat_ofNat]
  omega

end Fields

/-! ### Decoding undoes encoding -/

section Inverse

variable {w : Word} {i : Instr}

/-- The row of a command's word is that command, with every must-be-zero field 0. -/
theorem opcodeRow_of_encode (h : encode i = w) : opcodeRow w = some (i, true) := by
  cases i with
  | nop | halt =>
    have hf := (assembleR_eq_iff (by decide)).1 h
    simp [opcodeRow, payload_eq_zero_iff, hf]
  | jmp | bfs | bfc | dbnz | aaddi | ld | st =>
    have hf := (assembleM_eq_iff (by decide)).1 h
    simp [opcodeRow, hf]
  | ali | bldi =>
    have hf := (assembleI_eq_iff (by decide)).1 h
    simp [opcodeRow, hf]
  | bcsel =>
    obtain ⟨hop, hrd, hra, hrb, hrc, hfn⟩ := (assembleR_eq_iff (by decide)).1 h
    obtain ⟨hsel, -⟩ := fnField_eq_val_iff.1 hfn
    simp [opcodeRow, hop, hrd, hra, hrb, hrc, hfn, hsel]
  | badd | badc | bsub | bsbb | bcmp | bshr1 | bmulw | btstz | bmov | modset | fadd | fsub | fneg | fmul | fsqr | finv
  | fsqrt | fexp | ftom | ffrm | fone | crvset | padd | pdbl | pmul | ponc | psgc | paff | peq =>
    have hf := (assembleR_eq_iff (by decide)).1 h
    simp [opcodeRow, hf]

/-- In every row the fields used and the must-be-zero fields together are all fields of the format. -/
theorem encode_of_opcodeRow (h : opcodeRow w = some (i, true)) : encode i = w := by
  unfold opcodeRow at h
  split at h
  case h_42 => cases h
  all_goals
    obtain ⟨rfl, hzero⟩ := Prod.mk.inj (Option.some.inj h)
    simp_all [encode, assembleR_eq_iff, assembleM_eq_iff, assembleI_eq_iff, payload_eq_zero_iff, fnField_eq_val_iff]

theorem opcodeRow_eq_iff : opcodeRow w = some (i, true) ↔ encode i = w :=
  ⟨encode_of_opcodeRow, opcodeRow_of_encode⟩

theorem decode_eq_ok_iff_opcodeRow : decode w = .ok i ↔ i.wf ∧ opcodeRow w = some (i, true) := by
  unfold decode
  cases opcodeRow w with
  | none => simp
  | some row =>
    obtain ⟨j, zero⟩ := row
    cases zero with
    | false => simp
    | true =>
      cases hj : j.fieldError with
      | none => simpa [hj] using fun e : j = i => e ▸ hj
      | some _ => simpa [hj] using fun hwf (e : j = i) => absurd (e ▸ hj) (hwf ▸ nofun)

/-- A word decodes to a command exactly when the command is well-formed and the word is its encoding (R123). -/
theorem decode_eq_ok_iff : decode w = .ok i ↔ i.wf ∧ encode i = w := by
  rw [decode_eq_ok_iff_opcodeRow, opcodeRow_eq_iff]

/-- Settles O1. -/
theorem decodeOfEncode : Obligations.DecodeOfEncode := fun _ hwf => decode_eq_ok_iff.2 ⟨hwf, rfl⟩

/-- Settles O2. -/
theorem encodeOfDecode : Obligations.EncodeOfDecode := fun _ _ => decode_eq_ok_iff.1

/-- Settles O3: each word is the encoding of its command. -/
theorem exampleWords : Obligations.ExampleWords :=
  ⟨decodeOfEncode (.fmul 3 1 2) rfl, decodeOfEncode (.ld 1 2 32) rfl, decodeOfEncode (.st 3 0 (-8)) rfl,
    decodeOfEncode (.bldi 5 0x12345) rfl, decodeOfEncode (.bfs 3 3) rfl, decodeOfEncode (.dbnz 1 (-2)) rfl,
    decodeOfEncode (.bcsel 0 1 2 0) rfl, decodeOfEncode (.pmul 7 4 3) rfl, decodeOfEncode (.crvset 0 1 2) rfl,
    decodeOfEncode .halt rfl⟩

end Inverse

end Sys2Proof

/-! PROOFS. The illegal words: no well-formed command has an unassigned opcode, a must-be-zero field that is not 0, a
flag selector that names no flag, or a register group beyond the register file; a word of no command raises
ILLEGAL_COMMAND (R122). -/

namespace Sys2Proof.Machine

open Sys2Proof.Laws

section Words

variable {i : Instr}

/-! ### The fields of a command's word -/

/-- The opcode of a command's word is the one of the map R119. -/
theorem opcode_encode (i : Instr) : (encode i).toNat / 2 ^ 24 = opcodeOf i := by
  cases i
  exacts [EncodesOpcode.nop, EncodesOpcode.halt, EncodesOpcode.jmp _, EncodesOpcode.bfs _ _, EncodesOpcode.bfc _ _,
    EncodesOpcode.dbnz _ _, EncodesOpcode.ali _ _, EncodesOpcode.aaddi _ _ _, EncodesOpcode.ld _ _ _,
    EncodesOpcode.st _ _ _, EncodesOpcode.badd _ _ _, EncodesOpcode.badc _ _ _, EncodesOpcode.bsub _ _ _,
    EncodesOpcode.bsbb _ _ _, EncodesOpcode.bcmp _ _, EncodesOpcode.bshr1 _ _, EncodesOpcode.bmulw _ _ _,
    EncodesOpcode.btstz _, EncodesOpcode.bmov _ _, EncodesOpcode.bldi _ _, EncodesOpcode.bcsel _ _ _ _,
    EncodesOpcode.modset _, EncodesOpcode.fadd _ _ _, EncodesOpcode.fsub _ _ _, EncodesOpcode.fneg _ _,
    EncodesOpcode.fmul _ _ _, EncodesOpcode.fsqr _ _, EncodesOpcode.finv _ _, EncodesOpcode.fsqrt _ _,
    EncodesOpcode.fexp _ _ _, EncodesOpcode.ftom _ _, EncodesOpcode.ffrm _ _, EncodesOpcode.fone _,
    EncodesOpcode.crvset _ _ _, EncodesOpcode.padd _ _ _, EncodesOpcode.pdbl _ _, EncodesOpcode.pmul _ _ _,
    EncodesOpcode.ponc _, EncodesOpcode.psgc _, EncodesOpcode.paff _ _, EncodesOpcode.peq _ _]

theorem opcodeOf_assigned (i : Instr) : unassigned (opcodeOf i) = false := by
  cases i <;> rfl

theorem branch_selector_le (hwf : i.wf) (hop : opcodeOf i ∈ [0x09, 0x0A]) : (encode i).toNat / 2 ^ 20 % 16 ≤ 8 := by
  cases i with
  | bfs sel imm | bfc sel imm =>
    have hsel := selectorError_eq_none.1 hwf
    rw [encode, toNat_assembleM]
    omega
  | _ => simp [opcodeOf] at hop

theorem bcsel_selector_le (hwf : i.wf) (hop : opcodeOf i = 0x2A) : (encode i).toNat % 16 ≤ 8 := by
  cases i with
  | bcsel rd ra rb sel =>
    have hsel := selectorError_eq_none.1 hwf
    rw [encode, toNat_assembleR]
    omega
  | _ => simp [opcodeOf] at hop

theorem pair_register_le (hwf : i.wf) (hop : opcodeOf i = 0x26) : (encode i).toNat / 2 ^ 20 % 16 ≤ 14 := by
  cases i with
  | bmulw rd ra rb =>
    have hrd := pairError_eq_none.1 hwf
    rw [encode, toNat_assembleR]
    omega
  | _ => simp [opcodeOf] at hop

theorem triple_register_le (hwf : i.wf) {lo : Nat} (hlo : lo ∈ tripleFields (opcodeOf i)) :
    (encode i).toNat / 2 ^ lo % 16 ≤ 13 := by
  cases i with
  | padd | pdbl | pmul | ponc | psgc | paff | peq =>
    have hregs := tripleError_eq_none.1 hwf
    simp only [List.forall_mem_cons] at hregs
    simp [tripleFields, opcodeOf] at hlo
    rw [encode, toNat_assembleR]
    rcases hlo with rfl | rfl | rfl <;> omega
  | _ => simp [tripleFields, opcodeOf] at hlo

/-! ### Must-be-zero fields -/

/-- A mask of `len` bits from bit `lo` on finds nothing in a number whose field there is 0. -/
theorem and_mask_eq_zero {n mask : Nat} (lo len : Nat) (hmask : mask = (2 ^ len - 1) <<< lo)
    (h : n / 2 ^ lo % 2 ^ len = 0) : n &&& mask = 0 := by
  calc n &&& mask = ((n >>> lo) &&& (2 ^ len - 1)) <<< lo := by
        refine Nat.eq_of_testBit_eq fun k => ?_
        by_cases hk : lo ≤ k <;> simp [hmask, hk, Bool.and_comm]
    _ = 0 := by rw [Nat.and_two_pow_sub_one_eq_mod, Nat.shiftRight_eq_div_pow, h, Nat.zero_shiftLeft]

/-- The same for the field 23:20 and the lowest `len` bits together. -/
theorem and_mask_top_eq_zero {n mask : Nat} (len : Nat) (hmask : mask = 0xF00000 ||| (2 ^ len - 1))
    (h : n / 2 ^ 20 % 2 ^ 4 = 0 ∧ n % 2 ^ len = 0) : n &&& mask = 0 := by
  obtain ⟨htop, hlow⟩ := h
  have hhigh : n &&& 0xF00000 = 0 := and_mask_eq_zero 20 4 rfl htop
  rw [hmask, Nat.and_or_distrib_left, hhigh, Nat.and_two_pow_sub_one_eq_mod, hlow, Nat.or_zero]

/-- The encoder writes 0 into every must-be-zero field (R120). The cases are the rows with the same fields unused. -/
theorem reservedBits_encode (i : Instr) : (encode i).toNat &&& reservedBits (opcodeOf i) = 0 := by
  cases i with
  | nop | halt =>
    exact and_mask_eq_zero 0 24 (by simp [reservedBits, opcodeOf]) (by rw [encode, toNat_assembleR]; omega)
  | jmp => exact and_mask_eq_zero 16 8 (by simp [reservedBits, opcodeOf]) (by rw [encode, toNat_assembleM]; omega)
  | bfs | bfc | dbnz =>
    exact and_mask_eq_zero 16 4 (by simp [reservedBits, opcodeOf]) (by rw [encode, toNat_assembleM]; omega)
  | ali | aaddi | ld | st | bldi => simp [reservedBits, opcodeOf]
  | badd | badc | bsub | bsbb | bmulw | fadd | fsub | fmul | fexp | padd | pmul =>
    exact and_mask_eq_zero 0 12 (by simp [reservedBits, opcodeOf]) (by rw [encode, toNat_assembleR]; omega)
  | bshr1 | bmov | fneg | fsqr | finv | fsqrt | ftom | ffrm | pdbl | paff =>
    exact and_mask_eq_zero 0 16 (by simp [reservedBits, opcodeOf]) (by rw [encode, toNat_assembleR]; omega)
  | bcmp | peq =>
    exact and_mask_top_eq_zero 12 (by simp [reservedBits, opcodeOf]) (by rw [encode, toNat_assembleR]; omega)
  | btstz | modset | ponc | psgc =>
    exact and_mask_top_eq_zero 16 (by simp [reservedBits, opcodeOf]) (by rw [encode, toNat_assembleR]; omega)
  | bcsel => exact and_mask_eq_zero 4 8 (by simp [reservedBits, opcodeOf]) (by rw [encode, toNat_assembleR]; omega)
  | fone => exact and_mask_eq_zero 0 20 (by simp [reservedBits, opcodeOf]) (by rw [encode, toNat_assembleR]; omega)
  | crvset => exact and_mask_top_eq_zero 8 (by simp [reservedBits, opcodeOf]) (by rw [encode, toNat_assembleR]; omega)

end Words

/-- A fetched word that is the word of no well-formed command raises ILLEGAL_COMMAND (R122, R123). -/
theorem step_illegal {s : State} {w : Word} (hf : s.Fetches w) (hne : ∀ i : Instr, i.wf → encode i ≠ w) :
    step s = .next (faultState s .illegalCommand w) := by
  have hm : s.mayStep = true := by simp [State.mayStep, hf.running, hf.released]
  have hfd : s.fetchDecode = .error { cause := .illegalCommand, info := w } := by
    unfold State.fetchDecode
    rw [State.fetch, if_pos hf.inRange, hf.word]
    dsimp only
    cases hd : decode w with
    | error e => rfl
    | ok i =>
      obtain ⟨hwf, he⟩ := decode_eq_ok_iff.1 hd
      exact absurd he (hne i hwf)
  rw [step_nil hf.noTurn, State.sequencerStep, if_pos hm, hfd]
  rfl

/-- Settles O4. -/
theorem unassignedOpcodes : Obligations.UnassignedOpcodes := by
  intro s w hf h
  refine step_illegal hf fun i hwf he => ?_
  have hop : w.toNat / 2 ^ 24 = opcodeOf i := he ▸ opcode_encode i
  have hassigned : unassigned (w.toNat / 2 ^ 24) = false := hop ▸ opcodeOf_assigned i
  rcases h with h | rfl | rfl | ⟨h, hsel⟩ | ⟨h, hsel⟩
  · cases hassigned.symm.trans h
  · exact absurd hassigned (by decide)
  · exact absurd hassigned (by decide)
  · have := he ▸ branch_selector_le hwf (hop ▸ h)
    omega
  · have := he ▸ bcsel_selector_le hwf (hop ▸ h)
    omega

/-- Settles O5. `reservedBits` itself is the mask. -/
theorem reservedBits_illegal : Obligations.ReservedBits := by
  intro s w hf hbits
  refine step_illegal hf fun i hwf he => hbits ?_
  rw [← he, opcode_encode]
  exact reservedBits_encode i

/-- Settles O6. -/
theorem registerGroups : Obligations.RegisterGroups := by
  refine ⟨fun s w hf h => ?_, fun rd ra rb hrd hra => decodeOfEncode _ (tripleError_eq_none.2 ?_),
    fun ra rb rc => decodeOfEncode _ rfl⟩
  · refine step_illegal hf fun i hwf he => ?_
    subst he
    rw [opcode_encode] at h
    rcases h with ⟨hop, hrd⟩ | ⟨lo, hlo, hreg⟩
    · have := pair_register_le hwf hop
      omega
    · have := triple_register_le hwf hlo
      omega
  · simp [hrd, hra]

end Sys2Proof.Machine

/-! PROOFS. The big-integer commands (`40_bigint.md`): the frame of a command built from its writes, the arithmetic of a carry
and of a borrow, and the double-width chains from the two single steps. -/

namespace Sys2Proof.Machine

/-! ### The frame of a completed command, write by write -/

/-- `t` is `s` after writes within the big registers `regs` and the flags `flags`, with the bits `sticky` added to `ERRS` and
`calls` to `MULCNT`: the frame of `Completes` before `INSTRET` and `pc` move on. -/
structure State.Writes (s t : State) (regs : List RegNum) (flags : List Flag) (sticky : BitVec 5) (calls : Nat) : Prop where
  regs : ∀ r, r ∉ regs → t.getB r = s.getB r
  flags : ∀ f, f ∉ flags → t.flag f = s.flag f
  errs : t.errs = s.errs ||| sticky
  mulcnt : t.mulcnt = s.mulcnt + BitVec.ofNat 64 calls
  rest : t = { s with b := t.b, flags := t.flags, errs := t.errs, mulcnt := t.mulcnt }

namespace State.Writes

variable {s t : State} {regs : List RegNum} {flags : List Flag} {sticky : BitVec 5} {calls : Nat}

theorem refl (s : State) (regs : List RegNum) (flags : List Flag) : s.Writes s regs flags 0 0 where
  regs _ _ := rfl
  flags _ _ := rfl
  errs := by simp
  mulcnt := by simp
  rest := rfl

theorem setB (h : s.Writes t regs flags sticky calls) {i : RegNum} (hi : i ∈ regs) (v : Nat) :
    s.Writes (t.setB i v) regs flags sticky calls where
  regs r hr := by rw [State.getB_setB, if_neg (ne_of_mem_of_not_mem hi hr).symm, h.regs r hr]
  flags := h.flags
  errs := h.errs
  mulcnt := h.mulcnt
  rest := by rw [h.rest]; rfl

/-- The write of a flag that has no sticky bit (R31). -/
theorem setFlag (h : s.Writes t regs flags sticky calls) {f : Flag} (hf : f ∈ flags) (hsticky : f.sticky = 0) (v : Bool) :
    s.Writes (t.setFlag f v) regs flags sticky calls where
  regs := h.regs
  flags g hg := by rw [State.flag_setFlag, if_neg (ne_of_mem_of_not_mem hf hg).symm, h.flags g hg]
  errs := by rw [State.setFlag_errs, hsticky, ← h.errs]; simp
  mulcnt := h.mulcnt
  rest := by rw [h.rest]; rfl

theorem setCarryZero (h : s.Writes t regs [.cy, .z] sticky calls) (carry : Bool) (v : Nat) :
    s.Writes (t.setCarryZero carry v) regs [.cy, .z] sticky calls :=
  (h.setFlag (by simp) rfl carry).setFlag (by simp) rfl (v == 0)

/-- The end of the command completes the frame (R27, R40). -/
theorem complete (h : s.Writes t regs flags sticky calls) : Completes s t.complete regs flags sticky calls (s.pc + 1) :=
  .of_rest h.regs h.flags h.errs h.mulcnt (by rw [h.rest]; rfl) (by rw [h.rest]; rfl) (by rw [h.rest]; rfl)

end State.Writes

/-- No command that completes touches the parameters (R7). -/
theorem Completes.params {s t : State} {regs : List RegNum} {flags : List Flag} {sticky : BitVec 5} {calls : Nat}
    {next : CmdIndex} (h : Completes s t regs flags sticky calls next) : t.params = s.params := by rw [h.rest]

/-! ### `CY` and `Z` of an addition, a subtraction or a shift -/

section CarryZero

variable (s : State) (carry : Bool) (v : Nat)

@[simp] theorem State.getB_setCarryZero (i : RegNum) : (s.setCarryZero carry v).getB i = s.getB i := rfl

@[simp] theorem State.flag_cy_setCarryZero : (s.setCarryZero carry v).flag .cy = carry := by
  simp [State.setCarryZero, State.flag_setFlag]

@[simp] theorem State.flag_z_setCarryZero : (s.setCarryZero carry v).flag .z = decide (v = 0) := by
  simp [State.setCarryZero, beq_eq_decide]

end CarryZero

/-- A sum below twice the modulus is its residue plus the lost bit. -/
theorem mod_add_mul_carry {r t : Nat} (h : t < 2 * r) : t % r + r * (decide (r ≤ t)).toNat = t := by
  by_cases hr : r ≤ t
  · rw [Nat.mod_eq_sub_mod hr, Nat.mod_eq_of_lt (by omega), decide_eq_true hr, Bool.toNat_true]
    omega
  · rw [Nat.mod_eq_of_lt (by omega), decide_eq_false hr, Bool.toNat_false]
    omega

/-- A difference of at least minus the modulus is its residue less the modulus when it is negative. -/
theorem emod_eq_add_mul_borrow {r t : Int} (hlow : -r ≤ t) (hhigh : t < r) :
    t % r = t + r * (decide (t < 0)).toNat := by
  by_cases ht : t < 0
  · rw [← Int.add_emod_right, Int.emod_eq_of_lt (by omega) (by omega), decide_eq_true ht]
    simp
  · rw [Int.emod_eq_of_lt (by omega) hhigh, decide_eq_false ht]
    simp

/-- A number is twice its half plus the bit that the shift loses. -/
theorem two_mul_half_add_bit (v : Nat) : 2 * (v / 2) + (decide (v % 2 = 1)).toNat = v := by
  rcases Nat.mod_two_eq_zero_or_one v with h | h <;> simp [h] <;> omega

/-! ### The commands, each as what its datapath leaves -/

section AddSub

variable (s : State) (rd ra rb : RegNum) (c : Bool)

theorem State.addBig_writes : s.Writes (s.addBig rd ra rb c) [rd] [.cy, .z] 0 0 :=
  ((State.Writes.refl s _ _).setB (by simp) _).setCarryZero _ _

theorem State.subBig_writes : s.Writes (s.subBig rd ra rb c) [rd] [.cy, .z] 0 0 :=
  ((State.Writes.refl s _ _).setB (by simp) _).setCarryZero _ _

/-- The register and the lost bit of an addition are the whole sum (R140). -/
theorem State.addBig_sum :
    (s.addBig rd ra rb c).getB rd + s.radix * ((s.addBig rd ra rb c).flag .cy).toNat =
      s.getB ra + s.getB rb + c.toNat := by
  have ha := s.getB_lt ra
  have hb := s.getB_lt rb
  have hc := c.toNat_le
  simp only [State.addBig, State.getB_setCarryZero, State.getB_setB_same, State.flag_cy_setCarryZero, Nat.mod_mod]
  exact mod_add_mul_carry (by omega)

theorem State.addBig_zero : (s.addBig rd ra rb c).flag .z = decide ((s.addBig rd ra rb c).getB rd = 0) := by
  simp [State.addBig]

/-- The borrow of a subtraction (R140). -/
theorem State.subBig_borrow :
    (s.subBig rd ra rb c).flag .cy = decide (s.getB ra < s.getB rb + c.toNat) := by
  rw [State.subBig, State.flag_cy_setCarryZero, decide_eq_decide]
  omega

/-- The register of a subtraction is the difference, with the borrow added (R140). -/
theorem State.subBig_difference :
    ((s.subBig rd ra rb c).getB rd : Int) =
      s.getB ra - s.getB rb - c.toNat + s.radix * ((s.subBig rd ra rb c).flag .cy).toNat := by
  have ha := s.getB_lt ra
  have hb := s.getB_lt rb
  have hc := c.toNat_le
  have hr : (0 : Int) < s.radix := Int.natCast_pos.2 s.radix_pos
  simp only [State.subBig, State.getB_setCarryZero, State.getB_setB_same, State.flag_cy_setCarryZero]
  rw [Int.natCast_emod, Int.toNat_of_nonneg (Int.emod_nonneg _ hr.ne'), Int.emod_emod,
    emod_eq_add_mul_borrow (by omega) (by omega)]

theorem State.subBig_zero : (s.subBig rd ra rb c).flag .z = decide ((s.subBig rd ra rb c).getB rd = 0) := by
  have hr : (0 : Int) < s.radix := Int.natCast_pos.2 s.radix_pos
  have hlt : ((s.getB ra - s.getB rb - c.toNat : Int) % s.radix).toNat < s.radix := by
    have := Int.emod_lt_of_pos (s.getB ra - s.getB rb - c.toNat : Int) hr
    omega
  simp only [State.subBig, State.getB_setCarryZero, State.getB_setB_same, State.flag_z_setCarryZero,
    Nat.mod_eq_of_lt hlt]

end AddSub

/-- Settles O20: `BADD` and `BADC` are one adder, with the carry in 0 or `CY`. -/
theorem addition : Obligations.Addition := by
  intro s rd ra rb i c h
  have hexec : exec i s = .next (s.addBig rd ra rb c).complete := by
    rcases h with ⟨rfl, rfl⟩ | ⟨rfl, rfl⟩ <;> rfl
  exact ⟨_, hexec, (s.addBig_writes rd ra rb c).complete, (s.addBig rd ra rb c).getB_lt rd,
    s.addBig_sum rd ra rb c, s.addBig_zero rd ra rb c⟩

/-- Settles O21: `BSUB` and `BSBB` are one subtractor, with the borrow in 0 or `CY`. -/
theorem subtraction : Obligations.Subtraction := by
  intro s rd ra rb i c h
  have hexec : exec i s = .next (s.subBig rd ra rb c).complete := by
    rcases h with ⟨rfl, rfl⟩ | ⟨rfl, rfl⟩ <;> rfl
  refine ⟨_, hexec, (s.subBig_writes rd ra rb c).complete, (s.subBig rd ra rb c).getB_lt rd, ?_,
    s.subBig_borrow rd ra rb c, s.subBig_zero rd ra rb c⟩
  simpa [State.radix_eq] using s.subBig_difference rd ra rb c

/-- Settles O22. -/
theorem compareTestShift : Obligations.CompareTestShift := by
  intro s rd ra rb
  have start := State.Writes.refl s
  have hhalf : s.getB ra / 2 % s.radix = s.getB ra / 2 :=
    Nat.mod_eq_of_lt ((Nat.div_le_self _ _).trans_lt (s.getB_lt ra))
  refine ⟨⟨_, rfl, ((start _ _).setFlag (by simp) rfl _).setFlag (by simp) rfl _ |>.complete, ?_, ?_⟩,
    ⟨_, rfl, ((start _ _).setFlag (by simp) rfl _).complete, ?_⟩,
    ⟨_, rfl, (((start _ _).setB (by simp) _).setCarryZero _ _).complete, ?_, ?_⟩⟩
  · simp [State.flag_setFlag]
  · simp [beq_eq_decide]
  · simp [beq_eq_decide]
  · simpa [hhalf, beq_eq_decide] using two_mul_half_add_bit (s.getB ra)
  · simp [hhalf]

/-- `BMULW` on a legal pair completes: the low half, then the high half (R147). -/
theorem exec_bmulw (s : State) {rd ra rb : RegNum} (hrd : rd.val ≤ 14) :
    exec (.bmulw rd ra rb) s =
      .next ((s.setB rd (s.getB ra * s.getB rb % s.radix)).setB (rd + 1) (s.getB ra * s.getB rb / s.radix)).complete :=
  exec_completes (i := .bmulw rd ra rb) (illegalFields_none (pairError_eq_none.2 hrd))

/-- Settles O23. -/
theorem wideProduct : Obligations.WideProduct := by
  intro s rd ra rb hrd
  refine ⟨_, exec_bmulw s hrd, (((State.Writes.refl s _ _).setB (by simp) _).setB (by simp) _).complete,
    State.getB_lt _ rd, ?_⟩
  have hne : rd ≠ rd + 1 := by simp
  have hhigh : s.getB ra * s.getB rb / s.radix < s.radix :=
    Nat.div_lt_of_lt_mul (Nat.mul_lt_mul'' (s.getB_lt ra) (s.getB_lt rb))
  rw [← s.radix_eq]
  simp only [State.complete_eq, State.getB_completeAt, State.getB_setB, State.setB_radix, if_pos, if_neg hne,
    Nat.mod_mod, Nat.mod_eq_of_lt hhigh]
  exact Nat.mod_add_div _ _

/-- `BCSEL` by the selector of a flag completes: the flag selects the source (R118, R151). -/
theorem exec_bcsel (s : State) (rd ra rb : RegNum) {f : Flag} {sel : FlagSel} (h : (f, sel.val) ∈ flagSelectors) :
    exec (.bcsel rd ra rb sel) s = .next (s.setB rd (if s.flag f then s.getB ra else s.getB rb)).complete := by
  rw [exec_completes (i := .bcsel rd ra rb sel) (illegalFields_none (selectorError_of_flag h)), commandDone,
    State.flagAt_eq_flag h]

/-- Settles O24. -/
theorem moveImmediateSelect : Obligations.MoveImmediateSelect := by
  intro s rd ra rb
  have hframe (v : Nat) : Completes s (s.setB rd v).complete [rd] [] 0 0 (s.pc + 1) :=
    ((State.Writes.refl s _ _).setB (by simp) v).complete
  have hvalue {v : Nat} (hv : v < s.radix) : (s.setB rd v).complete.getB rd = v := by
    rw [State.complete_eq, State.getB_completeAt, State.getB_setB_same, Nat.mod_eq_of_lt hv]
  refine ⟨⟨_, rfl, hframe _, hvalue (s.getB_lt ra)⟩, fun imm hn => ⟨_, rfl, hframe _, hvalue ?_⟩, fun f sel hsel => ?_⟩
  · calc imm.toNat < 2 ^ 20 := imm.isLt
      _ ≤ s.radix := Nat.pow_le_pow_right (by norm_num) (by rw [Config.Params.xlen]; omega)
  · exact ⟨_, exec_bcsel s rd ra rb hsel, hframe _, hvalue (by split_ifs <;> exact s.getB_lt _)⟩

/-! ### The double-width chains -/

/-- Settles O25: the low step leaves the high sources alone and hands its carry or borrow to the high step. -/
theorem doubleWidthChains : Obligations.DoubleWidthChains := by
  intro s lo hi a0 a1 b0 b1 hlohi hloa hlob
  have frames {t u : State} (ht : Completes s t [lo] [.cy, .z] 0 0 (s.pc + 1))
      (hu : Completes t u [hi] [.cy, .z] 0 0 (t.pc + 1)) :
      u.getB lo = t.getB lo ∧ t.getB a1 = s.getB a1 ∧ t.getB b1 = s.getB b1 ∧ t.params = s.params :=
    ⟨hu.regs lo (by simpa using hlohi), ht.regs a1 (by simpa using hloa.symm), ht.regs b1 (by simpa using hlob.symm),
      ht.params⟩
  constructor
  · obtain ⟨t, hexec, ht, -, hlow, -⟩ := addition s lo a0 b0 _ false (.inl ⟨rfl, rfl⟩)
    obtain ⟨u, hexec', hu, -, hhigh, -⟩ := addition t hi a1 b1 _ _ (.inr ⟨rfl, rfl⟩)
    obtain ⟨hlo, ha, hb, hparams⟩ := frames ht hu
    rw [ha, hb, hparams] at hhigh
    rw [Bool.toNat_false] at hlow
    refine ⟨t, u, hexec, hexec', ?_⟩
    rw [hlo, s.radix_eq]
    linear_combination hlow + 2 ^ (64 * s.params.n) * hhigh
  · obtain ⟨t, hexec, ht, -, hlow, -⟩ := subtraction s lo a0 b0 _ false (.inl ⟨rfl, rfl⟩)
    obtain ⟨u, hexec', hu, -, hhigh, -⟩ := subtraction t hi a1 b1 _ _ (.inr ⟨rfl, rfl⟩)
    obtain ⟨hlo, ha, hb, hparams⟩ := frames ht hu
    rw [ha, hb, hparams] at hhigh
    rw [Bool.toNat_false] at hlow
    refine ⟨t, u, hexec, hexec', ?_⟩
    rw [hlo, s.radix_eq]
    push_cast
    linear_combination hlow + 2 ^ (64 * s.params.n) * hhigh

end Sys2Proof.Machine

/-! PROOFS. The faults of the field and curve commands (`41_field.md` R170 to R172, `42_curve.md` R209): the checks of every
command that needs a modulus are one list of three, and a command that passes them completes. -/

namespace Sys2Proof.Machine

section Checks

variable {i : Instr} {s : State}

/-- What a command that needs a modulus asks between `MODV` and its operands: a curve (R209), for `FSQRT` a modulus that is
3 modulo 4 (R184), else nothing. -/
def State.contextCheck (s : State) (i : Instr) : Option Trap :=
  if needsCurve i then s.noCurve
  else match i with
    | .fsqrt _ _ => if s.mod % 4 ≠ 3 then some { cause := .sqrtModulus, info := 0 } else none
    | _ => none

/-- A list of one check is that check. -/
@[simp] theorem firstTrap_singleton (o : Option Trap) : firstTrap [o] = o := by
  cases o <;> rfl

/-- A check that passes can be left out. -/
theorem firstTrap_skip (o : Option Trap) (rest : List (Option Trap)) :
    firstTrap (o :: none :: rest) = firstTrap (o :: rest) := by
  cases o <;> rfl

/-- The checks of a legal command that needs a modulus, in their order (R170, R184, R209, R288). -/
theorem commandChecks_of_needsModulus (hwf : i.wf) (hneeds : needsModulus i = true) :
    commandChecks i s = firstTrap [s.noModulus, s.contextCheck i, s.operandRange (storedRegs i)] := by
  have hfields (rest : List (Option Trap)) : firstTrap (illegalFields i :: rest) = firstTrap rest := by
    rw [illegalFields_none hwf, firstTrap_none]
  cases i with
  | padd | pdbl | pmul | ponc | psgc | paff | peq => exact hfields _
  | fsqrt => rfl
  | fadd | fsub | fneg | fmul | fsqr | finv | fexp | ftom | ffrm | fone | crvset => exact (firstTrap_skip _ _).symm
  | nop | halt | jmp | bfs | bfc | dbnz | ali | aaddi | ld | st | badd | badc | bsub | bsbb | bcmp | bshr1 | bmulw | btstz
  | bmov | bldi | bcsel | modset => exact absurd hneeds nofun

theorem needsModulus_of_needsCurve (h : needsCurve i = true) : needsModulus i = true := by
  simp [needsModulus, h]

theorem State.contextCheck_of_needsCurve (h : needsCurve i = true) : s.contextCheck i = s.noCurve := if_pos h

/-- Over a loaded curve, or a modulus that `FSQRT` accepts, only the operands are left to check. -/
theorem State.contextCheck_eq_none (hcurve : needsCurve i = true → s.crvv = true)
    (hsqrt : ∀ rd ra, i = .fsqrt rd ra → s.mod % 4 = 3) : s.contextCheck i = none := by
  have hloaded (h : needsCurve i = true) : s.contextCheck i = none := by
    rw [State.contextCheck_of_needsCurve h, State.noCurve, if_pos (hcurve h)]
  cases i with
  | padd | pdbl | pmul | ponc | psgc | paff | peq => exact hloaded rfl
  | fsqrt rd ra => exact if_neg (not_not_intro (hsqrt rd ra rfl))
  | _ => rfl

theorem instret_commandDone (i : Instr) (s : State) : (commandDone i s).instret = s.instret + 1 := by
  cases i with
  | finv => simp only [commandDone, State.completeFinv]; split_ifs <;> rfl
  | fsqrt => simp only [commandDone, State.completeFsqrt]; split_ifs <;> rfl
  | ftom => simp only [commandDone, State.completeFtom]; split_ifs <;> rfl
  | _ => rfl

theorem cause_commandDone (i : Instr) (s : State) : (commandDone i s).cause = s.cause := by
  rcases commandDone_cases i s with hc | ⟨rfl, e⟩ | ⟨_, _, _, _, e⟩ | ⟨_, _, e⟩ | ⟨_, _, _, _, e⟩
  · rw [hc.rest]
  all_goals rw [e]; rfl

end Checks

/-- Settles O10: the fault is the first of the three checks that does not pass. -/
theorem missingContext : Obligations.MissingContext := by
  intro i s hwf
  refine ⟨fun hneeds hmodv => ?_, fun hneeds hmodv hcrvv => ?_, fun rd ra hi hmodv hmod => ?_⟩
  · refine exec_faults (trap := ⟨.noModulus, 0⟩) ?_
    rw [commandChecks_of_needsModulus hwf hneeds]
    simp [State.noModulus, hmodv]
  · refine exec_faults (trap := ⟨.noCurve, 0⟩) ?_
    rw [commandChecks_of_needsModulus hwf (needsModulus_of_needsCurve hneeds), State.noModulus_eq_none.2 hmodv,
      State.contextCheck_of_needsCurve hneeds]
    simp [State.noCurve, hcrvv]
  · subst hi
    refine exec_faults (trap := ⟨.sqrtModulus, 0⟩) ?_
    rw [commandChecks_of_needsModulus hwf rfl, State.noModulus_eq_none.2 hmodv]
    simp [State.contextCheck, needsCurve, hmod]

/-- Settles O12: with the context in place the operand range is the one check left. -/
theorem operandRange : Obligations.OperandRange := by
  intro i s hwf hneeds hmodv hcurve hsqrt
  have hchecks : commandChecks i s = s.operandRange (storedRegs i) := by
    rw [commandChecks_of_needsModulus hwf hneeds, State.noModulus_eq_none.2 hmodv,
      State.contextCheck_eq_none hcurve hsqrt, firstTrap_none, firstTrap_none, firstTrap_singleton]
  refine ⟨fun before r after hregs hbefore hr => ?_, fun hstored => ?_⟩
  · exact exec_faults (hchecks.trans (hregs ▸ s.operandRange_first hbefore hr))
  · have hrun : (commandDone i s).run = s.run := by
      rcases run_commandDone i s with e | ⟨rfl, -⟩
      · exact e
      · exact absurd hneeds nofun
    exact ⟨_, exec_completes (hchecks.trans (s.operandRange_eq_none.2 hstored)), instret_commandDone i s, hrun,
      cause_commandDone i s⟩

/-- Settles O11. -/
theorem modsetFaults : Obligations.ModsetFaults := by
  intro s ra
  refine ⟨fun hmodv => exec_faults (trap := ⟨.modulusLocked, 0⟩) ?_, fun hmodv hvalue =>
    exec_faults (trap := ⟨.badModulus, BitVec.ofNat 32 ra.val⟩) ?_⟩
  · simp [commandChecks, State.modsetChecks, hmodv]
  · simp [commandChecks, State.modsetChecks, hmodv, hvalue]

end Sys2Proof.Machine

/-! PROOFS. The field datapaths (`41_field.md` R171, R174, R175, R189, R190): the constants that `MODSET` derives, the one
integer that the multiplier delivers, and the laws of the field on stored values. -/

namespace Sys2Proof.Machine

/-! ### `MODSET` -/

/-- At most one number below 2^64 has the property of `INV` (R33). -/
theorem negInverse_unique {v x y : Nat} (hodd : v % 2 = 1) (hx : x < 2 ^ 64) (hy : y < 2 ^ 64)
    (h : (v * x) % 2 ^ 64 = (v * y) % 2 ^ 64) : x = y := by
  have hcoprime : Nat.gcd (2 ^ 64) v = 1 := Nat.Coprime.pow_left _ (Nat.coprime_two_left.2 (Nat.odd_iff.2 hodd))
  exact (Nat.ModEq.cancel_left_of_coprime hcoprime h).eq_of_lt_of_lt hx hy

/-- `MODSET` of an odd value from 3 on, below 2^XLEN, latches a context as R32 to R35 describe it. -/
theorem State.fieldReady_latchModulus (s : State) {v : Nat} (hodd : v % 2 = 1) (hlow : 3 ≤ v) (hup : v < s.radix) :
    (s.latchModulus v).FieldReady where
  latched := rfl
  odd := hodd
  lower := hlow
  upper := hup
  inv := by
    rw [State.latchModulus_mod, State.latchModulus_inv, BitVec.toNat_ofNat, Nat.mul_mod, Nat.mod_mod, ← Nat.mul_mod,
      negInverse_spec hodd]
  rone := rfl
  rsq := rfl

theorem State.radix_mul_radix (s : State) : s.radix * s.radix = 2 ^ (2 * (64 * s.params.n)) := by
  rw [State.radix_eq, ← pow_add, ← two_mul]

/-- Settles O26. -/
theorem modsetLatches : Obligations.ModsetLatches := by
  intro s ra hmodv hodd hlow
  have hready := s.fieldReady_latchModulus hodd hlow (s.getB_lt ra)
  refine ⟨_, exec_completes (State.modsetChecks_eq_none.2 ⟨hmodv, hodd, hlow⟩), { hready with }, ?_, fun x hx h => ?_⟩
  · rw [← s.radix_mul_radix, ← s.radix_eq]
    rfl
  · exact negInverse_unique hodd hx (BitVec.isLt _) (h.trans hready.inv.symm)

/-! ### Powers over a prime modulus -/

section Prime

variable {p : Nat} (hp : p.Prime)
include hp

/-- Fermat: the power p − 2 is the inverse (R190). -/
theorem mul_pow_sub_two {x : ZMod p} (hx : x ≠ 0) : x * x ^ (p - 2) = 1 := by
  have : Fact p.Prime := ⟨hp⟩
  have hexp : p - 2 + 1 = p - 1 := by have := hp.two_le; omega
  rw [← pow_succ', hexp, ZMod.pow_card_sub_one_eq_one hx]

/-- When p is 3 modulo 4, the power (p + 1)/4 is a root exactly of the squares (R184, R190). -/
theorem pow_quarter_sq_iff (hmod : p % 4 = 3) (x : ZMod p) : (x ^ ((p + 1) / 4)) ^ 2 = x ↔ IsSquare x := by
  have : Fact p.Prime := ⟨hp⟩
  constructor
  · exact fun hroot => ⟨_, hroot.symm.trans (pow_two _)⟩
  · rintro ⟨y, rfl⟩
    have hexp : 2 * ((p + 1) / 4 * 2) = p + 1 := by omega
    rw [← pow_two, ← pow_mul, ← pow_mul, hexp, pow_succ, ZMod.pow_card, pow_two]

end Prime

namespace State.FieldReady

variable {s : State} (h : s.FieldReady)
include h

/-! ### The multiplier -/

/-- The stored value of an integer, computed as R23 defines it. -/
theorem val_stored (x : Nat) : s.Val (x * s.radix % s.mod) x :=
  ⟨Nat.mod_lt _ h.pos, by rw [h.trueValue_eq_iff, ZMod.natCast_mod, Nat.cast_mul]⟩

/-- A number is congruent to a·b·R⁻¹ exactly when its true value is the product of the true values. -/
theorem mul_radix_modEq_iff {v a b : Nat} :
    v * s.radix ≡ a * b [MOD s.mod] ↔ s.trueValue v = s.trueValue a * s.trueValue b := by
  have hunit : IsUnit (s.radix : ZMod s.mod) := IsUnit.of_mul_eq_one _ h.radix_mul_inv
  have hab : (a : ZMod s.mod) * b = s.trueValue a * s.trueValue b * s.radix * s.radix := by
    rw [← h.trueValue_mul_radix a, ← h.trueValue_mul_radix b]
    ring
  rw [← ZMod.natCast_eq_natCast_iff, Nat.cast_mul, Nat.cast_mul, hab, hunit.mul_left_inj, h.trueValue_eq_iff]

/-- Two stored values are equal when they stand for one element (R189). -/
theorem eq_of_val {a b : Nat} {x : ZMod s.mod} (ha : s.Val a x) (hb : s.Val b x) : a = b := (h.val_inj ha hb).2 rfl

/-! ### The exponentiation engine -/

theorem val_expCore {a e : Nat} {x : ZMod s.mod} (ha : s.Val a x) (he : e < s.radix) :
    s.Val (expCore s.ctx a e).val (x ^ e) := by
  obtain ⟨hlt, hvalue⟩ := h.expCore_spec ha.below he
  exact ⟨hlt, by rw [hvalue, ha.value]⟩

end State.FieldReady

/-- Settles O27. -/
theorem montgomeryProduct : Obligations.MontgomeryProduct := by
  intro s h a b
  simp only [← s.radix_eq]
  refine ⟨fun ha hb => ?_, ?_, rfl, rfl⟩
  · have hmul := h.val_mont ⟨ha, rfl⟩ ⟨hb, rfl⟩
    exact ⟨hmul.below, h.mul_radix_modEq_iff.2 hmul.value,
      fun v hv hmod => h.eq_of_val ⟨hv, h.mul_radix_modEq_iff.1 hmod⟩ hmul⟩
  · have hstored := h.val_stored (a * b)
    rw [Nat.cast_mul] at hstored
    exact h.eq_of_val (h.val_mont (h.val_stored a) (h.val_stored b)) hstored

/-- Settles O28. -/
theorem exponentiationEngine : Obligations.ExponentiationEngine := by
  intro s h a e ha he
  have hpow := h.val_expCore ⟨ha, rfl⟩ he
  refine ⟨hpow.below, hpow.value, ?_, expCore_calls _ _ _⟩
  rintro rfl
  rw [pow_zero] at hpow
  exact h.eq_of_val hpow h.val_rone

/-- Settles O35: each law holds of the true values, and a stored value is known by its true value. -/
theorem fieldLaws : Obligations.FieldLaws := by
  intro s h a ha b hb c hc
  have va : s.Val a (s.trueValue a) := ⟨ha, rfl⟩
  have vb : s.Val b (s.trueValue b) := ⟨hb, rfl⟩
  have vc : s.Val c (s.trueValue c) := ⟨hc, rfl⟩
  have hlower := h.lower
  have hupper := h.upper
  refine ⟨h.trueValue_inj ha hb, ?_, ?_, ?_, ?_, ?_, fun hp hne => ?_⟩
  · exact (h.val_inj (h.val_fadd (h.val_fadd va vb) vc) (h.val_fadd va (h.val_fadd vb vc))).2 (add_assoc _ _ _)
  · exact (h.val_inj (h.val_fadd va vb) (h.val_fadd vb va)).2 (add_comm _ _)
  · exact (h.val_inj (h.val_mont (h.val_mont va vb) vc) (h.val_mont va (h.val_mont vb vc))).2 (mul_assoc _ _ _)
  · exact (h.val_inj (h.val_mont va vb) (h.val_mont vb va)).2 (mul_comm _ _)
  · exact (h.val_inj (h.val_mont va (h.val_fadd vb vc)) (h.val_fadd (h.val_mont va vb) (h.val_mont va vc))).2
      (mul_add _ _ _)
  · have hpow := h.val_expCore va (e := s.mod - 2) (by omega)
    exact (h.val_inj (h.val_mont va hpow) h.val_rone).2
      (mul_pow_sub_two hp ((h.trueValue_eq_zero ha).not.2 hne))

end Sys2Proof.Machine

/-! PROOFS. The field commands (`41_field.md` R177 to R188): a command over stored operands passes its checks, and what it
writes is the stored value that its datapath made, with `Z` and the count. -/

namespace Sys2Proof.Machine

/-! ### Writes of a reported condition and the count of calls -/

namespace State.Writes

variable {s t : State} {regs : List RegNum} {flags : List Flag} {sticky : BitVec 5} {calls : Nat}

theorem radix (h : s.Writes t regs flags sticky calls) : t.radix = s.radix := by
  rw [h.rest]
  rfl

/-- A condition that is absent clears its flag and leaves `ERRS` alone (R31). -/
theorem clearFlag (h : s.Writes t regs flags sticky calls) {f : Flag} (hf : f ∈ flags) :
    s.Writes (t.setFlag f false) regs flags sticky calls where
  regs := h.regs
  flags g hg := by rw [State.flag_setFlag, if_neg (ne_of_mem_of_not_mem hf hg).symm, h.flags g hg]
  errs := h.errs
  mulcnt := h.mulcnt
  rest := by rw [h.rest]; rfl

/-- A condition that is reported sets its flag and its sticky bit (R31). -/
theorem raiseFlag (h : s.Writes t regs flags 0 calls) {f : Flag} (hf : f ∈ flags) :
    s.Writes (t.setFlag f true) regs flags f.sticky calls where
  regs := h.regs
  flags g hg := by rw [State.flag_setFlag, if_neg (ne_of_mem_of_not_mem hf hg).symm, h.flags g hg]
  errs := by rw [State.setFlag_errs, if_pos rfl, h.errs]; simp
  mulcnt := h.mulcnt
  rest := by rw [h.rest]; rfl

theorem putField (h : s.Writes t regs flags sticky calls) {rd : RegNum} (hrd : rd ∈ regs) (hz : .z ∈ flags) (v : Nat) :
    s.Writes (t.putField rd v) regs flags sticky calls :=
  (h.setB hrd v).setFlag hz rfl _

/-- The calls of a command are counted once, at its end (R40). -/
theorem addMul (h : s.Writes t regs flags sticky 0) (k : Nat) : s.Writes (t.addMul k) regs flags sticky k where
  regs := h.regs
  flags := h.flags
  errs := h.errs
  mulcnt := by rw [State.addMul_mulcnt, h.mulcnt]; simp
  rest := by rw [h.rest]; rfl

end State.Writes

/-! ### What a completed field command holds -/

section Result

variable {s t : State} {rd : RegNum} {flags : List Flag}

@[simp] theorem State.getB_completeField (s : State) (rd : RegNum) (r : Counted Nat) :
    (s.completeField rd r).getB rd = r.val % s.radix := by
  simp [State.completeField, State.putField]

theorem State.flag_completeField (s : State) (rd : RegNum) (r : Counted Nat) (f : Flag) :
    (s.completeField rd r).flag f = if f = .z then decide (r.val = 0) else s.flag f := by
  simp [State.completeField, State.putField, State.flag_setFlag, beq_eq_decide]

theorem State.Writes.completeField (h : s.Writes t [rd] flags 0 0) (hz : .z ∈ flags) (r : Counted Nat) :
    Completes s (t.completeField rd r) [rd] flags 0 r.calls (s.pc + 1) :=
  ((h.putField (by simp) hz r.val).addMul r.calls).complete

/-- A command whose datapath made the stored value of `x` has this result (R177). -/
theorem State.FieldReady.fieldResult {x : ZMod s.mod} (h : s.FieldReady) (ht : s.Writes t [rd] flags 0 0)
    (hz : .z ∈ flags) {r : Counted Nat} (hr : s.Val r.val x) :
    FieldResult s (t.completeField rd r) rd flags x r.calls := by
  have hvalue : (t.completeField rd r).getB rd = r.val := by
    rw [State.getB_completeField, ht.radix, Nat.mod_eq_of_lt (hr.below.trans h.upper)]
  refine ⟨ht.completeField hz r, ?_, ?_, ?_⟩
  · rw [hvalue]
    exact hr.below
  · rw [hvalue, hr.value]
  · rw [hvalue, State.flag_completeField, if_pos rfl]

end Result

namespace State.FieldReady

variable {s : State} (h : s.FieldReady)
include h

/-- A field command over stored operands passes its checks (R170, R172). -/
theorem exec_of_stored {i : Instr} {regs : List RegNum} (hi : commandChecks i s = s.fieldChecks regs)
    (hregs : s.Stored regs) : exec i s = .next (commandDone i s) :=
  exec_completes (hi.trans (State.fieldChecks_eq_none.2 ⟨h.latched, hregs⟩))

theorem fsqrtChecks_eq_none {ra : RegNum} (hra : s.Stored [ra]) (hmod : s.mod % 4 = 3) : s.fsqrtChecks ra = none := by
  simp [State.fsqrtChecks, State.noModulus_eq_none.2 h.latched, hmod, s.operandRange_eq_none.2 hra]

end State.FieldReady

theorem State.Stored.val {s : State} {ra : RegNum} (h : s.Stored [ra]) : s.Val (s.getB ra) (s.elem ra) :=
  ⟨h ra (by simp), rfl⟩

theorem State.Stored.pair {s : State} {ra rb : RegNum} (ha : s.Stored [ra]) (hb : s.Stored [rb]) : s.Stored [ra, rb] :=
  List.forall_mem_cons.2 ⟨ha.val.below, hb⟩

/-! ### The commands -/

/-- Settles O29. -/
theorem fieldAddSubNeg : Obligations.FieldAddSubNeg := by
  intro s rd ra rb h ha
  have start := State.Writes.refl s [rd] [.z]
  refine ⟨fun hb => ⟨_, h.exec_of_stored rfl (ha.pair hb), ?_⟩, fun hb => ⟨_, h.exec_of_stored rfl (ha.pair hb), ?_⟩,
    _, h.exec_of_stored rfl ha, ?_⟩
  · exact h.fieldResult start (by simp) (r := .ret _) (h.val_fadd ha.val hb.val)
  · exact h.fieldResult start (by simp) (r := .ret _) (h.val_fsub ha.val hb.val)
  · exact h.fieldResult start (by simp) (r := .ret _) ⟨h.fneg_below _, h.trueValue_fneg ha.val.below⟩

/-- Settles O30. -/
theorem fieldProductsPowers : Obligations.FieldProductsPowers := by
  intro s rd ra rb h ha
  have start := State.Writes.refl s [rd] [.z]
  refine ⟨fun hb => ⟨_, h.exec_of_stored rfl (ha.pair hb), ?_⟩, ⟨_, h.exec_of_stored rfl ha, ?_⟩,
    _, h.exec_of_stored rfl ha, ?_⟩
  · exact h.fieldResult start (by simp) (h.val_mont ha.val hb.val)
  · rw [pow_two]
    exact h.fieldResult start (by simp) (h.val_mont ha.val ha.val)
  · exact expCore_calls s.ctx _ _ ▸ h.fieldResult start (by simp) (h.val_expCore ha.val (s.getB_lt rb))

/-! ### The commands that report a condition -/

section Reports

variable (s : State) (rd : RegNum)

/-- A command that only reports a condition: its flag, its sticky bit and the count (R31). -/
theorem State.report_completes (f : Flag) (calls : Nat) :
    Completes s ((s.setFlag f true).addMul calls).complete [] [f] f.sticky calls (s.pc + 1) :=
  (((State.Writes.refl s [] [f]).raiseFlag (by simp)).addMul calls).complete

theorem State.completeFinv_of_ne {x : Nat} (hx : x ≠ 0) (r : Counted Nat) :
    s.completeFinv rd x r = (s.setFlag .ninv false).completeField rd r := by
  rw [State.completeFinv, if_neg hx]
  rfl

theorem State.completeFinv_zero (r : Counted Nat) :
    s.completeFinv rd 0 r = ((s.setFlag .ninv true).addMul r.calls).complete := rfl

theorem State.completeFsqrt_of_eq {x : Nat} {r : Counted (Nat × Nat)} (hx : r.val.2 = x) :
    s.completeFsqrt rd x r = (s.setFlag .nsqr false).completeField rd (r.map Prod.fst) := by
  rw [State.completeFsqrt, if_pos hx]
  rfl

theorem State.completeFsqrt_of_ne {x : Nat} {r : Counted (Nat × Nat)} (hx : r.val.2 ≠ x) :
    s.completeFsqrt rd x r = ((s.setFlag .nsqr true).addMul r.calls).complete := by
  rw [State.completeFsqrt, if_neg hx]

theorem State.completeFtom_of_lt {x : Nat} (hx : x < s.mod) :
    s.completeFtom rd x = (s.setFlag .rng false).completeField rd (mont s.ctx x s.rsq) :=
  if_neg (Nat.not_le.2 hx)

theorem State.completeFtom_of_le {x : Nat} (hx : s.mod ≤ x) : s.completeFtom rd x = (s.setFlag .rng true).complete :=
  if_pos hx

end Reports

/-- The candidate root and its square as stored values (R184). -/
theorem State.FieldReady.sqrtCandidate_val {s : State} (h : s.FieldReady) {v : Nat} {x : ZMod s.mod} (hv : s.Val v x) :
    s.Val (sqrtCandidate s.ctx v).val.1 (x ^ ((s.mod + 1) / 4)) ∧
      s.Val (sqrtCandidate s.ctx v).val.2 ((x ^ ((s.mod + 1) / 4)) ^ 2) := by
  have hroot := h.val_expCore hv (e := (s.mod + 1) / 4) (by have := h.lower; have := h.upper; omega)
  exact ⟨hroot, pow_two (x ^ ((s.mod + 1) / 4)) ▸ h.val_mont hroot hroot⟩

/-- Settles O31. -/
theorem fieldInverse : Obligations.FieldInverse := by
  intro s rd ra h ha
  have hexec := h.exec_of_stored (i := .finv rd ra) rfl ha
  rw [commandDone] at hexec
  refine ⟨fun hne => ?_, fun hzero => ?_⟩
  · have hresult := h.fieldResult (((State.Writes.refl s [rd] [.ninv, .z]).clearFlag (f := .ninv) (by simp))) (by simp)
      (h.val_expCore ha.val (e := s.mod - 2) (by have := h.upper; omega))
    rw [expCore_calls] at hresult
    rw [s.completeFinv_of_ne rd hne] at hexec
    refine ⟨_, hexec, hresult, by simp [State.flag_completeField], fun hp => ?_⟩
    rw [hresult.value]
    exact mul_pow_sub_two hp ((h.val_eq_zero ha.val).not.1 hne)
  · rw [hzero, s.completeFinv_zero, expCore_calls] at hexec
    exact ⟨_, hexec, s.report_completes .ninv _, by simp⟩

/-- Settles O32: the square of the candidate is the operand exactly when their true values agree. -/
theorem fieldRoot : Obligations.FieldRoot := by
  intro s rd ra h ha hmod root
  have hexec : exec (.fsqrt rd ra) s = _ := exec_completes (h.fsqrtChecks_eq_none ha hmod)
  rw [commandDone] at hexec
  obtain ⟨hroot, hsquare⟩ := h.sqrtCandidate_val ha.val
  refine ⟨fun heq => ?_, fun hne => ?_, fun hp => pow_quarter_sq_iff hp hmod _⟩
  · rw [s.completeFsqrt_of_eq rd ((h.val_inj hsquare ha.val).2 heq)] at hexec
    have hresult := h.fieldResult ((State.Writes.refl s [rd] [.nsqr, .z]).clearFlag (f := .nsqr) (by simp)) (by simp)
      (r := (sqrtCandidate s.ctx (s.getB ra)).map Prod.fst) hroot
    rw [Counted.map_calls, sqrtCandidate_calls] at hresult
    exact ⟨_, hexec, hresult, by simp [State.flag_completeField]⟩
  · rw [s.completeFsqrt_of_ne rd ((h.val_inj hsquare ha.val).not.2 hne), sqrtCandidate_calls] at hexec
    exact ⟨_, hexec, s.report_completes .nsqr _, by simp⟩

/-! ### Conversion -/

/-- `FTOM` of a value below the modulus completes with its stored value (R186). -/
theorem State.FieldReady.exec_ftom {s : State} (h : s.FieldReady) (rd : RegNum) {ra : RegNum} (ha : s.getB ra < s.mod) :
    ∃ t, exec (.ftom rd ra) s = .next t ∧ FieldResult s t rd [.rng, .z] (s.getB ra : ZMod s.mod) 1 ∧
      t.flag .rng = false := by
  have hexec := h.exec_of_stored (i := .ftom rd ra) (regs := []) rfl (by simp [State.Stored])
  rw [commandDone, s.completeFtom_of_lt rd ha] at hexec
  have hvalue : s.Val (mont s.ctx (s.getB ra) s.rsq).val (s.getB ra) := by
    rw [← h.trueValue_mul_radix]
    exact h.val_mont ⟨ha, rfl⟩ ⟨h.rsq_lt, h.trueValue_rsq⟩
  exact ⟨_, hexec, h.fieldResult ((State.Writes.refl s _ _).clearFlag (by simp)) (by simp) hvalue,
    by simp [State.flag_completeField]⟩

/-- Settles O33. -/
theorem toMontgomery : Obligations.ToMontgomery := by
  intro s rd ra h
  refine ⟨h.exec_ftom rd, fun hle => ?_⟩
  have hexec := h.exec_of_stored (i := .ftom rd ra) (regs := []) rfl (by simp [State.Stored])
  rw [commandDone, s.completeFtom_of_le rd hle] at hexec
  exact ⟨_, hexec, ((State.Writes.refl s [] [.rng]).raiseFlag (by simp)).complete, by simp⟩

/-- The multiplication by the raw integer 1 makes the true value the integer itself (R187). -/
theorem State.FieldReady.montMul_one_cast {s : State} (h : s.FieldReady) {v : Nat} (hv : v < s.mod) :
    (montMul s.ctx v 1 : ZMod s.mod) = s.trueValue v := by
  rw [← h.trueValue_mul_radix, h.trueValue_montMul hv h.one_lt, mul_assoc, h.trueValue_mul_radix, Nat.cast_one, mul_one]

/-- `FFRM` of a stored value completes with the canonical integer of its element (R187). -/
theorem State.FieldReady.exec_ffrm {s : State} (h : s.FieldReady) (rd : RegNum) {ra : RegNum} (ha : s.Stored [ra]) :
    ∃ t, exec (.ffrm rd ra) s = .next t ∧ Completes s t [rd] [.z] 0 1 (s.pc + 1) ∧
      t.getB rd < s.mod ∧ (t.getB rd : ZMod s.mod) = s.elem ra ∧ t.flag .z = decide (t.getB rd = 0) := by
  have hresult := h.fieldResult (State.Writes.refl s [rd] [.z]) (by simp) (h.val_mont ha.val ⟨h.one_lt, rfl⟩)
  refine ⟨_, h.exec_of_stored rfl ha, hresult.frame, hresult.below, ?_, hresult.zero⟩
  rw [commandDone, State.getB_completeField, mont_val,
    Nat.mod_eq_of_lt ((h.montMul_lt ha.val.below h.one_lt).trans h.upper), h.montMul_one_cast ha.val.below]
  rfl

section Kept

variable {s t : State} {regs : List RegNum} {flags : List Flag} {sticky : BitVec 5} {calls : Nat} {next : CmdIndex}
  (h : Completes s t regs flags sticky calls next)
include h

/-- A completed command leaves the latched context in place (R332). -/
theorem Completes.fieldReady (hs : s.FieldReady) : t.FieldReady := by
  rw [h.rest]
  exact { hs with }

theorem Completes.mod : t.mod = s.mod := by rw [h.rest]

/-- A stored value stands for the same integer before and after a completed command. -/
theorem Completes.trueValue_eq_natCast {v x : Nat} (hv : s.trueValue v = x) : t.trueValue v = x := by
  rw [h.rest]
  exact hv

end Kept

/-- `FFRM` of what `FTOM` left returns the integer (R187). -/
theorem State.FieldReady.exec_ffrm_of_ftom {s t : State} (h : s.FieldReady) {rm : RegNum} {x : Nat} (hx : x < s.mod)
    (ht : FieldResult s t rm [.rng, .z] (x : ZMod s.mod) 1) (rd : RegNum) :
    ∃ u, exec (.ffrm rd rm) t = .next u ∧ u.getB rd = x := by
  have hmod := ht.frame.mod
  have hstored : t.Stored [rm] := List.forall_mem_singleton.2 (hmod ▸ ht.below)
  obtain ⟨u, hexec, -, hlt, hcast, -⟩ := (ht.frame.fieldReady h).exec_ffrm rd hstored
  have hmodEq : u.getB rd ≡ x [MOD t.mod] :=
    (ZMod.natCast_eq_natCast_iff _ _ _).1 (hcast.trans (ht.frame.trueValue_eq_natCast ht.value))
  exact ⟨u, hexec, hmodEq.eq_of_lt_of_lt hlt (hmod ▸ hx)⟩

/-- Settles O34. -/
theorem fromMontgomeryAndOne : Obligations.FromMontgomeryAndOne := by
  intro s rd ra h
  refine ⟨h.exec_ffrm rd, fun rm hra => ?_, ?_⟩
  · obtain ⟨t, hexec, ht, -⟩ := h.exec_ftom rm hra
    obtain ⟨u, hexec', hu⟩ := h.exec_ffrm_of_ftom hra ht rd
    exact ⟨t, u, hexec, hexec', hu⟩
  · have hexec := h.exec_of_stored (i := .fone rd) (regs := []) rfl (by simp [State.Stored])
    have hvalue : (commandDone (.fone rd) s).getB rd = s.rone := by
      simp [commandDone, Nat.mod_eq_of_lt (h.rone_lt.trans h.upper)]
    have hflag : (commandDone (.fone rd) s).flag .z = false := by simp [commandDone]
    refine ⟨_, hexec, ⟨?_, ?_, ?_, ?_⟩, hvalue, hflag⟩
    · exact (((State.Writes.refl s [rd] [.z]).setB (by simp) _).setFlag (by simp) rfl _).complete
    · rw [hvalue]
      exact h.rone_lt
    · rw [hvalue, h.trueValue_rone]
    · rw [hflag, hvalue, decide_eq_false h.rone_ne_zero]

end Sys2Proof.Machine

/-! PROOFS. The curve commands (`42_curve.md` R208 to R221) as far as one datapath reaches: a command over stored operands
passes its checks, and what it writes is a triple or one flag; the double and the five-way select as relations that hold of
what the datapaths deliver and of nothing else. -/

namespace Sys2Proof.Machine

/-! ### What a completed curve command holds -/

section Completed

variable {s t : State} {flags : List Flag} {sticky : BitVec 5} {calls : Nat}

/-- The three registers of a triple are different (R22). -/
theorem State.getP_setP {rd : RegNum} {p : Point} (hx : p.x < s.radix) (hy : p.y < s.radix) (hz : p.z < s.radix) :
    (s.setP rd p).getP rd = p := by
  have h01 : rd ≠ rd + 1 := by simp
  have h02 : rd ≠ rd + 2 := by simp
  have h12 : rd + 1 ≠ rd + 2 := by simp
  simp only [State.getP, State.setP, State.getB_setB, State.setB_radix, if_pos, if_neg h01, if_neg h02, if_neg h12,
    Nat.mod_eq_of_lt hx, Nat.mod_eq_of_lt hy, Nat.mod_eq_of_lt hz]

@[simp] theorem State.getP_setFlag (f : Flag) (v : Bool) (i : RegNum) : (s.setFlag f v).getP i = s.getP i := rfl
@[simp] theorem State.getP_addMul (k : Nat) (i : RegNum) : (s.addMul k).getP i = s.getP i := rfl
@[simp] theorem State.getP_completeAt (n : CmdIndex) (i : RegNum) : (s.completeAt n).getP i = s.getP i := rfl

theorem State.Writes.setP {rd : RegNum} (h : s.Writes t (tripleRegs rd) flags sticky calls) (p : Point) :
    s.Writes (t.setP rd p) (tripleRegs rd) flags sticky calls :=
  ((h.setB (by simp [tripleRegs]) p.x).setB (by simp [tripleRegs]) p.y).setB (by simp [tripleRegs]) p.z

/-- The end of `PADD`, `PDBL` and `PMUL` writes the triple that the datapath made, and `INF` with it. -/
theorem State.FieldReady.pointResult (h : s.FieldReady) (rd : RegNum) {r : Counted Point} (hr : s.PointBelow r.val) :
    PointResult s (s.completePoint rd r) rd r.val r.calls := by
  obtain ⟨hx, hy, hz⟩ := hr
  have hup := h.upper
  refine ⟨((((State.Writes.refl s _ _).setP r.val).setFlag (by simp) rfl _).addMul r.calls).complete, ?_, ?_⟩
  · simp [State.completePoint, State.getP_setP (hx.trans hup) (hy.trans hup) (hz.trans hup)]
  · simp [State.completePoint, beq_eq_decide]

/-- Of the calls that a datapath made only `MULCNT` tells. -/
theorem State.completePoint_of_val (s : State) (rd : RegNum) {r r' : Counted Point} (hval : r'.val = r.val) :
    s.completePoint rd r' = { s.completePoint rd r with mulcnt := (s.completePoint rd r').mulcnt } := by
  obtain ⟨v, k⟩ := r
  obtain ⟨v', k'⟩ := r'
  obtain rfl : v' = v := hval
  rfl

theorem State.instret_completePoint (s : State) (rd : RegNum) (r : Counted Point) :
    (s.completePoint rd r).instret = s.instret + 1 := rfl

@[simp] theorem State.flag_completeTest (s : State) (f : Flag) (r : Counted Bool) :
    (s.completeTest f r).flag f = r.val := by
  simp [State.completeTest]

/-- The end of `PONC`, `PSGC` and `PEQ` writes one flag; the sticky bit goes with a 1 (R31). -/
theorem State.completeTest_completes (s : State) (f : Flag) (r : Counted Bool) :
    Completes s (s.completeTest f r) [] [f] (if (s.completeTest f r).flag f = true then f.sticky else 0) r.calls
      (s.pc + 1) := by
  have hwrites : s.Writes (s.setFlag f r.val) [] [f] (if r.val = true then f.sticky else 0) 0 := by
    cases r.val with
    | false => exact (State.Writes.refl s _ _).clearFlag (by simp)
    | true => exact (State.Writes.refl s _ _).raiseFlag (by simp)
  rw [State.flag_completeTest]
  exact (hwrites.addMul r.calls).complete

/-- A condition that is reported unless a test passes is absent exactly when it passes. -/
theorem State.flag_completeTest_not (s : State) (f : Flag) (r : Counted Bool) :
    (s.completeTest f (r.map (!·))).flag f = false ↔ r.val = true := by
  rw [State.flag_completeTest, Counted.map_val, Bool.not_eq_false']

/-- A condition that is reported of a finite triple is absent exactly of infinity. -/
theorem State.flag_completeTest_finite (s : State) (f : Flag) (r : Counted Point) :
    (s.completeTest f (r.map fun q => q.z != 0)).flag f = false ↔ r.val.z = 0 := by
  rw [State.flag_completeTest, Counted.map_val, bne_eq_false_iff_eq]

end Completed

/-! ### The operands -/

section Operands

variable {s : State}

/-- A curve command over stored operands passes its checks (R209). -/
theorem State.CurveReady.exec_of_stored (h : s.CurveReady) {i : Instr} (hwf : i.wf) (hcurve : needsCurve i = true)
    (hregs : s.Stored (storedRegs i)) : exec i s = .next (commandDone i s) := by
  refine exec_completes ?_
  rw [commandChecks_of_needsModulus hwf (needsModulus_of_needsCurve hcurve), State.noModulus_eq_none.2 h.field.latched,
    State.contextCheck_of_needsCurve hcurve, State.noCurve, if_pos h.loaded, s.operandRange_eq_none.2 hregs]
  rfl

/-- A stored triple is a point of three values below the modulus. -/
theorem State.Stored.getP_below {ra : RegNum} (h : s.Stored (tripleRegs ra)) : s.PointBelow (s.getP ra) :=
  ⟨h ra (by simp [tripleRegs]), h (ra + 1) (by simp [tripleRegs]), h (ra + 2) (by simp [tripleRegs])⟩

theorem State.Stored.append {l l' : List RegNum} (h : s.Stored l) (h' : s.Stored l') : s.Stored (l ++ l') :=
  fun r hr => (List.mem_append.1 hr).elim (h r) (h' r)

/-- A triple field 0 .. 13 (R121). -/
theorem tripleError_singleton {r : RegNum} (h : r.val ≤ 13) : tripleError [r] = none :=
  tripleError_eq_none.2 (List.forall_mem_singleton.2 h)

theorem tripleError_cons {r : RegNum} {rs : List RegNum} (h : r.val ≤ 13) (hrs : tripleError rs = none) :
    tripleError (r :: rs) = none :=
  tripleError_eq_none.2 (List.forall_mem_cons.2 ⟨h, tripleError_eq_none.1 hrs⟩)

end Operands

/-- Settles O36. -/
theorem crvsetLoads : Obligations.CrvsetLoads := by
  intro s ra rb rc h hregs
  refine ⟨_, h.exec_of_stored rfl hregs, ?_, rfl⟩
  exact { field := { h with }, loaded := rfl, a := hregs ra (by simp), b := hregs rb (by simp), order := s.getB_lt rc }

/-! ### Triples that a datapath delivers -/

/-- What `Canon` delivers (R210): three values below the modulus, and canonical infinity when Z is 0. -/
structure State.Canonical (s : State) (p : Point) : Prop where
  below : s.PointBelow p
  infinity : p.z = 0 → p = s.infinityPoint

section Delivered

variable {s : State} (h : s.FieldReady)
include h

theorem State.FieldReady.canonical_infinity : s.Canonical s.infinityPoint := ⟨h.infinity_below, fun _ => rfl⟩

/-- `Canon` makes any triple below the modulus canonical (R210). -/
theorem State.FieldReady.canonical_canon {p : Point} (hp : s.PointBelow p) : s.Canonical (canon s.ctx p) := by
  refine ⟨h.canon_below hp, ?_⟩
  unfold canon
  split_ifs with hz
  · exact fun _ => rfl
  · exact fun e => absurd e hz

theorem State.FieldReady.jac_z_eq_zero {p : Point} (hp : s.PointBelow p) : (s.jac p).z = 0 ↔ p.z = 0 :=
  h.trueValue_eq_zero hp.2.2

/-- A stored triple is known by its true coordinates (R189). -/
theorem State.FieldReady.jac_inj {p q : Point} (hp : s.PointBelow p) (hq : s.PointBelow q) :
    s.jac p = s.jac q ↔ p = q := by
  obtain ⟨px, py, pz⟩ := p
  obtain ⟨qx, qy, qz⟩ := q
  obtain ⟨hpx, hpy, hpz⟩ := hp
  obtain ⟨hqx, hqy, hqz⟩ := hq
  simp only [State.jac, Jac.mk.injEq, Point.mk.injEq, h.trueValue_inj hpx hqx, h.trueValue_inj hpy hqy,
    h.trueValue_inj hpz hqz]

variable {p q r r' : Point} {v : Jac (ZMod s.mod)}

theorem State.HoldsJac.canonical (hp : s.HoldsJac p v) : s.Canonical p := by
  obtain ⟨hzero, hne⟩ := hp
  by_cases hz : v.z = 0
  · rw [hzero hz]
    exact h.canonical_infinity
  · obtain ⟨hbelow, rfl⟩ := hne hz
    exact ⟨hbelow, fun e => absurd ((h.jac_z_eq_zero hbelow).2 e) hz⟩

theorem State.HoldsJac.unique (hp : s.HoldsJac p v) (hq : s.HoldsJac q v) : p = q := by
  by_cases hz : v.z = 0
  · rw [hp.1 hz, hq.1 hz]
  · obtain ⟨hpb, hpv⟩ := hp.2 hz
    obtain ⟨hqb, hqv⟩ := hq.2 hz
    exact (h.jac_inj hpb hqb).1 (hpv.trans hqv.symm)

theorem State.IsDouble.canonical (hd : s.IsDouble p r) : s.Canonical r := State.HoldsJac.canonical h hd

theorem State.IsDouble.unique (hd : s.IsDouble p r) (hd' : s.IsDouble p r') : r = r' := State.HoldsJac.unique h hd hd'

/-- The double of any triple at infinity is canonical infinity (R216). -/
theorem State.IsDouble.infinity (hz : p.z = 0) (hd : s.IsDouble p r) : r = s.infinityPoint := by
  refine hd.1 ?_
  simp [jacDouble, State.jac, hz, h.trueValue_zero]

omit h in
/-- The five ways of the select of R212. -/
theorem State.IsSum.cases (hsum : s.IsSum p q r) :
    (p.z = 0 ∧ r = canon s.ctx q) ∨
    (p.z ≠ 0 ∧ q.z = 0 ∧ r = p) ∨
    (p.z ≠ 0 ∧ q.z ≠ 0 ∧ jacH (s.jac p) (s.jac q) = 0 ∧ jacR (s.jac p) (s.jac q) = 0 ∧ s.IsDouble p r) ∨
    (p.z ≠ 0 ∧ q.z ≠ 0 ∧ jacH (s.jac p) (s.jac q) = 0 ∧ jacR (s.jac p) (s.jac q) ≠ 0 ∧ r = s.infinityPoint) ∨
    (p.z ≠ 0 ∧ q.z ≠ 0 ∧ jacH (s.jac p) (s.jac q) ≠ 0 ∧ s.HoldsJac r (jacSum (s.jac p) (s.jac q))) := by
  unfold State.IsSum at hsum
  by_cases hp : p.z = 0
  · rw [if_pos hp] at hsum
    exact .inl ⟨hp, hsum⟩
  rw [if_neg hp] at hsum
  by_cases hq : q.z = 0
  · rw [if_pos hq] at hsum
    exact .inr (.inl ⟨hp, hq, hsum⟩)
  rw [if_neg hq] at hsum
  by_cases hH : jacH (s.jac p) (s.jac q) = 0
  · rw [if_pos hH] at hsum
    by_cases hR : jacR (s.jac p) (s.jac q) = 0
    · rw [if_pos hR] at hsum
      exact .inr (.inr (.inl ⟨hp, hq, hH, hR, hsum⟩))
    · rw [if_neg hR] at hsum
      exact .inr (.inr (.inr (.inl ⟨hp, hq, hH, hR, hsum⟩)))
  · rw [if_neg hH] at hsum
    exact .inr (.inr (.inr (.inr ⟨hp, hq, hH, hsum⟩)))

omit h in
/-- A first operand at infinity: the second, canonical (R212). -/
theorem State.IsSum.of_left_infinity (hp : p.z = 0) (hsum : s.IsSum p q r) : r = canon s.ctx q := by
  rw [State.IsSum, if_pos hp] at hsum
  exact hsum

theorem State.IsSum.canonical (hp : s.PointBelow p) (hq : s.PointBelow q) (hsum : s.IsSum p q r) : s.Canonical r := by
  rcases hsum.cases with ⟨_, rfl⟩ | ⟨hpz, _, rfl⟩ | ⟨_, _, _, _, hd⟩ | ⟨_, _, _, _, rfl⟩ | ⟨_, _, _, hg⟩
  · exact h.canonical_canon hq
  · exact ⟨hp, fun e => absurd e hpz⟩
  · exact hd.canonical h
  · exact h.canonical_infinity
  · exact hg.canonical h

theorem State.IsSum.unique (hsum : s.IsSum p q r) (hsum' : s.IsSum p q r') : r = r' := by
  unfold State.IsSum at hsum hsum'
  split_ifs at hsum hsum'
  · exact hsum.trans hsum'.symm
  · exact hsum.trans hsum'.symm
  · exact hsum.trans hsum'.symm
  · exact hsum.unique h hsum'
  · exact hsum.trans hsum'.symm
  · exact hsum.unique h hsum'

/-- The sum of a triple with itself is its double (R212, R216). -/
theorem State.IsSum.double (hsum : s.IsSum p p r) : s.IsDouble p r := by
  have hH : jacH (s.jac p) (s.jac p) = 0 := sub_self _
  have hR : jacR (s.jac p) (s.jac p) = 0 := sub_self _
  rcases hsum.cases with ⟨hz, rfl⟩ | ⟨hz, hz', _⟩ | ⟨_, _, _, _, hd⟩ | ⟨_, _, _, hR', _⟩ | ⟨_, _, hH', _⟩
  · have hdz : (jacDouble (s.trueValue s.curveA) (s.jac p)).z = 0 := by
      simp [jacDouble, State.jac, hz, h.trueValue_zero]
    exact ⟨fun _ => by rw [canon, if_pos hz]; rfl, fun e => absurd hdz e⟩
  · exact absurd hz' hz
  · exact hd
  · exact absurd hR hR'
  · exact absurd hH hH'

end Delivered

/-! ### The datapaths deliver them -/

namespace State.CurveReady

variable {s : State} (h : s.CurveReady) {p q : Point}
include h

theorem isDouble_dblCanon (hp : s.PointBelow p) : s.IsDouble p (dblCanon s.ctx p).val :=
  h.field.dblCanon_holds h.a (h.field.pointVal hp)

theorem isSum_addCore (hp : s.PointBelow p) (hq : s.PointBelow q) : s.IsSum p q (addCore s.ctx p q).val := by
  obtain ⟨d, g, hd, hg, -, e⟩ := h.field.addCore_spec h.a (h.field.pointVal hp) (h.field.pointVal hq)
  rw [e, State.IsSum]
  by_cases hpz : p.z = 0
  · rw [if_pos hpz, if_pos hpz]
    rfl
  rw [if_neg hpz, if_neg hpz]
  by_cases hqz : q.z = 0
  · rw [if_pos hqz, if_pos hqz, canon, if_neg hpz]
  rw [if_neg hqz, if_neg hqz]
  by_cases hH : jacH (s.jac p) (s.jac q) = 0
  · by_cases hR : jacR (s.jac p) (s.jac q) = 0
    · rw [if_pos hH, if_pos hR, if_pos ⟨hH, hR⟩]
      exact h.field.canon_holds hd
    · rw [if_pos hH, if_neg hR, if_neg (fun e => hR e.2), if_pos hH]
      rfl
  · rw [if_neg hH, if_neg (fun e => hH e.1), if_neg hH]
    exact h.field.canon_holds hg

theorem canonical_dblCanon (hp : s.PointBelow p) : s.Canonical (dblCanon s.ctx p).val :=
  (h.isDouble_dblCanon hp).canonical h.field

theorem canonical_addCore (hp : s.PointBelow p) (hq : s.PointBelow q) : s.Canonical (addCore s.ctx p q).val :=
  (h.isSum_addCore hp hq).canonical h.field hp hq

/-- The two datapaths agree on equal operands, bit for bit (R216). -/
theorem addCore_self (hp : s.PointBelow p) : (addCore s.ctx p p).val = (dblCanon s.ctx p).val :=
  ((h.isSum_addCore hp hp).double h.field).unique h.field (h.isDouble_dblCanon hp)

theorem exec_pdbl {rd ra : RegNum} (hrd : rd.val ≤ 13) (hra : ra.val ≤ 13) (ha : s.Stored (tripleRegs ra)) :
    exec (.pdbl rd ra) s = .next (s.completePoint rd (dblCanon s.ctx (s.getP ra))) :=
  h.exec_of_stored (i := .pdbl rd ra) (tripleError_cons hrd (tripleError_singleton hra)) rfl ha

theorem exec_padd {rd ra rb : RegNum} (hrd : rd.val ≤ 13) (hra : ra.val ≤ 13) (hrb : rb.val ≤ 13)
    (ha : s.Stored (tripleRegs ra)) (hb : s.Stored (tripleRegs rb)) :
    exec (.padd rd ra rb) s = .next (s.completePoint rd (addCore s.ctx (s.getP ra) (s.getP rb))) :=
  h.exec_of_stored (i := .padd rd ra rb) (tripleError_cons hrd (tripleError_cons hra (tripleError_singleton hrb))) rfl
    (ha.append hb)

end State.CurveReady

/-- Settles O37. -/
theorem pointDouble : Obligations.PointDouble := by
  intro s rd ra h hrd hra ha
  have hp := ha.getP_below
  have hresult := h.field.pointResult rd (h.canonical_dblCanon hp).below
  rw [dblCanon_calls] at hresult
  exact ⟨_, _, h.exec_pdbl hrd hra ha, hresult, h.isDouble_dblCanon hp⟩

/-- Settles O38. -/
theorem pointAdd : Obligations.PointAdd := by
  intro s rd ra rb h hrd hra hrb ha hb
  have hp := ha.getP_below
  have hq := hb.getP_below
  have hresult := h.field.pointResult rd (h.canonical_addCore hp hq).below
  rw [addCore_calls] at hresult
  exact ⟨_, _, h.exec_padd hrd hra hrb ha hb, hresult, h.isSum_addCore hp hq⟩

/-- Settles O39: the two commands end alike, from one triple. -/
theorem doubleIsSelfSum : Obligations.DoubleIsSelfSum := by
  intro s rd ra h hrd hra ha
  exact ⟨_, _, h.exec_pdbl hrd hra ha, h.exec_padd hrd hra hra ha ha, s.instret_completePoint rd _,
    s.instret_completePoint rd _, s.completePoint_of_val rd (h.addCore_self ha.getP_below)⟩

end Sys2Proof.Machine

/-! PROOFS. The tests and the affine form (`42_curve.md` R218, R220, R221): the stored value of each line of their datapaths,
then the commands. -/

namespace Sys2Proof.Machine

/-! ### What the datapaths test and deliver -/

/-- The affine conversion of a triple at infinity (R220). -/
theorem State.affine_infinity (s : State) {p : Point} (hz : p.z = 0) : (affine s.ctx p).val = s.infinityPoint :=
  if_pos hz

namespace State.CurveReady

variable {s : State} (h : s.CurveReady) {p q : Point}
include h

/-- The curve test is the Jacobian equation on true values (R218). -/
theorem onCurve_val (hp : s.PointBelow p) :
    (onCurve s.ctx p).val = true ↔ p.z = 0 ∨ (s.jac p).y ^ 2 =
      (s.jac p).x ^ 3 + s.trueValue s.curveA * (s.jac p).x * (s.jac p).z ^ 4 +
        s.trueValue s.curveB * (s.jac p).z ^ 6 := by
  have hf := h.field
  obtain ⟨hx, hy, hz⟩ := hf.pointVal hp
  have hA : s.Val s.ctx.a (s.trueValue s.curveA) := ⟨h.a, rfl⟩
  have hB : s.Val s.ctx.b (s.trueValue s.curveB) := ⟨h.b, rfl⟩
  have hyy := hf.val_mont hy hy
  have hx3 := hf.val_mont (hf.val_mont hx hx) hx
  have hzz := hf.val_mont hz hz
  have hz4 := hf.val_mont hzz hzz
  have haxz4 := hf.val_mont (hf.val_mont hA hx) hz4
  have hbz6 := hf.val_mont hB (hf.val_mont hz4 hzz)
  have hequation := hf.val_inj hyy (hf.val_fadd (hf.val_fadd hx3 haxz4) hbz6)
  refine Bool.or_eq_true_iff.trans (or_congr beq_iff_eq (beq_iff_eq.trans (hequation.trans ?_)))
  constructor <;> exact fun e => by linear_combination e

/-- The cross-multiplied comparison of R221. -/
theorem pointEq_val (hp : s.PointBelow p) (hq : s.PointBelow q) :
    (pointEq s.ctx p q).val = true ↔ (p.z = 0 ∧ q.z = 0) ∨
      (p.z ≠ 0 ∧ q.z ≠ 0 ∧ jacH (s.jac p) (s.jac q) = 0 ∧ jacR (s.jac p) (s.jac q) = 0) := by
  have hf := h.field
  obtain ⟨hx, hy, hz⟩ := hf.pointVal hp
  obtain ⟨hx', hy', hz'⟩ := hf.pointVal hq
  have hzz := hf.val_mont hz hz
  have hzz' := hf.val_mont hz' hz'
  have hH := (hf.val_inj (hf.val_mont hx hzz') (hf.val_mont hx' hzz)).trans (eq_comm.trans sub_eq_zero.symm)
  have hR := (hf.val_inj (hf.val_mont hy (hf.val_mont hz' hzz')) (hf.val_mont hy' (hf.val_mont hz hzz))).trans
    (eq_comm.trans sub_eq_zero.symm)
  rw [← pow_two, ← pow_two] at hH
  rw [← pow_three, ← pow_three] at hR
  change ((p.z == 0 && q.z == 0) || (p.z != 0 && q.z != 0 && _ == _ && _ == _)) = true ↔ _
  simp only [Bool.or_eq_true, Bool.and_eq_true, beq_iff_eq, bne_iff_ne, and_assoc]
  exact or_congr_right (and_congr_right fun _ => and_congr_right fun _ => and_congr hH hR)

/-- The affine conversion of any other triple, by the power p − 2 of Z (R220). -/
theorem affine_val (hp : s.PointBelow p) (hz : p.z ≠ 0) :
    s.Val (affine s.ctx p).val.x ((s.jac p).x * ((s.jac p).z ^ (s.mod - 2)) ^ 2) ∧
      s.Val (affine s.ctx p).val.y ((s.jac p).y * ((s.jac p).z ^ (s.mod - 2)) ^ 3) ∧
      (affine s.ctx p).val.z = s.rone := by
  have hf := h.field
  obtain ⟨vx, vy, vz⟩ := hf.pointVal hp
  have hzi := hf.val_expCore vz (e := s.mod - 2) (by have := hf.upper; omega)
  have hzi2 := hf.val_mont hzi hzi
  have hzi3 := hf.val_mont hzi2 hzi
  have he : (affine s.ctx p).val = ⟨_, _, s.rone⟩ := if_neg hz
  rw [he, pow_succ (n := 2), pow_two]
  exact ⟨hf.val_mont vx hzi2, hf.val_mont vy hzi3, rfl⟩

theorem affine_below (hp : s.PointBelow p) : s.PointBelow (affine s.ctx p).val := by
  by_cases hz : p.z = 0
  · rw [s.affine_infinity hz]
    exact h.field.infinity_below
  · obtain ⟨hx, hy, hr⟩ := h.affine_val hp hz
    exact ⟨hx.below, hy.below, hr ▸ h.field.rone_lt⟩

/-- A triple with Z = `RONE` is its own affine form (R220). -/
theorem affine_of_rone (hp : s.PointBelow p) (hr : p.z = s.rone) : (affine s.ctx p).val = p := by
  have hone : (s.jac p).z = 1 := by rw [State.jac, hr, h.field.trueValue_rone]
  obtain ⟨hx, hy, hz⟩ := h.affine_val hp (hr ▸ h.field.rone_ne_zero)
  rw [hone, one_pow, one_pow, mul_one] at hx hy
  obtain ⟨vx, vy, -⟩ := h.field.pointVal hp
  exact (Point.mk.injEq _ _ _ _ _ _).mpr ⟨h.field.eq_of_val hx vx, h.field.eq_of_val hy vy, hz.trans hr.symm⟩

/-- The affine form is infinity exactly when the triple is (R220). -/
theorem affine_z_eq_zero (hp : s.PointBelow p) : (affine s.ctx p).val.z = 0 ↔ p.z = 0 := by
  by_cases hz : p.z = 0
  · rw [s.affine_infinity hz]
    exact iff_of_true rfl hz
  · obtain ⟨-, -, hr⟩ := h.affine_val hp hz
    rw [hr]
    exact iff_of_false h.field.rone_ne_zero hz

end State.CurveReady

/-! ### The commands -/

/-- Settles O44: `IVP` reports that the datapath's test failed. -/
theorem onCurveTest : Obligations.OnCurveTest := by
  intro s ra h hra ha
  have hexec : exec (.ponc ra) s = _ := h.exec_of_stored (tripleError_singleton hra) rfl ha
  have hframe := s.completeTest_completes .ivp ((onCurve s.ctx (s.getP ra)).map (!·))
  rw [Counted.map_calls, onCurve_calls] at hframe
  exact ⟨_, hexec, hframe, (s.flag_completeTest_not .ivp _).trans (h.onCurve_val ha.getP_below)⟩

/-- `PAFF` writes `INF` by its operand, which is infinity when the result is. -/
theorem State.CurveReady.completePaff_eq {s : State} (h : s.CurveReady) (rd : RegNum) {p : Point}
    (hp : s.PointBelow p) :
    s.completePaff rd p.z (affine s.ctx p) = s.completePoint rd (affine s.ctx p) := by
  have hz : (p.z == 0) = ((affine s.ctx p).val.z == 0) := by
    rw [Bool.eq_iff_iff, beq_iff_eq, beq_iff_eq, h.affine_z_eq_zero hp]
  rw [State.completePaff, hz, State.completePoint]

/-- Settles O45. -/
theorem affineForm : Obligations.AffineForm := by
  intro s rd ra h hrd hra ha
  have hp := ha.getP_below
  have hexec : exec (.paff rd ra) s = _ :=
    h.exec_of_stored (tripleError_cons hrd (tripleError_singleton hra)) rfl ha
  rw [commandDone, h.completePaff_eq rd hp] at hexec
  have hresult := h.field.pointResult rd (h.affine_below hp)
  rw [affine_calls] at hresult
  refine ⟨_, _, hexec, hresult, s.affine_infinity, fun hz => ?_, h.affine_of_rone hp⟩
  obtain ⟨hx, hy, hr⟩ := h.affine_val hp hz
  exact ⟨h.affine_below hp, hr, hx.value, hy.value,
    fun hprime => mul_pow_sub_two hprime ((h.field.jac_z_eq_zero hp).not.2 hz)⟩

end Sys2Proof.Machine

/-! PROOFS. The group law (R208, R222): Jacobian coordinates of an affine point, what the double and the generic sum are of
them, and hence what `IsDouble` and `IsSum` are of points of the curve over a prime modulus. -/

namespace Sys2Proof.Machine

/-! ### Jacobian coordinates of an affine point -/

section Jacobian

variable {F : Type} [CommRing F] {j k : Jac F} {a x y x₁ y₁ x₂ y₂ ℓ : F}

/-- Jacobian coordinates of the affine point (x, y), written without a division (R208). -/
structure Jac.At (j : Jac F) (x y : F) : Prop where
  x : j.x = x * j.z ^ 2
  y : j.y = y * j.z ^ 3

/-- The double of a point of the curve, by the tangent of slope ℓ (R211). -/
theorem jacDouble_at (hj : j.At x y) (hℓ : ℓ * (2 * y) = 3 * x ^ 2 + a) :
    (jacDouble a j).At (ℓ ^ 2 - x - x) (-(ℓ * (ℓ ^ 2 - x - x - x) + y)) := by
  obtain rfl : a = ℓ * (2 * y) - 3 * x ^ 2 := by rw [hℓ]; ring
  constructor <;> simp only [jacDouble, hj.x, hj.y] <;> ring

theorem jacDouble_z (hj : j.At x y) : (jacDouble a j).z = 2 * y * j.z ^ 4 := by
  simp only [jacDouble, hj.y]
  ring

theorem jacH_at (hj : j.At x₁ y₁) (hk : k.At x₂ y₂) : jacH j k = (x₂ - x₁) * (j.z ^ 2 * k.z ^ 2) := by
  simp only [jacH, hj.x, hk.x]
  ring

theorem jacR_at (hj : j.At x₁ y₁) (hk : k.At x₂ y₂) : jacR j k = (y₂ - y₁) * (j.z ^ 3 * k.z ^ 3) := by
  simp only [jacR, hj.y, hk.y]
  ring

/-- The generic sum of two points, by the secant of slope ℓ (R212). -/
theorem jacSum_at (hj : j.At x₁ y₁) (hk : k.At x₂ y₂) (hℓ : ℓ * (x₁ - x₂) = y₁ - y₂) :
    (jacSum j k).At (ℓ ^ 2 - x₁ - x₂) (-(ℓ * (ℓ ^ 2 - x₁ - x₂ - x₁) + y₁)) := by
  obtain rfl : y₂ = y₁ - ℓ * (x₁ - x₂) := by rw [hℓ]; ring
  constructor <;> simp only [jacSum, jacH_at hj hk, jacR_at hj hk, hj.x, hj.y] <;> ring

variable [IsDomain F]

theorem jacH_eq_zero (hj : j.At x₁ y₁) (hk : k.At x₂ y₂) (hjz : j.z ≠ 0) (hkz : k.z ≠ 0) :
    jacH j k = 0 ↔ x₁ = x₂ := by
  rw [jacH_at hj hk, mul_eq_zero_iff_right (mul_ne_zero (pow_ne_zero 2 hjz) (pow_ne_zero 2 hkz)), sub_eq_zero, eq_comm]

theorem jacR_eq_zero (hj : j.At x₁ y₁) (hk : k.At x₂ y₂) (hjz : j.z ≠ 0) (hkz : k.z ≠ 0) :
    jacR j k = 0 ↔ y₁ = y₂ := by
  rw [jacR_at hj hk, mul_eq_zero_iff_right (mul_ne_zero (pow_ne_zero 3 hjz) (pow_ne_zero 3 hkz)), sub_eq_zero, eq_comm]

end Jacobian

/-! ### Points of the curve -/

section Group

variable {s : State} (h : s.FieldReady) {p q r : Point}

@[simp] theorem State.curve_a₁ (s : State) : s.curve.a₁ = 0 := rfl
@[simp] theorem State.curve_a₂ (s : State) : s.curve.a₂ = 0 := rfl
@[simp] theorem State.curve_a₃ (s : State) : s.curve.a₃ = 0 := rfl
@[simp] theorem State.curve_a₄ (s : State) : s.curve.a₄ = s.trueValue s.curveA := rfl

/-- The inverse of a point mirrors its Y (R222). -/
theorem State.curve_negY (s : State) (x y : ZMod s.mod) : s.curve.negY x y = -y := by
  simp [WeierstrassCurve.Affine.negY]

theorem State.curve_addX (s : State) (x₁ x₂ ℓ : ZMod s.mod) : s.curve.addX x₁ x₂ ℓ = ℓ ^ 2 - x₁ - x₂ := by
  simp [WeierstrassCurve.Affine.addX]

theorem State.curve_addY (s : State) (x₁ x₂ y₁ ℓ : ZMod s.mod) :
    s.curve.addY x₁ x₂ y₁ ℓ = -(ℓ * (ℓ ^ 2 - x₁ - x₂ - x₁) + y₁) := by
  rw [WeierstrassCurve.Affine.addY, State.curve_negY, WeierstrassCurve.Affine.negAddY, State.curve_addX]

/-- What a triple stands for: infinity, or a point in Jacobian coordinates (R208). -/
theorem State.represents_iff {g : s.curve.Point} :
    s.Represents p g ↔ (p.z = 0 ∧ g = 0) ∨ (p.z ≠ 0 ∧ ∃ x y n, g = .some x y n ∧ (s.jac p).At x y) :=
  or_congr Iff.rfl (and_congr_right fun _ => exists_congr fun _ => exists_congr fun _ => exists_congr fun _ =>
    and_congr_right fun _ => ⟨fun e => ⟨e.1, e.2⟩, fun e => ⟨e.x, e.y⟩⟩)

theorem State.represents_infinity (s : State) : s.Represents s.infinityPoint 0 := .inl ⟨rfl, rfl⟩

/-- A triple of stored values stands for the identity exactly when Z is 0. -/
theorem State.Represents.eq_zero_iff {g : s.curve.Point} (hg : s.Represents p g) : g = 0 ↔ p.z = 0 := by
  rcases State.represents_iff.1 hg with ⟨hz, rfl⟩ | ⟨hz, x, y, n, rfl, -⟩
  · exact iff_of_true rfl hz
  · exact iff_of_false (WeierstrassCurve.Affine.Point.some_ne_zero n) hz

/-- `Canon` changes the triple of infinity only, and that to one of infinity (R210). -/
theorem State.Represents.canon {g : s.curve.Point} (hg : s.Represents q g) : s.Represents (canon s.ctx q) g := by
  unfold Machine.canon
  split_ifs with hz
  · rw [hg.eq_zero_iff.2 hz]
    exact s.represents_infinity
  · exact hg

include h

/-- A triple with the Jacobian coordinates of a point stands for it. -/
theorem State.HoldsJac.represents {v : Jac (ZMod s.mod)} (hr : s.HoldsJac r v) (hz : v.z ≠ 0) {x y : ZMod s.mod}
    (n : s.curve.Nonsingular x y) (hv : v.At x y) : s.Represents r (.some x y n) := by
  obtain ⟨hbelow, rfl⟩ := hr.2 hz
  exact State.represents_iff.2 (.inr ⟨(h.jac_z_eq_zero hbelow).not.1 hz, x, y, n, rfl, hv⟩)

variable [Fact s.mod.Prime]

theorem State.FieldReady.two_ne_zero : (2 : ZMod s.mod) ≠ 0 := by
  have hlow := h.lower
  intro e
  have hdvd : s.mod ∣ 2 := (ZMod.natCast_eq_zero_iff 2 s.mod).1 (by exact_mod_cast e)
  have := Nat.le_of_dvd (by norm_num) hdvd
  omega

/-- The doubling datapath is the doubling of the group (R211, R222). -/
theorem State.IsDouble.represents (hp : s.PointBelow p) (hd : s.IsDouble p r) {g : s.curve.Point}
    (hg : s.Represents p g) : s.Represents r (g + g) := by
  rcases State.represents_iff.1 hg with ⟨hz, rfl⟩ | ⟨hz, x, y, n, rfl, hat⟩
  · rw [hd.infinity h hz, add_zero]
    exact s.represents_infinity
  have hjz := (h.jac_z_eq_zero hp).not.2 hz
  have hdz := jacDouble_z (a := s.trueValue s.curveA) hat
  by_cases hy : y = 0
  · have hneg : y = s.curve.negY x y := by rw [State.curve_negY, hy, neg_zero]
    rw [WeierstrassCurve.Affine.Point.add_self_of_Y_eq hneg, hd.1 (by rw [hdz, hy]; ring)]
    exact s.represents_infinity
  · have hyy : 2 * y ≠ 0 := mul_ne_zero h.two_ne_zero hy
    have hneg : y ≠ s.curve.negY x y := by
      rw [State.curve_negY, Ne, eq_neg_iff_add_eq_zero, ← two_mul]
      exact hyy
    have hslope : s.curve.slope x x y y * (2 * y) = 3 * x ^ 2 + s.trueValue s.curveA := by
      have hden : y - -y = 2 * y := by ring
      rw [WeierstrassCurve.Affine.slope_of_Y_ne rfl hneg, State.curve_negY, hden, div_mul_cancel₀ _ hyy]
      simp
    have hdouble := jacDouble_at hat hslope
    rw [← State.curve_addY, ← State.curve_addX] at hdouble
    rw [WeierstrassCurve.Affine.Point.add_self_of_Y_ne hneg]
    exact State.HoldsJac.represents h hd (by rw [hdz]; exact mul_ne_zero hyy (pow_ne_zero 4 hjz)) _ hdouble

/-- Two triples of the curve with Z ≠ 0 stand for one point exactly when the cross-multiplied coordinates agree (R221). -/
theorem State.jacHR_eq_zero_iff (hp : s.PointBelow p) (hq : s.PointBelow q) (hpz : p.z ≠ 0) (hqz : q.z ≠ 0)
    {g g' : s.curve.Point} (hg : s.Represents p g) (hg' : s.Represents q g') :
    (jacH (s.jac p) (s.jac q) = 0 ∧ jacR (s.jac p) (s.jac q) = 0) ↔ g = g' := by
  have hjz := (h.jac_z_eq_zero hp).not.2 hpz
  have hkz := (h.jac_z_eq_zero hq).not.2 hqz
  obtain ⟨e, -⟩ | ⟨-, x₁, y₁, n₁, rfl, hat⟩ := State.represents_iff.1 hg
  · exact absurd e hpz
  obtain ⟨e, -⟩ | ⟨-, x₂, y₂, n₂, rfl, hat'⟩ := State.represents_iff.1 hg'
  · exact absurd e hqz
  rw [jacH_eq_zero hat hat' hjz hkz, jacR_eq_zero hat hat' hjz hkz, WeierstrassCurve.Affine.Point.some.injEq]

/-- The five-way select is the addition of the group (R212, R222). -/
theorem State.IsSum.represents (hp : s.PointBelow p) (hq : s.PointBelow q) (hsum : s.IsSum p q r)
    {g g' : s.curve.Point} (hg : s.Represents p g) (hg' : s.Represents q g') : s.Represents r (g + g') := by
  rcases hsum.cases with ⟨hpz, rfl⟩ | ⟨hpz, hqz, rfl⟩ | ⟨hpz, hqz, hH, hR, hd⟩ | ⟨hpz, hqz, hH, hR, rfl⟩ |
    ⟨hpz, hqz, hH, hgen⟩
  · rw [hg.eq_zero_iff.2 hpz, zero_add]
    exact hg'.canon
  · rw [hg'.eq_zero_iff.2 hqz, add_zero]
    exact hg
  · rw [← (State.jacHR_eq_zero_iff h hp hq hpz hqz hg hg').1 ⟨hH, hR⟩]
    exact hd.represents h hp hg
  all_goals
    have hjz := (h.jac_z_eq_zero hp).not.2 hpz
    have hkz := (h.jac_z_eq_zero hq).not.2 hqz
    obtain ⟨e, -⟩ | ⟨-, x₁, y₁, n₁, rfl, hat⟩ := State.represents_iff.1 hg
    · exact absurd e hpz
    obtain ⟨e, -⟩ | ⟨-, x₂, y₂, n₂, rfl, hat'⟩ := State.represents_iff.1 hg'
    · exact absurd e hqz
  · have hx := (jacH_eq_zero hat hat' hjz hkz).1 hH
    have hy := (jacR_eq_zero hat hat' hjz hkz).not.1 hR
    have hneg := (WeierstrassCurve.Affine.Y_eq_of_X_eq n₁.1 n₂.1 hx).resolve_left hy
    rw [WeierstrassCurve.Affine.Point.add_of_Y_eq hx hneg]
    exact s.represents_infinity
  · have hx := (jacH_eq_zero hat hat' hjz hkz).not.1 hH
    have hslope : s.curve.slope x₁ x₂ y₁ y₂ * (x₁ - x₂) = y₁ - y₂ := by
      rw [WeierstrassCurve.Affine.slope_of_X_ne hx, div_mul_cancel₀ _ (sub_ne_zero.2 hx)]
    have hgeneric := jacSum_at hat hat' hslope
    rw [← State.curve_addY, ← State.curve_addX] at hgeneric
    rw [WeierstrassCurve.Affine.Point.add_of_X_ne hx]
    exact hgen.represents h (mul_ne_zero (mul_ne_zero hjz hkz) hH) _ hgeneric

end Group

/-- Settles O41. -/
theorem groupSum : Obligations.GroupSum := by
  intro s _ rd ra rb g g' h hrd hra hrb ha hb hg hg'
  have hp := ha.getP_below
  have hq := hb.getP_below
  obtain ⟨t, p, hpadd, ht, hsum⟩ := pointAdd s rd ra rb h hrd hra hrb ha hb
  obtain ⟨u, q, hpdbl, hu, hdouble⟩ := pointDouble s rd ra h hrd hra ha
  refine ⟨t, u, hpadd, ?_, hpdbl, ?_⟩
  · rw [ht.point]
    exact hsum.represents h.field hp hq hg hg'
  · rw [hu.point]
    exact hdouble.represents h.field hp hg

/-- Settles O46. -/
theorem pointEquality : Obligations.PointEquality := by
  intro s ra rb h hra hrb ha hb
  have hp := ha.getP_below
  have hq := hb.getP_below
  have hexec : exec (.peq ra rb) s = _ :=
    h.exec_of_stored (tripleError_cons hra (tripleError_singleton hrb)) rfl (ha.append hb)
  have hframe := s.completeTest_completes .eq (pointEq s.ctx (s.getP ra) (s.getP rb))
  have hsticky : Flag.eq.sticky = 0 := rfl
  rw [pointEq_calls, hsticky, ite_self] at hframe
  have hflag := h.pointEq_val hp hq
  rw [← s.flag_completeTest .eq (pointEq s.ctx (s.getP ra) (s.getP rb))] at hflag
  refine ⟨_, hexec, hframe, hflag, fun g g' hg hg' => hflag.trans ?_⟩
  by_cases hpz : (s.getP ra).z = 0
  · simp [hpz, hg.eq_zero_iff.2 hpz, eq_comm (a := (0 : s.curve.Point)), hg'.eq_zero_iff]
  by_cases hqz : (s.getP rb).z = 0
  · simp [hpz, hqz, hg'.eq_zero_iff.2 hqz, hg.eq_zero_iff]
  · simpa [hpz, hqz] using State.jacHR_eq_zero_iff h.field hp hq hpz hqz hg hg'

end Sys2Proof.Machine

/-! PROOFS. Scalar multiplication (`42_curve.md` R213, R217, R219): the schedule of windows as a relation between its table
and its accumulators, two inductions over it, and what they carry: canonical triples, uniqueness, infinity, and the multiple
of a point in the group. -/

namespace Sys2Proof.Machine

/-! ### One window -/

/-- One window of R213: four doublings of the accumulator, then the addition of the table's entry. -/
def State.IsWindow (s : State) (acc entry r : Point) : Prop :=
  ∃ a b c d, s.IsDouble acc a ∧ s.IsDouble a b ∧ s.IsDouble b c ∧ s.IsDouble c d ∧ s.IsSum d entry r

/-- The value of one window of `mulLoop` (R213). -/
def windowStep (c : Ctx) (acc entry : Point) : Point :=
  (addCore c (dblCanon c (dblCanon c (dblCanon c (dblCanon c acc).val).val).val).val entry).val

theorem mulLoop_succ (c : Ctx) (table : List Point) (k w : Nat) (acc : Point) :
    (mulLoop c table k (w + 1) acc).val =
      (mulLoop c table k w (windowStep c acc (table.getD (k / 2 ^ (4 * w) % 16) (infinity c)))).val := rfl

theorem State.CurveReady.isWindow_windowStep {s : State} (h : s.CurveReady) {acc entry : Point}
    (hacc : s.PointBelow acc) (hentry : s.PointBelow entry) : s.IsWindow acc entry (windowStep s.ctx acc entry) := by
  have ha := (h.canonical_dblCanon hacc).below
  have hb := (h.canonical_dblCanon ha).below
  have hc := (h.canonical_dblCanon hb).below
  have hd := (h.canonical_dblCanon hc).below
  exact ⟨_, _, _, _, h.isDouble_dblCanon hacc, h.isDouble_dblCanon ha, h.isDouble_dblCanon hb, h.isDouble_dblCanon hc,
    h.isSum_addCore hd hentry⟩

namespace State.IsWindow

variable {s : State} (h : s.FieldReady) {acc entry r r' : Point}
include h

theorem canonical (hentry : s.PointBelow entry) (hw : s.IsWindow acc entry r) : s.Canonical r := by
  obtain ⟨a, b, c, d, -, -, -, hd, hsum⟩ := hw
  exact hsum.canonical h (hd.canonical h).below hentry

theorem unique (hw : s.IsWindow acc entry r) (hw' : s.IsWindow acc entry r') : r = r' := by
  obtain ⟨a, b, c, d, ha, hb, hc, hd, hsum⟩ := hw
  obtain ⟨a', b', c', d', ha', hb', hc', hd', hsum'⟩ := hw'
  obtain rfl := ha.unique h ha'
  obtain rfl := hb.unique h hb'
  obtain rfl := hc.unique h hc'
  obtain rfl := hd.unique h hd'
  exact hsum.unique h hsum'

/-- The leading doublings of infinity leave the entry alone, but for `Canon` (R213). -/
theorem of_infinity (hw : s.IsWindow s.infinityPoint entry r) : r = canon s.ctx entry := by
  obtain ⟨a, b, c, d, ha, hb, hc, hd, hsum⟩ := hw
  obtain rfl := ha.infinity h rfl
  obtain rfl := hb.infinity h rfl
  obtain rfl := hc.infinity h rfl
  obtain rfl := hd.infinity h rfl
  exact hsum.of_left_infinity rfl

variable [Fact s.mod.Prime]

/-- One window takes the accumulated multiple 16 times and adds its entry. -/
theorem represents (hacc : s.PointBelow acc) (hentry : s.PointBelow entry) (hw : s.IsWindow acc entry r)
    {g g' : s.curve.Point} (hg : s.Represents acc g) (hg' : s.Represents entry g') :
    s.Represents r (16 • g + g') := by
  obtain ⟨a, b, c, d, ha, hb, hc, hd, hsum⟩ := hw
  have hrepa := ha.represents h hacc hg
  have hrepb := hb.represents h (ha.canonical h).below hrepa
  have hrepc := hc.represents h (hb.canonical h).below hrepb
  have hrepd := hd.represents h (hc.canonical h).below hrepc
  have h16 : g + g + (g + g) + (g + g + (g + g)) + (g + g + (g + g) + (g + g + (g + g))) = 16 • g := by abel
  rw [← h16]
  exact hsum.represents h (hd.canonical h).below hentry hrepd hg'

end State.IsWindow

/-! ### The schedule -/

/-- The digit of the scalar for window w (R213). -/
def windowDigit (k w : Nat) : Nat := k / 2 ^ (4 * w) % 16

theorem windowDigit_le (k w : Nat) : windowDigit k w ≤ 15 := by
  have : windowDigit k w < 16 := Nat.mod_lt _ (by norm_num)
  omega

/-- The scalar above window w is the scalar above window w + 1, then the digit. -/
theorem scalar_above (k w : Nat) : k / 2 ^ (4 * w) = 16 * (k / 2 ^ (4 * (w + 1))) + windowDigit k w := by
  have e : 2 ^ (4 * (w + 1)) = 2 ^ (4 * w) * 16 := by ring
  rw [windowDigit, e, ← Nat.div_div_eq_div_mul]
  omega

/-- The schedule of R213: `T` is the table, `acc w` the accumulator before the windows w − 1 .. 0. -/
structure State.Schedule (s : State) (p : Point) (k : Nat) (T acc : Nat → Point) : Prop where
  zero : T 0 = s.infinityPoint
  one : T 1 = p
  next : ∀ j, 2 ≤ j → j ≤ 15 → s.IsSum (T (j - 1)) p (T j)
  start : acc (16 * s.params.n) = s.infinityPoint
  window : ∀ w < 16 * s.params.n, s.IsWindow (acc (w + 1)) (T (windowDigit k w)) (acc w)

theorem State.isMultiple_iff {s : State} {p : Point} {k : Nat} {r : Point} :
    s.IsMultiple p k r ↔ ∃ T acc, s.Schedule p k T acc ∧ acc 0 = r := by
  refine exists_congr fun T => exists_congr fun acc => ⟨?_, ?_⟩
  · rintro ⟨hzero, hone, hnext, hstart, hwindow, hr⟩
    exact ⟨⟨hzero, hone, hnext, hstart, hwindow⟩, hr⟩
  · rintro ⟨⟨hzero, hone, hnext, hstart, hwindow⟩, hr⟩
    exact ⟨hzero, hone, hnext, hstart, hwindow, hr⟩

namespace State.Schedule

variable {s : State} {p : Point} {k : Nat} {T acc : Nat → Point} (hs : s.Schedule p k T acc)
include hs

/-- What infinity and P have and the addition of P keeps holds of every entry of the table. -/
theorem table_induction {P : Nat → Point → Prop} (hzero : P 0 s.infinityPoint) (hone : P 1 p)
    (hnext : ∀ j r, 1 ≤ j → j ≤ 14 → P j (T j) → s.IsSum (T j) p r → P (j + 1) r) : ∀ j ≤ 15, P j (T j) := by
  intro j
  induction j with
  | zero => exact fun _ => hs.zero ▸ hzero
  | succ j ih =>
    intro hj
    rcases Nat.eq_zero_or_pos j with rfl | hpos
    · exact hs.one ▸ hone
    · exact hnext j _ hpos (by omega) (ih (by omega)) (hs.next (j + 1) (by omega) hj)

/-- What infinity has at the top and each window keeps holds of every accumulator. -/
theorem acc_induction {P : Nat → Point → Prop} (hstart : P (16 * s.params.n) s.infinityPoint)
    (hwindow : ∀ w < 16 * s.params.n, P (w + 1) (acc (w + 1)) →
      s.IsWindow (acc (w + 1)) (T (windowDigit k w)) (acc w) → P w (acc w)) :
    ∀ w ≤ 16 * s.params.n, P w (acc w) := by
  intro w hw
  induction hw using Nat.decreasingInduction with
  | self => exact hs.start ▸ hstart
  | of_succ w hlt ih => exact hwindow w hlt ih (hs.window w hlt)

/-- The table of a triple at infinity holds triples at infinity. -/
theorem table_infinity (hp : p.z = 0) : ∀ j ≤ 15, (T j).z = 0 :=
  hs.table_induction (P := fun _ q => q.z = 0) rfl hp fun j r _ _ hj hsum => by
    rw [hsum.of_left_infinity hj, canon, if_pos hp]
    rfl

variable (h : s.FieldReady)
include h

theorem table_below (hp : s.PointBelow p) : ∀ j ≤ 15, s.PointBelow (T j) :=
  hs.table_induction (P := fun _ q => s.PointBelow q) h.infinity_below hp
    fun _ _ _ _ hj hsum => (hsum.canonical h hj hp).below

theorem acc_canonical (hp : s.PointBelow p) : ∀ w ≤ 16 * s.params.n, s.Canonical (acc w) :=
  hs.acc_induction (P := fun _ q => s.Canonical q) h.canonical_infinity
    fun w _ _ hw => hw.canonical h (hs.table_below h hp _ (windowDigit_le k w))

/-- Two schedules for one operand and one scalar have the same table and the same accumulators. -/
theorem unique {T' acc' : Nat → Point} (hs' : s.Schedule p k T' acc') : acc 0 = acc' 0 := by
  have htable : ∀ j ≤ 15, T j = T' j :=
    hs.table_induction (P := fun j q => q = T' j) hs'.zero.symm hs'.one.symm fun j r hj hj' e hsum => by
      rw [e] at hsum
      exact hsum.unique h (hs'.next (j + 1) (by omega) (by omega))
  have hacc : ∀ w ≤ 16 * s.params.n, acc w = acc' w :=
    hs.acc_induction (P := fun w q => q = acc' w) hs'.start.symm fun w hlt e hw => by
      rw [e, htable _ (windowDigit_le k w)] at hw
      exact hw.unique h (hs'.window w hlt)
  exact hacc 0 (Nat.zero_le _)

/-- While the entries that the digits select are at infinity, the accumulator is canonical infinity. -/
theorem acc_infinity {v : Nat} (hentries : ∀ w, v ≤ w → (T (windowDigit k w)).z = 0) :
    ∀ w ≤ 16 * s.params.n, v ≤ w → acc w = s.infinityPoint :=
  hs.acc_induction (P := fun w q => v ≤ w → q = s.infinityPoint) (fun _ => rfl) fun w _ ih hw hv => by
    rw [ih (by omega)] at hw
    rw [hw.of_infinity h, canon, if_pos (hentries w hv)]
    rfl

variable [Fact s.mod.Prime]

/-- Entry j of the table is j times the point. -/
theorem table_represents (hp : s.PointBelow p) {g : s.curve.Point} (hg : s.Represents p g) :
    ∀ j ≤ 15, s.Represents (T j) (j • g) :=
  hs.table_induction (P := fun j q => s.Represents q (j • g)) (by rw [zero_nsmul]; exact s.represents_infinity)
    (by rwa [one_nsmul]) fun j r _ hj hrep hsum => by
      rw [succ_nsmul]
      exact hsum.represents h (hs.table_below h hp j (by omega)) hp hrep hg

/-- The accumulator before the windows w − 1 .. 0 is the multiple by the scalar's digits above them. -/
theorem acc_represents (hp : s.PointBelow p) (hk : k < s.radix) {g : s.curve.Point} (hg : s.Represents p g) :
    ∀ w ≤ 16 * s.params.n, s.Represents (acc w) ((k / 2 ^ (4 * w)) • g) := by
  refine hs.acc_induction (P := fun w q => s.Represents q ((k / 2 ^ (4 * w)) • g)) ?_ fun w hlt ih hw => ?_
  · have htop : 2 ^ (4 * (16 * s.params.n)) = s.radix := by
      rw [s.radix_eq]
      congr 1
      omega
    rw [htop, Nat.div_eq_of_lt hk, zero_nsmul]
    exact s.represents_infinity
  · have hdigit := windowDigit_le k w
    rw [scalar_above, add_nsmul, mul_nsmul']
    exact hw.represents h (hs.acc_canonical h hp (w + 1) hlt).below (hs.table_below h hp _ hdigit) ih
      (hs.table_represents h hp hg _ hdigit)

end State.Schedule

/-! ### `MulCore` runs the schedule -/

/-- Entry j of the table of R213. -/
def tableEntry (c : Ctx) (p : Point) (j : Nat) : Point := (pointTable c p).val.getD j (infinity c)

/-- Each entry that `tableFrom` makes is its predecessor plus P. -/
theorem tableFrom_getD (c : Ctx) (p d : Point) {j k : Nat} (hj : j < k) (prev : Point) :
    (prev :: (tableFrom c p k prev).val).getD (j + 1) d =
      (addCore c ((prev :: (tableFrom c p k prev).val).getD j d) p).val := by
  induction j generalizing k prev with
  | zero =>
    obtain ⟨k, rfl⟩ : ∃ i, k = i + 1 := ⟨k - 1, by omega⟩
    rfl
  | succ j ih =>
    obtain ⟨k, rfl⟩ : ∃ i, k = i + 1 := ⟨k - 1, by omega⟩
    exact ih (by omega) (addCore c prev p).val

theorem tableEntry_succ (c : Ctx) (p : Point) {j : Nat} (h1 : 1 ≤ j) (h14 : j ≤ 14) :
    tableEntry c p (j + 1) = (addCore c (tableEntry c p j) p).val := by
  obtain ⟨i, rfl⟩ : ∃ i, j = i + 1 := ⟨j - 1, by omega⟩
  exact tableFrom_getD c p (infinity c) (by omega) p

namespace State.CurveReady

variable {s : State} (h : s.CurveReady) {p : Point} (hp : s.PointBelow p)
include h hp

theorem tableEntry_below : ∀ j ≤ 15, s.PointBelow (tableEntry s.ctx p j) := by
  intro j
  induction j with
  | zero => exact fun _ => h.field.infinity_below
  | succ j ih =>
    intro hj
    rcases Nat.eq_zero_or_pos j with rfl | hpos
    · exact hp
    · rw [tableEntry_succ s.ctx p hpos (by omega)]
      exact (h.canonical_addCore (ih (by omega)) hp).below

/-- The loop of `MulCore` from any accumulator: there are accumulators for every window on the way to its value. -/
theorem mulLoop_windows (k w : Nat) {a : Point} (ha : s.PointBelow a) :
    ∃ acc : Nat → Point, acc w = a ∧
      (∀ v < w, s.IsWindow (acc (v + 1)) (tableEntry s.ctx p (windowDigit k v)) (acc v)) ∧
      acc 0 = (mulLoop s.ctx (pointTable s.ctx p).val k w a).val := by
  induction w generalizing a with
  | zero => exact ⟨fun _ => a, rfl, fun v hv => absurd hv (Nat.not_lt_zero v), rfl⟩
  | succ w ih =>
    have hentry := h.tableEntry_below hp _ (windowDigit_le k w)
    have hstep := h.isWindow_windowStep ha hentry
    obtain ⟨acc, hw, hwindows, hend⟩ := ih (hstep.canonical h.field hentry).below
    refine ⟨Function.update acc (w + 1) a, Function.update_self .., fun v hv => ?_, ?_⟩
    · rw [Function.update_of_ne (show v ≠ w + 1 by omega)]
      rcases Nat.lt_succ_iff_lt_or_eq.1 hv with hlt | rfl
      · rw [Function.update_of_ne (show v + 1 ≠ w + 1 by omega)]
        exact hwindows v hlt
      · rw [Function.update_self, hw]
        exact hstep
    · rw [Function.update_of_ne (show 0 ≠ w + 1 by omega), hend]
      exact (mulLoop_succ ..).symm

/-- The datapath delivers a multiple of its operand by the schedule (R213). -/
theorem isMultiple_mulCore (k : Nat) : s.IsMultiple p k (mulCore s.ctx p k).val := by
  obtain ⟨acc, hstart, hwindows, hend⟩ := h.mulLoop_windows hp k (16 * s.params.n) h.field.infinity_below
  refine State.isMultiple_iff.2 ⟨tableEntry s.ctx p, acc, ⟨rfl, rfl, fun j h2 h15 => ?_, hstart, hwindows⟩, hend⟩
  obtain ⟨i, rfl⟩ : ∃ i, j = i + 1 := ⟨j - 1, by omega⟩
  rw [tableEntry_succ s.ctx p (by omega) (by omega)]
  exact h.isSum_addCore (h.tableEntry_below hp i (by omega)) hp

end State.CurveReady

/-! ### What a multiple is -/

namespace State.IsMultiple

variable {s : State} {p r r' : Point} {k : Nat} (h : s.FieldReady) (hm : s.IsMultiple p k r)
include h hm

theorem unique (hm' : s.IsMultiple p k r') : r' = r := by
  obtain ⟨T, acc, hs, rfl⟩ := State.isMultiple_iff.1 hm
  obtain ⟨T', acc', hs', rfl⟩ := State.isMultiple_iff.1 hm'
  exact hs'.unique h hs

theorem canonical (hp : s.PointBelow p) : s.Canonical r := by
  obtain ⟨T, acc, hs, rfl⟩ := State.isMultiple_iff.1 hm
  exact hs.acc_canonical h hp 0 (Nat.zero_le _)

/-- The scalar 0 and the operand infinity give infinity (R217). -/
theorem infinity (hzero : k = 0 ∨ p.z = 0) : r = s.infinityPoint := by
  obtain ⟨T, acc, hs, rfl⟩ := State.isMultiple_iff.1 hm
  refine hs.acc_infinity h (fun w _ => ?_) 0 (Nat.zero_le _) le_rfl
  rcases hzero with rfl | hz
  · rw [windowDigit, Nat.zero_div, Nat.zero_mod, hs.zero]
    rfl
  · exact hs.table_infinity hz _ (windowDigit_le k w)

/-- The scalar 1 gives the operand, coordinate for coordinate (R217). -/
theorem one (hk : k = 1) (hp : p.z ≠ 0) : r = p := by
  obtain ⟨T, acc, hs, rfl⟩ := State.isMultiple_iff.1 hm
  have hn := h.limbs_pos
  have hlow : windowDigit k 0 = 1 := by rw [hk]; rfl
  have hhigh (w : Nat) (hw : 1 ≤ w) : windowDigit k w = 0 := by
    rw [windowDigit, hk, Nat.div_eq_of_lt (Nat.one_lt_two_pow (by omega))]
  have hinf : acc 1 = s.infinityPoint :=
    hs.acc_infinity h (v := 1) (fun w hw => by rw [hhigh w hw, hs.zero]; rfl) 1 (by omega) le_rfl
  have hw := hs.window 0 (by omega)
  rw [Nat.zero_add, hinf, hlow, hs.one] at hw
  rw [hw.of_infinity h, canon, if_neg hp]

variable [Fact s.mod.Prime]

/-- Over a prime modulus the multiple of a point is the multiple in the group (R213, R222). -/
theorem represents (hp : s.PointBelow p) (hk : k < s.radix) {g : s.curve.Point} (hg : s.Represents p g) :
    s.Represents r (k • g) := by
  obtain ⟨T, acc, hs, rfl⟩ := State.isMultiple_iff.1 hm
  have hzero := hs.acc_represents h hp hk hg 0 (Nat.zero_le _)
  rwa [Nat.mul_zero, pow_zero, Nat.div_one] at hzero

end State.IsMultiple

/-! ### The commands -/

/-- Settles O40: the datapath's triple is the one that the schedule allows. -/
theorem scalarMultiple : Obligations.ScalarMultiple := by
  intro s rd ra rb h hrd hra ha
  have hp := ha.getP_below
  have hm := h.isMultiple_mulCore hp (s.getB rb)
  have hcanonical := hm.canonical h.field hp
  have hexec : exec (.pmul rd ra rb) s = _ :=
    h.exec_of_stored (tripleError_cons hrd (tripleError_singleton hra)) rfl ha
  have hresult := h.field.pointResult rd hcanonical.below
  rw [mulCore_calls] at hresult
  exact ⟨_, _, hexec, hresult, hm, fun q hq => hm.unique h.field hq, hcanonical.below, hcanonical.infinity,
    hm.infinity h.field, hm.one h.field⟩

/-- Settles O42. -/
theorem groupMultiple : Obligations.GroupMultiple := by
  intro s _ rd ra rb g h hrd hra ha hg
  obtain ⟨t, p, hexec, hresult, hm, -⟩ := scalarMultiple s rd ra rb h hrd hra ha
  refine ⟨t, hexec, ?_⟩
  rw [hresult.point]
  exact hm.represents h.field ha.getP_below (s.getB_lt rb) hg

/-- Settles O43: `IVP` reports that the multiple by `ORDER` is not infinity. -/
theorem subgroupTest : Obligations.SubgroupTest := by
  intro s ra h hra ha
  have hp := ha.getP_below
  have hm := h.isMultiple_mulCore hp s.order
  have hexec : exec (.psgc ra) s = _ := h.exec_of_stored (tripleError_singleton hra) rfl ha
  have hframe := s.completeTest_completes .ivp ((mulCore s.ctx (s.getP ra) s.order).map (fun q => q.z != 0))
  rw [Counted.map_calls, mulCore_calls] at hframe
  have hpasses := s.flag_completeTest_finite .ivp (mulCore s.ctx (s.getP ra) s.order)
  refine ⟨_, hexec, hframe, ⟨_, hm, ?_⟩, fun hzero => hpasses.2 ?_, fun g hg => hpasses.trans ?_⟩
  · rw [← Bool.not_eq_false]
    exact hpasses.not
  · rw [hm.infinity h.field hzero]
    rfl
  · exact (hm.represents h.field hp h.order hg).eq_zero_iff.symm

end Sys2Proof.Machine

/-! PROOFS. The step of the sequencer, and the commands of `43_control_memory_system.md`: control transfer, address
registers, and `LD` and `ST` with their address checks. -/

namespace Sys2Proof.Machine

/-! ### The step of the sequencer -/

section Sequencer

variable {s : State}

theorem State.mayStep_eq_false : s.mayStep = false ↔ s.run ≠ .running ∨ s.resetInput = true := by
  simp [State.mayStep, imp_iff_not_or]

theorem State.Fetches.mayStep {w : Word} (hf : s.Fetches w) : s.mayStep = true := by
  simp [State.mayStep, hf.running, hf.released]

/-- The fetch delivers the command that the word at `pc` decodes to (R28, R248). -/
theorem State.Fetches.fetchDecode {w : Word} {i : Instr} (hf : s.Fetches w) (hd : decode w = .ok i) :
    s.fetchDecode = .ok i := by
  unfold State.fetchDecode State.fetch
  rw [if_pos hf.inRange, hf.word]
  dsimp only
  rw [hd]

/-- The sequencer runs the command that the fetch delivers (R248). -/
theorem State.sequencerStep_of_fetchDecode {i : Instr} (hm : s.mayStep = true) (hf : s.fetchDecode = .ok i) :
    s.sequencerStep = exec i s := by
  rw [State.sequencerStep, if_pos hm, hf]

/-- Outside RUNNING, or under reset, the sequencer changes nothing (R305, R330). -/
theorem State.sequencerStep_of_not_mayStep (hm : s.mayStep = false) : s.sequencerStep = .next s := by
  rw [State.sequencerStep, if_neg (Bool.eq_false_iff.1 hm)]

/-- The sequencer's turn is its step once the turn is taken off the list (R20). -/
theorem step_sequencer {rest : List Turn} (h : s.turns = .sequencer :: rest) :
    step s = State.sequencerStep { s with turns := rest } :=
  step_cons h

end Sequencer

/-- Settles O7. Neither `mayStep` nor `fetchDecode` reads the waiting turns, so the sequencer's turn does what the step
without a turn does. -/
theorem stepOfSequencer : Obligations.StepOfSequencer := by
  refine ⟨fun s w i hf hd => ?_, fun s hstop => ?_⟩
  · have hm := hf.mayStep
    have hfd := hf.fetchDecode hd
    refine ⟨?_, fun rest => ?_⟩
    · rw [step_nil hf.noTurn, State.sequencerStep_of_fetchDecode hm hfd]
    · exact (step_sequencer rfl).trans (State.sequencerStep_of_fetchDecode (s := { s with turns := rest }) hm hfd)
  · have hm := State.mayStep_eq_false.2 hstop
    refine ⟨fun h => ?_, fun rest h => ?_⟩
    · rw [step_nil h, State.sequencerStep_of_not_mayStep hm]
    · exact (step_sequencer h).trans (State.sequencerStep_of_not_mayStep (s := { s with turns := rest }) hm)

/-! ### Control transfer -/

/-- A branch moves `pc` by its offset when it is taken, else to the next index (R27, R116). -/
theorem State.branchIf_eq (s : State) (taken : Bool) (imm : Imm16) :
    s.branchIf taken imm = s.completeAt (if taken = true then s.pc + imm else s.pc + 1) := rfl

/-- `BFS` by the selector of a flag branches when the flag is 1 (R118, R253). -/
theorem exec_bfs (s : State) (imm : Imm16) {f : Flag} {sel : FlagSel} (h : (f, sel.val) ∈ flagSelectors) :
    exec (.bfs sel imm) s = .next (s.completeAt (if s.flag f = true then s.pc + imm else s.pc + 1)) := by
  rw [exec_completes (i := .bfs sel imm) (illegalFields_none (selectorError_of_flag h)), commandDone,
    State.flagAt_eq_flag h, State.branchIf_eq]

/-- `BFC` by the selector of a flag branches when the flag is 0 (R118, R254). -/
theorem exec_bfc (s : State) (imm : Imm16) {f : Flag} {sel : FlagSel} (h : (f, sel.val) ∈ flagSelectors) :
    exec (.bfc sel imm) s = .next (s.completeAt (if s.flag f = false then s.pc + imm else s.pc + 1)) := by
  rw [exec_completes (i := .bfc sel imm) (illegalFields_none (selectorError_of_flag h)), commandDone,
    State.flagAt_eq_flag h, State.branchIf_eq]
  simp only [Bool.not_eq_true']

/-- Settles O14. -/
theorem controlTransfer : Obligations.ControlTransfer := fun s =>
  ⟨rfl, rfl, fun _ => rfl, fun _ _ imm hsel => ⟨exec_bfs s imm hsel, exec_bfc s imm hsel⟩⟩

/-! ### Address registers -/

/-- A 16-bit offset is added as a signed number modulo 2^32 (R257, R258). -/
theorem State.toNat_effectiveAddress (s : State) (ra : RegNum) (imm : Imm16) :
    ((s.effectiveAddress ra imm).toNat : Int) = ((s.getA ra).toNat + imm.toInt) % 2 ^ 32 := by
  have hsext : ((sext32 imm).toNat : Int) = imm.toInt % 2 ^ 32 := by
    have hlt := (sext32 imm).isLt
    rw [← BitVec.toInt_signExtend_of_le (x := imm) (v := 32) (by decide), ← sext32, BitVec.toInt_eq_toNat_cond]
    split_ifs <;> omega
  rw [State.effectiveAddress, BitVec.toNat_add]
  omega

/-- `DBNZ` counts down modulo 2^32: a count of 0 wraps (R255). -/
theorem toNat_sub_one (v : Word) : ((v - 1).toNat : Int) = (v.toNat - 1) % 2 ^ 32 := by
  have hone : (1 : Word).toNat = 1 := rfl
  rw [BitVec.toNat_sub]
  omega

theorem sub_one_bne_zero (v : Word) : (v - 1 != 0) = decide (v.toNat ≠ 1) := by
  rw [Bool.eq_iff_iff, bne_iff_ne, decide_eq_true_eq, Ne, sub_eq_zero, ← BitVec.toNat_inj]
  rfl

/-- `DBNZ` falls through from a count of 1 and branches from every other (R255). -/
theorem exec_dbnz (s : State) (rs : RegNum) (imm : Imm16) :
    exec (.dbnz rs imm) s = .next
      ((s.setA rs (s.getA rs - 1)).completeAt (if (s.getA rs).toNat = 1 then s.pc + 1 else s.pc + imm)) := by
  rw [exec_completes rfl, commandDone, State.branchIf_eq, sub_one_bne_zero]
  simp only [decide_eq_true_eq, ite_not, State.setA_pc]

/-- Settles O15. Each command is one write of `A[rd]` and its end, so its frame is that of the write. -/
theorem addressRegisters : Obligations.AddressRegisters := by
  intro s rd ra
  have hsame (v : Word) (next : CmdIndex) : ((s.setA rd v).completeAt next).getA rd = v := s.getA_setA_same rd v
  have hother (v : Word) (next : CmdIndex) (r : RegNum) (hr : r ≠ rd) :
      ((s.setA rd v).completeAt next).getA r = s.getA r := by
    rw [State.getA_completeAt, State.getA_setA, if_neg hr]
  refine ⟨fun imm => ⟨(s.setA rd (imm.setWidth 32)).completeAt (s.pc + 1), rfl, ?_, hother _ _, rfl⟩,
    fun imm => ⟨(s.setA rd (s.effectiveAddress ra imm)).completeAt (s.pc + 1), rfl, ?_, hother _ _, rfl⟩,
    fun imm => ⟨_, exec_dbnz s rd imm, ?_, hother _ _, rfl⟩⟩
  · rw [hsame]
    exact BitVec.toNat_setWidth_of_le (by decide)
  · rw [hsame]
    exact s.toNat_effectiveAddress ra imm
  · rw [hsame]
    exact toNat_sub_one (s.getA rd)

/-! ### `LD` and `ST` -/

theorem State.memoryAccess_misaligned (s : State) {ea : Word} (h : ea.toNat % 8 ≠ 0) :
    s.memoryAccess ea = some { cause := .memMisaligned, info := ea } := by
  rw [State.memoryAccess, if_pos h]

theorem State.memoryAccess_outOfRange (s : State) {ea : Word} (h : ea.toNat % 8 = 0)
    (hrange : s.params.dmemb < ea.toNat + s.params.bigBytes) :
    s.memoryAccess ea = some { cause := .memRange, info := ea } := by
  rw [State.memoryAccess, if_neg (not_not.2 h), if_pos hrange]

/-- Settles O13. -/
theorem addressChecks : Obligations.AddressChecks := by
  intro s rd ra imm i hi ea
  have hea : (s.effectiveAddress ra imm).toNat = ea := by
    have := s.toNat_effectiveAddress ra imm
    omega
  have hinfo : BitVec.ofNat 32 ea = s.effectiveAddress ra imm := by rw [← hea, BitVec.ofNat_toNat, BitVec.setWidth_eq]
  have hchecks : commandChecks i s = s.memoryAccess (s.effectiveAddress ra imm) := by
    rcases hi with rfl | rfl <;> rfl
  have hdone (r : RegNum) : (commandDone i s).getA r = s.getA r := by
    rcases hi with rfl | rfl <;> rfl
  rw [hinfo, ← hea]
  refine ⟨rfl, fun hmis => ?_, fun hal hrange => ?_, fun t ht r => ?_⟩
  · exact exec_faults (hchecks.trans (s.memoryAccess_misaligned hmis))
  · exact exec_faults (hchecks.trans (s.memoryAccess_outOfRange hal hrange))
  · rcases exec_next ht with ⟨trap, -, rfl⟩ | ⟨-, rfl⟩
    · exact s.getA_raise trap r
    · exact hdone r

/-- Settles O16. -/
theorem load : Obligations.Load := by
  intro s rd ra imm ea ha hb
  have hvalue := s.getB_load rd ea
  refine ⟨_, exec_ld rd ha hb, ((State.Writes.refl s _ _).setB (by simp) _).complete, hvalue, fun k hk => ?_⟩
  calc _ = s.memRead ea (8 * s.params.n) / 2 ^ (8 * k) % 2 ^ 8 := congrArg (· / 2 ^ (8 * k) % 2 ^ 8) hvalue
    _ = (s.readByte (ea + k)).toNat := s.byte_memRead hk

/-- Settles O17. -/
theorem store : Obligations.Store := fun s rd _ _ ha hb =>
  ⟨_, exec_st rd ha hb, fun _ => s.readByte_memWrite_inside _ (s.getB rd),
    fun _ => s.readByte_memWrite_outside (s.getB rd), rfl⟩

end Sys2Proof.Machine

/-! PROOFS. Fault or completion (`60_exceptions.md` R290, R291): what a completed command leaves of the fault record, of
`STATE` and of `IP`. -/

namespace Sys2Proof.Machine

/-- A completed command keeps the address and the word of the fault record; its code is `cause_commandDone` (R290, R291). -/
theorem epc_einfo_commandDone (i : Instr) (s : State) :
    (commandDone i s).epc = s.epc ∧ (commandDone i s).einfo = s.einfo := by
  rcases commandDone_cases i s with hc | ⟨rfl, e⟩ | ⟨_, _, _, _, e⟩ | ⟨_, _, e⟩ | ⟨_, _, _, _, e⟩
  · rw [hc.rest]
    exact ⟨rfl, rfl⟩
  all_goals rw [e]; exact ⟨rfl, rfl⟩

/-- A completed `HALT` ends the run and sets `DONE_IP`; every other command keeps `STATE` and `IP` (R251). -/
theorem run_ip_commandDone (i : Instr) (s : State) :
    (i = .halt ∧ (commandDone i s).run = .done ∧ (commandDone i s).ip = s.ip ||| 0b01#2) ∨
    (i ≠ .halt ∧ (commandDone i s).run = s.run ∧ (commandDone i s).ip = s.ip) := by
  by_cases hi : i = .halt
  · subst hi
    exact .inl ⟨rfl, rfl, rfl⟩
  · refine .inr ⟨hi, ?_⟩
    rcases commandDone_cases i s with hc | ⟨hhalt, -⟩ | ⟨_, _, _, _, e⟩ | ⟨_, _, e⟩ | ⟨_, _, _, _, e⟩
    · rw [hc.rest]
      exact ⟨rfl, rfl⟩
    · exact absurd hhalt hi
    all_goals rw [e]; exact ⟨rfl, rfl⟩

/-- Settles O9: the checks of the command either find a fault, whose entry is `faultState`, or pass. -/
theorem faultOrCompletion : Obligations.FaultOrCompletion := by
  intro i s
  cases hchecks : commandChecks i s with
  | some trap =>
    exact ⟨_, exec_faults hchecks, .inl ⟨trap.cause, trap.info, commandChecks_names i s trap hchecks, s.raise_eq trap⟩⟩
  | none =>
    obtain ⟨hepc, heinfo⟩ := epc_einfo_commandDone i s
    exact ⟨_, exec_completes hchecks, .inr ⟨instret_commandDone i s, cause_commandDone i s, hepc, heinfo,
      run_ip_commandDone i s⟩⟩

end Sys2Proof.Machine

/-! PROOFS. Reset (`70_reset_and_hazards.md` R330 to R332): the registers after a reset, the turns under an asserted reset
input, and the modulus that only a reset unlatches. -/

namespace Sys2Proof.Machine

open Sys2Proof.Config

/-! ### The registers after a reset -/

theorem State.atReset_hardResetState (p : Params) (epoch : Nat) : (State.hardResetState p epoch).AtReset where
  big r := by
    simp only [State.getB, State.hardResetState, Vector.getElem_replicate, Nat.zero_mod]
  address r := by
    simp only [State.getA, State.hardResetState, Vector.getElem_replicate]
  control := ⟨rfl, rfl, rfl, rfl⟩
  field := ⟨rfl, rfl, rfl, rfl, rfl⟩
  curve := ⟨rfl, rfl, rfl, rfl⟩
  record := ⟨rfl, rfl, rfl⟩
  interrupts := ⟨rfl, rfl⟩
  counters := ⟨rfl, rfl⟩

/-- R52 gives no value to the memories, and the inputs of the model are no registers. -/
theorem State.AtReset.of_rest {s t : State} (h : s.AtReset) (hrest : t = { s with
    imem := t.imem, dmem := t.dmem, epoch := t.epoch, resetInput := t.resetInput, turns := t.turns,
    response := t.response }) : t.AtReset := by
  rw [hrest]
  exact { h with }

theorem State.atReset_softReset (s : State) : s.softReset.AtReset :=
  (State.atReset_hardResetState s.params s.epoch).of_rest rfl

theorem State.atReset_assertReset (s : State) : s.assertReset.AtReset :=
  (State.atReset_hardResetState s.params (s.epoch + 1)).of_rest rfl

/-- Settles O50. -/
theorem softReset : Obligations.SoftReset := by
  intro s v rest ht hr hv
  have hstep := step_ctrl ht hr
  rw [State.writeCtrl_reset hv] at hstep
  exact ⟨_, hstep, s.atReset_softReset.of_rest rfl, rfl, fun _ => rfl, fun _ => rfl⟩

/-! ### The turns of the reset input, and the turns while it is asserted -/

section ResetInput

variable {s : State} {rest : List Turn}

theorem step_assertReset (h : s.turns = .assertReset :: rest) (hr : s.resetInput = false) :
    step s = .next { s.assertReset with turns := rest } := by
  simp only [step_cons h, State.takeTurn, hr, Bool.false_eq_true, if_false]
  rfl

theorem step_releaseReset (h : s.turns = .releaseReset :: rest) :
    step s = .next { s with turns := rest, resetInput := false } :=
  step_cons h

/-- A second assertion changes nothing (log entry 9). -/
theorem step_assertReset_asserted (h : s.turns = .assertReset :: rest) (hr : s.resetInput = true) :
    step s = .next { s with turns := rest } := by
  simp only [step_cons h, State.takeTurn, hr, if_true]

/-- Under an asserted reset input the sequencer changes nothing (R330). -/
theorem State.sequencerStep_asserted (hr : s.resetInput = true) : s.sequencerStep = .next s :=
  State.sequencerStep_of_not_mayStep (State.mayStep_eq_false.2 (.inr hr))

theorem step_sequencer_asserted (h : s.turns = .sequencer :: rest) (hr : s.resetInput = true) :
    step s = .next { s with turns := rest } :=
  (step_sequencer h).trans (State.sequencerStep_asserted hr)

/-- Under an asserted reset input an access is refused, and `HOSTERR` stays (R330). -/
theorem step_host_asserted {a : HostAccess} (h : s.turns = .host a :: rest) (hr : s.resetInput = true) :
    step s = .next { s with turns := rest, response := some { busError := true, data := 0 } } := by
  simp only [step_cons h, State.takeTurn, State.hostTurn, hr, if_true, refusedAccess]

end ResetInput

/-- Settles O51: the run at the end takes one rule of the reset input for each of its four turns. -/
theorem hardReset : Obligations.HardReset := by
  refine ⟨fun s rest hr ht => ?_, fun s hr => ⟨fun ht => ?_, fun rest => ⟨?_, fun a ht => ?_, fun ht => ?_⟩⟩,
    fun s a hr ht => ?_⟩
  · exact ⟨_, step_assertReset ht hr, s.atReset_assertReset.of_rest rfl, rfl, rfl, rfl⟩
  · exact (step_nil ht).trans (State.sequencerStep_asserted hr)
  · rintro (ht | ht)
    · exact step_sequencer_asserted ht hr
    · exact step_assertReset_asserted ht hr
  · exact step_host_asserted ht hr
  · exact step_releaseReset ht
  · exact ⟨_, _, _, _, step_assertReset ht hr, s.atReset_assertReset.of_rest rfl, rfl, rfl,
      step_sequencer_asserted rfl rfl, rfl, step_host_asserted rfl rfl, rfl, rfl,
      step_releaseReset rfl, s.atReset_assertReset.of_rest rfl, rfl, rfl⟩

/-! ### The latched modulus -/

/-- `t` holds the modulus and the constants of `s` (R32 to R35). -/
structure State.SameModulus (s t : State) : Prop where
  modv : t.modv = s.modv
  mod : t.mod = s.mod
  inv : t.inv = s.inv
  rone : t.rone = s.rone
  rsq : t.rsq = s.rsq

section SameModulus

variable {s t : State}

/-- Once a modulus is latched no command changes it: `MODSET`, the one that could, does not pass its checks (R171). -/
theorem State.sameModulus_exec {i : Instr} (hm : s.modv = true) (h : exec i s = .next t) : s.SameModulus t := by
  rcases exec_next h with ⟨trap, -, rfl⟩ | ⟨hchecks, rfl⟩
  · exact ⟨rfl, rfl, rfl, rfl, rfl⟩
  · have hne : ∀ ra, i ≠ .modset ra := by
      rintro ra rfl
      obtain ⟨hempty, -⟩ := State.modsetChecks_eq_none.1 hchecks
      exact absurd (hm.symm.trans hempty) nofun
    obtain ⟨hmodv, hmod, hinv, hrone, hrsq⟩ := (Executes.of_commandDone i s).field hne
    exact ⟨hmodv, hmod, hinv, hrone, hrsq⟩

/-- The host reads the context registers and writes none of them (R47). -/
theorem State.sameModulus_hostStore (s : State) (r : HostReg) (v : Word) : s.SameModulus (s.hostStore r v) := by
  cases r with
  | b i k =>
    simp only [State.hostStore]
    split_ifs <;> exact ⟨rfl, rfl, rfl, rfl, rfl⟩
  | _ => exact ⟨rfl, rfl, rfl, rfl, rfl⟩

/-- The host unlatches the modulus by a soft reset only (R331, R332). -/
theorem State.sameModulus_hostAccess (s : State) (a : HostAccess) :
    s.SameModulus (s.hostAccess a).1 ∨ ∃ v, a = .write 4 0x0010 v ∧ v.getLsbD 1 = true := by
  rcases s.hostAccess_cases a with e | e | ⟨v, ha, h1, -⟩ | ⟨v, -, -, -, -, e⟩ | ⟨r, v, -, e⟩
  · exact .inl (by rw [e]; exact ⟨rfl, rfl, rfl, rfl, rfl⟩)
  · exact .inl (by rw [e]; exact ⟨rfl, rfl, rfl, rfl, rfl⟩)
  · exact .inr ⟨v, ha, h1⟩
  · exact .inl (by rw [e]; exact ⟨rfl, rfl, rfl, rfl, rfl⟩)
  · exact .inl (by rw [e]; exact s.sameModulus_hostStore r v)

theorem State.sameModulus_hostTurn (s : State) (a : HostAccess) :
    s.SameModulus (s.hostTurn a) ∨ ∃ v, a = .write 4 0x0010 v ∧ v.getLsbD 1 = true ∧ s.resetInput = false := by
  unfold State.hostTurn
  cases hr : s.resetInput with
  | true => exact .inl ⟨rfl, rfl, rfl, rfl, rfl⟩
  | false =>
    rcases s.sameModulus_hostAccess a with hkept | ⟨v, ha, h1⟩
    · exact .inl { hkept with }
    · exact .inr ⟨v, ha, h1, rfl⟩

/-- A step that is no reset keeps a latched modulus (R332). -/
theorem State.sameModulus_step (hstep : step s = .next t) (hm : s.modv = true) (hreset : ¬ s.ResetTurn) :
    s.SameModulus t := by
  obtain ⟨u, hu, hcases⟩ := step_cases hstep
  have hsu : s.SameModulus u := by
    rcases hu with rfl | ⟨rest, rfl⟩ <;> exact ⟨rfl, rfl, rfl, rfl, rfl⟩
  rcases hcases with rfl | ⟨trap, _, _, rfl⟩ | ⟨i, _, _, he⟩ | ⟨a, rest, ht, rfl, rfl⟩ | ⟨rest, ht, _, _, _⟩ |
    ⟨_, _, _, rfl⟩
  · exact hsu
  · exact { hsu with }
  · have hut := State.sameModulus_exec (hsu.modv.trans hm) he
    exact ⟨hut.modv.trans hsu.modv, hut.mod.trans hsu.mod, hut.inv.trans hsu.inv, hut.rone.trans hsu.rone,
      hut.rsq.trans hsu.rsq⟩
  · rcases State.sameModulus_hostTurn { s with turns := rest } a with hkept | ⟨v, rfl, h1, hr⟩
    · exact { hkept with }
    · exact absurd (.inr ⟨v, rest, ht, h1, hr⟩) hreset
  · exact absurd (.inl ⟨rest, ht⟩) hreset
  · exact { hsu with }

end SameModulus

/-- Settles O53. -/
theorem modulusWriteOnce : Obligations.ModulusWriteOnce := by
  intro s t hstep hm hreset
  obtain ⟨hmodv, hmod, hinv, hrone, hrsq⟩ := State.sameModulus_step hstep hm hreset
  exact ⟨hmodv.trans hm, hmod, hinv, hrone, hrsq⟩

end Sys2Proof.Machine

/-! PROOFS. Constant structure (`70_reset_and_hazards.md` R341): the multiplier calls of a completed command are those of
its kind, whatever its operands hold, but for the range test of `FTOM`. -/

namespace Sys2Proof.Machine

/-- The `MontMul` calls of `i` when it completes: those of R191 and R223, and none for an `FTOM` out of range (R186). -/
def State.callsOf (s : State) : Instr → Nat
  | .ftom _ ra => if s.mod ≤ s.getB ra then 0 else 1
  | i => multiplications s.params.n i

section Calls

variable {s : State} {i : Instr}

theorem State.callsOf_ftom (rd ra : RegNum) : s.callsOf (.ftom rd ra) = if s.mod ≤ s.getB ra then 0 else 1 := rfl

theorem State.callsOf_eq_multiplications (h : ∀ rd ra, i = .ftom rd ra → s.getB ra < s.mod) :
    s.callsOf i = multiplications s.params.n i := by
  cases i with
  | ftom rd ra => exact if_neg (Nat.not_le.2 (h rd ra rfl))
  | _ => rfl

/-- Two states of one N agree on the calls of a command, once they agree on the range test of `FTOM` (R341). -/
theorem State.callsOf_congr {s' : State} (hparams : s.params = s'.params)
    (h : ∀ rd ra, i = .ftom rd ra → (s.mod ≤ s.getB ra ↔ s'.mod ≤ s'.getB ra)) : s.callsOf i = s'.callsOf i := by
  cases i with
  | ftom rd ra => exact if_congr (h rd ra rfl) rfl rfl
  | _ => simp only [State.callsOf, hparams]

/-! ### What the end of a command adds to `MULCNT` -/

theorem State.mulcnt_completeField (rd : RegNum) (r : Counted Nat) :
    (s.completeField rd r).mulcnt = s.mulcnt + BitVec.ofNat 64 r.calls := rfl

theorem State.mulcnt_completePoint (rd : RegNum) (r : Counted Point) :
    (s.completePoint rd r).mulcnt = s.mulcnt + BitVec.ofNat 64 r.calls := rfl

theorem State.mulcnt_completePaff (rd : RegNum) (z : Nat) (r : Counted Point) :
    (s.completePaff rd z r).mulcnt = s.mulcnt + BitVec.ofNat 64 r.calls := rfl

theorem State.mulcnt_completeTest (f : Flag) (r : Counted Bool) :
    (s.completeTest f r).mulcnt = s.mulcnt + BitVec.ofNat 64 r.calls := rfl

/-- The inverse of zero is counted as any other (R183). -/
theorem State.mulcnt_completeFinv (rd : RegNum) (x : Nat) (r : Counted Nat) :
    (s.completeFinv rd x r).mulcnt = s.mulcnt + BitVec.ofNat 64 r.calls := by
  unfold State.completeFinv
  split_ifs <;> rfl

/-- A root that does not exist is counted as any other (R184). -/
theorem State.mulcnt_completeFsqrt (rd : RegNum) (x : Nat) (r : Counted (Nat × Nat)) :
    (s.completeFsqrt rd x r).mulcnt = s.mulcnt + BitVec.ofNat 64 r.calls := by
  unfold State.completeFsqrt
  split_ifs <;> rfl

theorem State.mulcnt_completeFtom (rd ra : RegNum) :
    (s.completeFtom rd (s.getB ra)).mulcnt = s.mulcnt + BitVec.ofNat 64 (s.callsOf (.ftom rd ra)) := by
  rw [State.completeFtom, State.callsOf_ftom]
  split_ifs
  · exact (BitVec.add_zero s.mulcnt).symm
  · exact State.mulcnt_completeField rd _

/-- A completed command adds its calls to `MULCNT` (R40). -/
theorem mulcnt_commandDone (i : Instr) (s : State) :
    (commandDone i s).mulcnt = s.mulcnt + BitVec.ofNat 64 (s.callsOf i) := by
  cases i with
  | fadd | fsub | fneg | fmul | fsqr | ffrm => exact State.mulcnt_completeField _ _
  | fexp => rw [commandDone, State.mulcnt_completeField, expCore_calls]; rfl
  | finv => rw [commandDone, State.mulcnt_completeFinv, expCore_calls]; rfl
  | fsqrt => rw [commandDone, State.mulcnt_completeFsqrt, sqrtCandidate_calls]; rfl
  | ftom => exact State.mulcnt_completeFtom _ _
  | padd => rw [commandDone, State.mulcnt_completePoint, addCore_calls]; rfl
  | pdbl => rw [commandDone, State.mulcnt_completePoint, dblCanon_calls]; rfl
  | pmul => rw [commandDone, State.mulcnt_completePoint, mulCore_calls]; rfl
  | ponc => rw [commandDone, State.mulcnt_completeTest, Counted.map_calls, onCurve_calls]; rfl
  | psgc => rw [commandDone, State.mulcnt_completeTest, Counted.map_calls, mulCore_calls]; rfl
  | paff => rw [commandDone, State.mulcnt_completePaff, affine_calls]; rfl
  | peq => rw [commandDone, State.mulcnt_completeTest, pointEq_calls]; rfl
  | nop | halt | jmp | bfs | bfc | dbnz | ali | aaddi | ld | st | badd | badc | bsub | bsbb | bcmp | bshr1 | bmulw | btstz |
    bmov | bldi | bcsel | modset | fone | crvset => exact (BitVec.add_zero s.mulcnt).symm

/-- The counters of a command that did not end in FAULTED: it completed (R40, R290). -/
theorem counters_of_exec {t : State} (h : exec i s = .next t) (hrun : t.run ≠ .faulted) :
    t.mulcnt = s.mulcnt + BitVec.ofNat 64 (s.callsOf i) ∧ t.instret = s.instret + 1 := by
  rcases exec_next h with ⟨trap, -, rfl⟩ | ⟨-, rfl⟩
  · exact absurd rfl hrun
  · exact ⟨mulcnt_commandDone i s, instret_commandDone i s⟩

end Calls

/-- Settles O47. -/
theorem constantStructure : Obligations.ConstantStructure := by
  refine ⟨fun i s t _ hexec hrun hftom => ?_,
    fun i s s' t t' _ _ hexec hexec' hrun hrun' hparams hmul hret hftom => ?_⟩
  · rw [← State.callsOf_eq_multiplications hftom]
    exact counters_of_exec hexec hrun
  · obtain ⟨hmulcnt, hinstret⟩ := counters_of_exec hexec hrun
    obtain ⟨hmulcnt', hinstret'⟩ := counters_of_exec hexec' hrun'
    exact ⟨by rw [hmulcnt, hmulcnt', hmul, State.callsOf_congr hparams hftom], by rw [hinstret, hinstret', hret]⟩

end Sys2Proof.Machine
